-- ==== Sys2Proof/Word.lean ====
section
/-! DEFINITION. The words of the block: bytes, raw codes, the operand ports of the HOST channel and the three encoded formats
(spec/30_encoding.md R80 to R90; spec/00_scope.md R6). -/

namespace Sys2Proof

/-- The 8-bit byte: the addressable unit of the bus, and what the CRC consumes (R55). -/
abbrev Byte := BitVec 8

/-- The 16-bit unsigned raw measurement value (R27). -/
abbrev RawCode := BitVec 16

/-- A signed 32-bit conversion result (R37), read with `BitVec.toInt`. -/
abbrev Num32 := BitVec 32

/-- The 7-bit device address of the bus (R51). -/
abbrev BusAddr := BitVec 7

/-- The operand ports of the HOST channel. Operands are not packed into the select code (R81); an operation reads the ports
it has and no other (R85, R86, R88, R89). -/
structure Ports where
  /-- `location` of GET_SERIAL_NUMBER (R86). -/
  loc : Byte
  /-- `command` of READ_HM (R85). -/
  cmd : Byte
  /-- `raw` of CALC_RH and CALC_T (R88). -/
  raw : RawCode
  /-- `data` of CRC_CHECK (R89). -/
  data : List Byte
  /-- `length` of CRC_CHECK (R89). -/
  len : Byte
  /-- `expectedChecksum` of CRC_CHECK (R89). -/
  exp : Byte
  deriving DecidableEq, Repr

/-- Every port at zero, the byte list empty. -/
def Ports.zero : Ports := { loc := 0, cmd := 0, raw := 0, data := [], len := 0, exp := 0 }

/-- An encoded thing of the block, in one of its three fixed-length formats (R80). The formats are told apart by who emits
the word, not by decoding (R95), so the format is part of the word here. -/
inductive CodeWord where
  /-- `HOSTOP`: the 4-bit select code a host names an operation with, and the operand ports beside it (R81). -/
  | hostop (op : BitVec 4) (ports : Ports)
  /-- `CMD8`: one device command byte (R82). -/
  | cmd8 (c : Byte)
  /-- `ADDR16`: the two bytes of a serial-number address sequence, in the order written (R83). -/
  | addr16 (a1 a0 : Byte)
  deriving DecidableEq, Repr

end Sys2Proof
end

