-- ==== Sys2Proof/Config.lean ====
section
/-! DEFINITION. What is fixed for one machine and left open by the spec (spec/00_scope.md R5, spec/92_eei_decisions.md
"Parameters left OPEN"), and the free values of the environment (spec/20_memory.md R65). -/

namespace Sys2Proof

/-- The parameter MODEL: two aliases with "no behavioral difference" (R2, R97). Nothing reads it. -/
inductive SensorModel where
  | sht20
  | sht21
  deriving DecidableEq, Repr

/-- The parameter SN_MAP (spec/42_serial_number.md R143): for each position of the two serial-number responses the index of
`SN` it is stored to, or `none` for a discarded byte. -/
structure SnMap where
  store1 : Vector (Option (Fin 8)) 8
  store2 : Vector (Option (Fin 8)) 6
  deriving DecidableEq, Repr

/-- The indices the map stores to, first response first. -/
def SnMap.stored (m : SnMap) : List (Fin 8) :=
  (m.store1.toList ++ m.store2.toList).filterMap id

/-- What the source fixes of SN_MAP (R143): 8 positions are stored and 6 discarded, the 8 go to 8 distinct indices, both
responses contribute. -/
def SnMap.valid (m : SnMap) : Bool :=
  m.stored.length == 8 && decide m.stored.Nodup &&
    m.store1.toList.any Option.isSome && m.store2.toList.any Option.isSome

/-- The open parameters of one block. They are fixed for the machine: `State` carries them as constant data that no step
writes, so that a claim holds for every value of them (log 3). -/
structure Params where
  /-- CRC_INIT, the starting value of the CRC accumulator (R165). -/
  crcInit : Byte
  /-- SN_MAP (R143). -/
  snMap : SnMap
  /-- MODEL (R2). -/
  model : SensorModel
  deriving DecidableEq, Repr

/-- FREE VALUE (log 2): what the n-th `Avail` answers once the listed answers are used up. Any natural number (R61, R65). -/
opaque Config.freeAvail : Nat → Nat

/-- FREE VALUE (log 2): what the n-th `Read` answers once the listed answers are used up. Any byte (R62, R65). -/
opaque Config.freeRead : Nat → Byte

/-- FREE VALUE (log 13): what a byte of `DATA[0..LEN-1]` is that the caller of CRC_CHECK did not list. Any byte (R31, R89). -/
opaque Config.freeData : Nat → Byte

end Sys2Proof
end

