-- ==== Sys2Proof/Syntax.lean ====
section
/-! DEFINITION. The instructions: one constructor per row of spec/opcode_table.json. The nine host operations (HOSTOP) carry
their operands; the seven device commands (CMD8) and the two address sequences (ADDR16) have none. -/

namespace Sys2Proof

/-- One constructor per row of the opcode table (spec/30_encoding.md R81, R82, R83). -/
inductive Instr where
  /-- BEGIN, `begin()` (R110). -/
  | beginOp
  /-- RESET, `reset()` (R111). -/
  | resetOp
  /-- GET_TEMPERATURE, `getTemperature()` (R120). -/
  | getTemperature
  /-- GET_HUMIDITY, `getHumidity()` (R121). -/
  | getHumidity
  /-- GET_SERIAL_NUMBER, `getSerialNumber(location)` (R140). -/
  | getSerialNumber (loc : Byte)
  /-- READ_HM, `readSensor_hm(command)` (R122). -/
  | readHm (cmd : Byte)
  /-- CALC_RH, `CalcRH(raw)` (R150). -/
  | calcRh (raw : RawCode)
  /-- CALC_T, `CalcT(raw)` (R151). -/
  | calcT (raw : RawCode)
  /-- CRC_CHECK, `CRC_Checksum(data, length, expectedChecksum)` (R160). -/
  | crcCheck (data : List Byte) (len expected : Byte)
  /-- TRIG_T_HM, byte 0xE3 (R180). -/
  | trigTHm
  /-- TRIG_RH_HM, byte 0xE5 (R181). -/
  | trigRhHm
  /-- TRIG_T_NHM, byte 0xF3 (R182). -/
  | trigTNhm
  /-- TRIG_RH_NHM, byte 0xF5 (R183). -/
  | trigRhNhm
  /-- WRITE_USER_REG, byte 0xE6 (R184). -/
  | writeUserReg
  /-- READ_USER_REG, byte 0xE7 (R185). -/
  | readUserReg
  /-- SOFT_RESET, byte 0xFE (R186). -/
  | softReset
  /-- SN_ADDR1, bytes 0xFA 0x0F (R187). -/
  | snAddr1
  /-- SN_ADDR2, bytes 0xFC 0xC9 (R188). -/
  | snAddr2
  deriving DecidableEq, Repr

end Sys2Proof
end

