-- ==== Sys2Proof/WellFormed.lean ====
section
/-! DEFINITION. Which instruction terms are well formed. -/

namespace Sys2Proof

/-- The byte list given to CRC_CHECK has the length its `length` operand says: `DATA[0..LEN-1]` (spec/30_encoding.md R89).
Every other operand is admitted at every value: `location` is "not reduced modulo 8 and not checked" (R86), a `command` byte
may be any byte (R92), `raw` is any 16-bit value (R88). -/
def Instr.wellFormed : Instr → Bool
  | .beginOp => true
  | .resetOp => true
  | .getTemperature => true
  | .getHumidity => true
  | .getSerialNumber _ => true
  | .readHm _ => true
  | .calcRh _ => true
  | .calcT _ => true
  | .crcCheck data len _ => data.length == len.toNat
  | .trigTHm => true
  | .trigRhHm => true
  | .trigTNhm => true
  | .trigRhNhm => true
  | .writeUserReg => true
  | .readUserReg => true
  | .softReset => true
  | .snAddr1 => true
  | .snAddr2 => true

end Sys2Proof
end

