-- ==== Sys2Proof/Decode.lean ====
section
/-! DEFINITION. The decoder of the three formats, total and rejecting by name; the encoder written from the same tables; the
opcode table as data; and the host's numbering of a table row's bits (spec/30_encoding.md R80 to R95). -/

namespace Sys2Proof

/-- Why a word stands for no instruction. -/
inductive DecodeError where
  /-- A reserved `HOSTOP` code: 0x5, 0x6, 0x7, 0xC, 0xD, 0xE or 0xF (R91). -/
  | reservedHostOp (op : BitVec 4)
  /-- A `CMD8` byte outside the seven of the table (R92). -/
  | unlistedCommand (c : Byte)
  /-- An `ADDR16` pair outside the two of the table (R83). -/
  | unlistedAddress (a1 a0 : Byte)
  deriving DecidableEq, Repr

/-! The device command bytes and address pairs (R82, R83; spec/00_scope.md R5). -/

/-- TRIG_T_HM. -/
def cmdTHm : Byte := 0xE3
/-- TRIG_RH_HM. -/
def cmdRhHm : Byte := 0xE5
/-- TRIG_T_NHM. -/
def cmdTNhm : Byte := 0xF3
/-- TRIG_RH_NHM. -/
def cmdRhNhm : Byte := 0xF5
/-- WRITE_USER_REG. -/
def cmdWriteUser : Byte := 0xE6
/-- READ_USER_REG. -/
def cmdReadUser : Byte := 0xE7
/-- SOFT_RESET. -/
def cmdSoftReset : Byte := 0xFE
/-- First and second byte of SN_ADDR1. -/
def snAddr1Bytes : Byte × Byte := (0xFA, 0x0F)
/-- First and second byte of SN_ADDR2. -/
def snAddr2Bytes : Byte × Byte := (0xFC, 0xC9)

/-- The `HOSTOP` table (R81), the reserved codes refused by name (R91). -/
def decodeHostOp (op : BitVec 4) (p : Ports) : Except DecodeError Instr :=
  match op.toNat with
  | 0x0 => .ok .beginOp
  | 0x1 => .ok .resetOp
  | 0x2 => .ok .getTemperature
  | 0x3 => .ok .getHumidity
  | 0x4 => .ok (.getSerialNumber p.loc)
  | 0x8 => .ok (.readHm p.cmd)
  | 0x9 => .ok (.calcRh p.raw)
  | 0xA => .ok (.calcT p.raw)
  | 0xB => .ok (.crcCheck p.data p.len p.exp)
  | _ => .error (.reservedHostOp op)

/-- The `CMD8` table: the whole byte is compared (R82, mask 0xFF). -/
def decodeCmd8 (c : Byte) : Except DecodeError Instr :=
  if c = cmdTHm then .ok .trigTHm
  else if c = cmdRhHm then .ok .trigRhHm
  else if c = cmdTNhm then .ok .trigTNhm
  else if c = cmdRhNhm then .ok .trigRhNhm
  else if c = cmdWriteUser then .ok .writeUserReg
  else if c = cmdReadUser then .ok .readUserReg
  else if c = cmdSoftReset then .ok .softReset
  else .error (.unlistedCommand c)

/-- The `ADDR16` table (R83). -/
def decodeAddr16 (a1 a0 : Byte) : Except DecodeError Instr :=
  if (a1, a0) = snAddr1Bytes then .ok .snAddr1
  else if (a1, a0) = snAddr2Bytes then .ok .snAddr2
  else .error (.unlistedAddress a1 a0)

/-- The decoder: total on every word of every format. -/
def decode : CodeWord → Except DecodeError Instr
  | .hostop op p => decodeHostOp op p
  | .cmd8 c => decodeCmd8 c
  | .addr16 a1 a0 => decodeAddr16 a1 a0

/-- The encoder: the word that names an instruction, unused ports at zero (R81, R82, R83). -/
def encode : Instr → CodeWord
  | .beginOp => .hostop 0x0 Ports.zero
  | .resetOp => .hostop 0x1 Ports.zero
  | .getTemperature => .hostop 0x2 Ports.zero
  | .getHumidity => .hostop 0x3 Ports.zero
  | .getSerialNumber loc => .hostop 0x4 { Ports.zero with loc := loc }
  | .readHm cmd => .hostop 0x8 { Ports.zero with cmd := cmd }
  | .calcRh raw => .hostop 0x9 { Ports.zero with raw := raw }
  | .calcT raw => .hostop 0xA { Ports.zero with raw := raw }
  | .crcCheck data len expected => .hostop 0xB { Ports.zero with data := data, len := len, exp := expected }
  | .trigTHm => .cmd8 cmdTHm
  | .trigRhHm => .cmd8 cmdRhHm
  | .trigTNhm => .cmd8 cmdTNhm
  | .trigRhNhm => .cmd8 cmdRhNhm
  | .writeUserReg => .cmd8 cmdWriteUser
  | .readUserReg => .cmd8 cmdReadUser
  | .softReset => .cmd8 cmdSoftReset
  | .snAddr1 => .addr16 snAddr1Bytes.1 snAddr1Bytes.2
  | .snAddr2 => .addr16 snAddr2Bytes.1 snAddr2Bytes.2

/-- One row of the opcode table. -/
structure TableRow where
  mnemonic : String
  width : Nat
  pattern : Nat
  mask : Nat
  deriving DecidableEq, Repr

/-- The nine `HOSTOP` rows (R81). -/
def hostOpRows : List TableRow :=
  [⟨"BEGIN", 4, 0x0, 0xF⟩, ⟨"RESET", 4, 0x1, 0xF⟩, ⟨"GET_TEMPERATURE", 4, 0x2, 0xF⟩, ⟨"GET_HUMIDITY", 4, 0x3, 0xF⟩,
   ⟨"GET_SERIAL_NUMBER", 4, 0x4, 0xF⟩, ⟨"READ_HM", 4, 0x8, 0xF⟩, ⟨"CALC_RH", 4, 0x9, 0xF⟩, ⟨"CALC_T", 4, 0xA, 0xF⟩,
   ⟨"CRC_CHECK", 4, 0xB, 0xF⟩]

/-- The seven `CMD8` rows (R82). -/
def cmd8Rows : List TableRow :=
  [⟨"TRIG_T_HM", 8, 0xE3, 0xFF⟩, ⟨"TRIG_RH_HM", 8, 0xE5, 0xFF⟩, ⟨"TRIG_T_NHM", 8, 0xF3, 0xFF⟩,
   ⟨"TRIG_RH_NHM", 8, 0xF5, 0xFF⟩, ⟨"WRITE_USER_REG", 8, 0xE6, 0xFF⟩, ⟨"READ_USER_REG", 8, 0xE7, 0xFF⟩,
   ⟨"SOFT_RESET", 8, 0xFE, 0xFF⟩]

/-- The two `ADDR16` rows (R83). -/
def addr16Rows : List TableRow :=
  [⟨"SN_ADDR1", 16, 0xFA0F, 0xFFFF⟩, ⟨"SN_ADDR2", 16, 0xFCC9, 0xFFFF⟩]

/-- Two rows of one format that some word matches both of. -/
def TableRow.overlaps (r q : TableRow) : Bool :=
  (r.pattern &&& (r.mask &&& q.mask)) == (q.pattern &&& (r.mask &&& q.mask))

/-- The table's mnemonic of an instruction (spec/30_encoding.md R81 to R83). -/
def Instr.mnemonic : Instr → String
  | .beginOp => "BEGIN"
  | .resetOp => "RESET"
  | .getTemperature => "GET_TEMPERATURE"
  | .getHumidity => "GET_HUMIDITY"
  | .getSerialNumber _ => "GET_SERIAL_NUMBER"
  | .readHm _ => "READ_HM"
  | .calcRh _ => "CALC_RH"
  | .calcT _ => "CALC_T"
  | .crcCheck _ _ _ => "CRC_CHECK"
  | .trigTHm => "TRIG_T_HM"
  | .trigRhHm => "TRIG_RH_HM"
  | .trigTNhm => "TRIG_T_NHM"
  | .trigRhNhm => "TRIG_RH_NHM"
  | .writeUserReg => "WRITE_USER_REG"
  | .readUserReg => "READ_USER_REG"
  | .softReset => "SOFT_RESET"
  | .snAddr1 => "SN_ADDR1"
  | .snAddr2 => "SN_ADDR2"

/-- The code word that a row's bits stand for, under the table's numbering. DESIGN CHOICE (log 12): a value below 16 is a
`HOSTOP` code with zero ports, any other value of one byte a `CMD8` byte, a 16-bit value an `ADDR16` pair, first byte high. -/
def tableWord (nbits w : Nat) : Option CodeWord :=
  if nbits ≤ 8 then
    if w < 16 then some (.hostop (BitVec.ofNat 4 w) Ports.zero)
    else if w < 256 then some (.cmd8 (BitVec.ofNat 8 w))
    else none
  else if nbits = 16 then
    if w < 65536 then some (.addr16 (BitVec.ofNat 8 (w / 256)) (BitVec.ofNat 8 w)) else none
  else none

/-- The instruction the decoder reads from a table row's bits. -/
def decodeTableWord (nbits w : Nat) : Option Instr :=
  match tableWord nbits w with
  | none => none
  | some cw =>
    match decode cw with
    | .ok i => some i
    | .error _ => none

end Sys2Proof
end

