-- ==== Sys2Proof/Machine/Constants.lean ====
section
/-! DEFINITION. The hardwired constants of the block (spec/00_scope.md R5, spec/10_state.md R38) and the defaults of its open
parameters. The command bytes and address pairs are in Sys2Proof/Decode.lean, beside the tables that decode them. -/

namespace Sys2Proof.Machine

/-- ADDR, "Immutable, compiled-in": the one device address of the block (R51). -/
def busAddr : BusAddr := 0x40

/-- POLY, x^8 + x^5 + x^4 + 1, nine bits (R5). -/
def poly : BitVec 9 := 0x131

/-- POLY8, the low eight bits of POLY (R5, R163). -/
def poly8 : Byte := 0x31

/-- T_RESET_MS: the settle time after a soft reset (R111). -/
def tResetMs : Nat := 15

/-- T_RH_MS: the humidity conversion delay, as the 8-bit value DLY takes (R24). -/
def tRhMs : Byte := 30

/-- T_T_MS: the temperature conversion delay, as the 8-bit value DLY takes (R24). -/
def tTMs : Byte := 85

/-- T_POLL_MS: the wait of one retry (R127). -/
def tPollMs : Nat := 10

/-- POLL_MAX: the number of retries of the poll loop (R127). -/
def pollMax : Nat := 10

/-- FRAME_LEN: two data bytes and one checksum (R68). -/
def frameLen : Nat := 3

/-- SN_LEN1 and SN_LEN2: the lengths of the two serial-number responses (R69). -/
def snLen1 : Nat := 8
def snLen2 : Nat := 6

/-- SENTINEL_TIMEOUT (R201). -/
def sentinelTimeout : RawCode := 0

/-- SENTINEL_CRC (R202). -/
def sentinelCrc : RawCode := 1

/-- STATUS_MASK, `not_16(0x0003)` (R152). -/
def statusMask : RawCode := 0xFFFC

/-- The default of SN_MAP (spec/42_serial_number.md R143, decision D4). PRESUMED (log 5): the spec marks it as general
knowledge, not in its source. -/
def defaultSnMap : SnMap :=
  { store1 := #v[some 5, none, some 4, none, some 3, none, some 2, none]
    store2 := #v[some 1, some 0, none, some 7, some 6, none] }

/-- The parameters of the machine at reset: CRC_INIT 0x00 (R165, decision D1; log 4), the default SN_MAP (log 5), either
model (R2). -/
def defaultParams : Params := { crcInit := 0x00, snMap := defaultSnMap, model := .sht21 }

end Sys2Proof.Machine
end

