-- ==== Sys2Proof/Machine/State.lean ====
section
/-! DEFINITION. The state of the block: the 22 registers of spec/10_state.md, the open parameters, the HOST channel's inputs,
the oracle's answers still to come, and the event trace. -/

namespace Sys2Proof.Machine

/-- The sequencer phases (R21). PHASE is the block's program counter; `Phase.code` gives the spec's 5-bit codes. -/
inductive Phase where
  | idle
  | beginSession
  | rstSend
  | rstWait
  | rdSelect
  | rdSend
  | rdWait
  | rdRequest
  | rdPoll
  | rdRead
  | rdCheck
  | rdRecover
  | convert
  | snAddr1
  | snReq1
  | snRead1
  | snAddr2
  | snReq2
  | snRead2
  | snSelect
  | crcXor
  | crcShift
  | crcCompare
  | faulted
  deriving DecidableEq, Repr

/-- The nine host-callable operations (R81): what OPSEL latches (R45). `HostOp.code` gives the 4-bit select codes. -/
inductive HostOp where
  | beginOp
  | resetOp
  | getTemperature
  | getHumidity
  | getSerialNumber
  | readHm
  | calcRh
  | calcT
  | crcCheck
  deriving DecidableEq, Repr

/-- The names of the working registers, for the fault that reports a read of an unwritten one (R206). -/
inductive RegName where
  | opsel | cmd | dly | n | d0 | d1 | ck | raw | ret16 | acc | bytei | bitn
  | data (i : Nat)
  | len | exp | mismatch | loc
  | sn (i : Nat)
  | tnum | rhnum | rawPort
  deriving DecidableEq, Repr

/-- The value a `Ret` event carries (R8, R81): what the operation returns to the host. -/
inductive RetVal where
  /-- BEGIN and RESET return nothing. -/
  | unit
  /-- TNUM, of GET_TEMPERATURE and CALC_T. -/
  | tnum (v : Num32)
  /-- RHNUM, of GET_HUMIDITY and CALC_RH. -/
  | rhnum (v : Num32)
  /-- `SN[LOC]`, of GET_SERIAL_NUMBER. -/
  | serial (b : Byte)
  /-- RET16, of READ_HM. -/
  | raw (v : RawCode)
  /-- MISMATCH, of CRC_CHECK. -/
  | mismatch (m : Bool)
  deriving DecidableEq, Repr

/-- The event alphabet (R8). Every primitive call is one atomic event (R56 to R62, R216). -/
inductive Event where
  | call (i : Instr)
  | ret (v : RetVal)
  | beginSession
  | beginTx (a : BusAddr)
  | write (b : Byte)
  | endTx
  | request (a : BusAddr) (n : Nat)
  | avail (k : Nat)
  | read (b : Byte)
  | wait (ms : Nat)
  deriving DecidableEq, Repr

/-- Why a run of the block has ended in the phase FAULTED (spec/60_exceptions.md R203). A fault is TAKEN as a next state, with
the phase and the cause written; `step` answers one of these when the machine stands in FAULTED. -/
inductive Fault where
  /-- U_CMD: READ_HM's command is in neither delay set and its delay is read unwritten (R204). Raised at RD_WAIT, after the
  command byte was sent. Safe: the spec's fault, no delay is invented. -/
  | uCmd (cmd : Byte)
  /-- U_LOC: GET_SERIAL_NUMBER with a location above 7 (R205). Raised at SN_SELECT, after both reads. Safe. -/
  | uLoc (loc : Byte)
  /-- U_UNWRITTEN: a rule reads a register that nothing has written since reset or since the start of the operation (R7, R206).
  Raised by `readReg` in any phase. Safe: the spec's fault, "unwritten registers" have "no value rather than zero". -/
  | uUnwritten (r : RegName)
  /-- MODEL'S OWN: a nested unit ends and R46's continuation table has no row for OPSEL. No run from reset meets it. Raised at
  CRC_COMPARE, RD_POLL, RD_RECOVER and CONVERT. Safe: the model stops. -/
  | noContinuation (p : Phase)
  /-- MODEL'S OWN: PHASE is FAULTED and no cause was recorded. No run from reset meets it. Raised by `step`. Safe. -/
  | unrecorded
  deriving DecidableEq, Repr

/-- Why the block has no step for a request (spec/60_exceptions.md R203). -/
inductive Refusal where
  /-- An instruction that has no meaning yet; raised by an arm of `exec` only. Safe. -/
  | notModelled (mnemonic : String)
  /-- U_BUSY: a `Call` while PHASE is not IDLE (R207). Raised by the nine host operations in a busy block, and by `step` for a
  `Call` issued before the `Ret` of the operation before it (R236 b). Safe. -/
  | uBusy
  /-- U_NOTBEGUN: a bus-using operation while BEGUN is 0 (R208). Raised by RESET, READ_HM and the three GET operations. Safe. -/
  | uNotBegun
  /-- A `Call` with a reserved select code (R91). Raised by `step`. Safe. -/
  | reservedOp (op : BitVec 4)
  /-- A device command or address sequence asked for where the sequencer does not emit it: no operation of the block puts it
  on the bus there (R46, R93, R189). Raised by the nine device rows. Safe. -/
  | notEmitted
  deriving DecidableEq, Repr

/-- One `Call` standing at the HOST channel: a select code and the operand ports (R81). `early` says that the caller issued it
before the `Ret` of the operation before it, so while PHASE was not IDLE: a breach of the host's duty R236 (b), which R207
refuses. `waiting` says what the oracle holds at the `Call`: the bytes in the transport's receive buffer, next first (R40 a, R238).
No rule of the block reads it; O_CLEAN and the claims that need the buffer do (R242; log 23). -/
structure HostCall where
  op : BitVec 4
  ports : Ports
  early : Bool
  waiting : List Byte
  deriving DecidableEq, Repr

/-- What the outside world does to the block at the HOST side: call an operation (R46), or apply power-on reset (R230). -/
inductive HostInput where
  | call (c : HostCall)
  | powerOn
  deriving DecidableEq, Repr

/-- The state of the machine. A register that the spec calls unwritten holds `none`: that is the spec's own reset value (R42),
and a read of it faults (R206). -/
structure State where
  /-- PHASE, the program counter (R21). -/
  phase : Phase
  /-- BEGUN (R22). -/
  begun : Bool
  /-- OPSEL (R45). -/
  opsel : Option HostOp
  /-- CMD (R23). -/
  cmd : Option Byte
  /-- DLY (R24). -/
  dly : Option Byte
  /-- N (R25). -/
  n : Option (BitVec 4)
  /-- D0 (R26). -/
  d0 : Option Byte
  /-- D1 (R26). -/
  d1 : Option Byte
  /-- CK (R26). -/
  ck : Option Byte
  /-- RAW (R27). -/
  raw : Option RawCode
  /-- RET16 (R28). -/
  ret16 : Option RawCode
  /-- ACC (R29). -/
  acc : Option Byte
  /-- BYTEI (R30). -/
  bytei : Option Byte
  /-- BITN (R30). -/
  bitn : Option (BitVec 4)
  /-- DATA (R31); an element past the list's end is unwritten. -/
  data : List Byte
  /-- LEN (R31). -/
  len : Option Byte
  /-- EXP (R31). -/
  exp : Option Byte
  /-- MISMATCH (R32). -/
  mismatch : Option Bool
  /-- LOC (R35). -/
  loc : Option Byte
  /-- SN[0..7] (R36). -/
  sn : Vector (Option Byte) 8
  /-- TNUM (R37). -/
  tnum : Option Num32
  /-- RHNUM (R37). -/
  rhnum : Option Num32
  /-- MODEL'S OWN (log 7): the `raw` operand port of a directly called CALC_RH or CALC_T, held from the `Call` to CONVERT. -/
  rawPort : Option RawCode
  /-- What a raised fault recorded (R203, column "recorded"). -/
  cause : Option Fault
  /-- The event trace since power-on reset, oldest first (R8). -/
  trace : List Event
  /-- The HOST channel: the inputs still to come, next first (R46, R96, R236). -/
  host : List HostInput
  /-- The oracle (R65): the answers of `Avail` still to come, next first. -/
  availIn : List Nat
  /-- The oracle (R65): the answers of `Read` still to come, next first. -/
  readIn : List Byte
  /-- MODEL'S OWN (log 2): how many free `Avail` answers have been drawn after the listed ones. -/
  availDrawn : Nat
  /-- MODEL'S OWN (log 2): how many free `Read` answers have been drawn after the listed ones. -/
  readDrawn : Nat
  /-- MODEL'S OWN (log 13): how many free bytes of CRC_CHECK's DATA port have been drawn beyond the listed ones. -/
  dataDrawn : Nat
  /-- The open parameters, constant data (R5; log 3). -/
  params : Params
  deriving DecidableEq, Repr

/-- Power-on reset (R42, R230): PHASE is IDLE, BEGUN is 0, every other register unwritten. No event has been emitted, and
nothing is listed at the HOST channel or in the oracle (log 6). -/
def State.reset : State :=
  { phase := .idle, begun := false, opsel := none, cmd := none, dly := none, n := none
    d0 := none, d1 := none, ck := none, raw := none, ret16 := none
    acc := none, bytei := none, bitn := none, data := [], len := none, exp := none, mismatch := none
    loc := none, sn := Vector.replicate 8 none, tnum := none, rhnum := none
    rawPort := none, cause := none, trace := [], host := []
    availIn := [], readIn := [], availDrawn := 0, readDrawn := 0, dataDrawn := 0, params := defaultParams }

end Sys2Proof.Machine
end

