-- ==== Sys2Proof/Machine/Crc8.lean ====
section
/-! DEFINITION. The CRC-8 arithmetic at its three grains, and the table form (spec/44_crc8.md R160 to R170). -/

namespace Sys2Proof.Machine

/-- `CRC_BIT(a)`: one step of the polynomial division, the nine-bit constant XORed in and the result truncated (R162). -/
def crcBit (a : Byte) : Byte :=
  if a.getLsbD 7 then ((a.setWidth 9 <<< 1) ^^^ poly).setWidth 8 else (a.setWidth 9 <<< 1).setWidth 8

/-- The eight-bit form of the step, with the polynomial's leading term left out (R163). -/
def crcBit8 (a : Byte) : Byte := if a.getLsbD 7 then (a <<< 1) ^^^ poly8 else a <<< 1

/-- `n` steps of the division. -/
def crcBits : Nat → Byte → Byte
  | 0, a => a
  | n + 1, a => crcBits n (crcBit a)

/-- `CRC_BYTE(acc, b)`: the whole byte XORed in, then eight steps (R161). -/
def crcByte (acc b : Byte) : Byte := crcBits 8 (acc ^^^ b)

/-- The CRC of a byte sequence in index order from a starting value (R160, R168). -/
def crc8 (init : Byte) (data : List Byte) : Byte := data.foldl crcByte init

end Sys2Proof.Machine
end

