-- ==== Sys2Proof/Machine/Flags.lean ====
section
/-! DEFINITION. The one condition flag and the two status bits (spec/10_state.md R32 to R34; spec/44_crc8.md R166). -/

namespace Sys2Proof.Machine

/-- MISMATCH: 1 exactly when the final accumulator differs from the expected checksum, all eight bits (R32, R166). -/
def mismatchFlag (acc exp : Byte) : Bool := acc != exp

/-- `RAW[1:0]`, the status flags of a raw value. Nothing in the block reads them (R33). -/
def statusBits (raw : RawCode) : BitVec 2 := raw.extractLsb' 0 2

end Sys2Proof.Machine
end

