-- ==== Sys2Proof/Machine/Operands.lean ====
section
/-! DEFINITION. Codes, operand assembly and the exact arithmetic of the conversions (spec/10_state.md R21; spec/30_encoding.md
R81 to R89; spec/41_measurement.md R123; spec/43_conversion.md R150 to R156). -/

namespace Sys2Proof.Machine

/-! ## Codes -/

/-- The 5-bit code of a phase (R21). -/
def Phase.code : Phase → BitVec 5
  | .idle => 0
  | .beginSession => 1
  | .rstSend => 2
  | .rstWait => 3
  | .rdSelect => 4
  | .rdSend => 5
  | .rdWait => 6
  | .rdRequest => 7
  | .rdPoll => 8
  | .rdRead => 9
  | .rdCheck => 10
  | .rdRecover => 11
  | .convert => 12
  | .snAddr1 => 13
  | .snReq1 => 14
  | .snRead1 => 15
  | .snAddr2 => 16
  | .snReq2 => 17
  | .snRead2 => 18
  | .snSelect => 19
  | .crcXor => 20
  | .crcShift => 21
  | .crcCompare => 22
  | .faulted => 23

/-- The 4-bit select code of an operation (R81), the content of OPSEL (R45). -/
def HostOp.code : HostOp → BitVec 4
  | .beginOp => 0x0
  | .resetOp => 0x1
  | .getTemperature => 0x2
  | .getHumidity => 0x3
  | .getSerialNumber => 0x4
  | .readHm => 0x8
  | .calcRh => 0x9
  | .calcT => 0xA
  | .crcCheck => 0xB

/-- The operations that use the bus after BEGIN, and so are tested for U_NOTBEGUN (R208). -/
def HostOp.usesBus : HostOp → Bool
  | .resetOp => true
  | .getTemperature => true
  | .getHumidity => true
  | .getSerialNumber => true
  | .readHm => true
  | .beginOp => false
  | .calcRh => false
  | .calcT => false
  | .crcCheck => false

/-- The operation's visibility in the source (R81, column "visibility"): host, or internal. No rule depends on it (R215). -/
def HostOp.internal : HostOp → Bool
  | .readHm => true
  | .calcRh => true
  | .calcT => true
  | .crcCheck => true
  | .beginOp => false
  | .resetOp => false
  | .getTemperature => false
  | .getHumidity => false
  | .getSerialNumber => false

/-! ## READ_HM step 1: delay selection (R123) -/

/-- RH_SET = {0xE5, 0xF5} (decision D3). -/
def inRhSet (c : Byte) : Bool := c == cmdRhHm || c == cmdRhNhm

/-- T_SET = {0xE3, 0xF3} (decision D3). -/
def inTSet (c : Byte) : Bool := c == cmdTHm || c == cmdTNhm

/-- The content of DLY after step 1. DLY is unwritten at the start of an operation (R7, R24, R43); the two tests are
independent and both are made, and when neither writes, DLY stays unwritten (R123). -/
def selectDelay (c : Byte) : Option Byte :=
  let afterFirst : Option Byte := if inRhSet c then some tRhMs else none
  if inTSet c then some tTMs else afterFirst

/-! ## READ_HM step 6: raw assembly (R66, R87, R128) -/

/-- `{D0, D1}` = `D0 * 256 + D1`: the first byte received is the high one. -/
def assembleRaw (d0 d1 : Byte) : RawCode := d0 ++ d1

/-! ## Conversions (R150 to R156) -/

/-- The conversion operand: the two status bits forced to 0 (R88, R152). -/
def maskRaw (raw : RawCode) : RawCode := raw &&& statusMask

/-- `125 * r - 393216` over the integers (R150). -/
def rhNumerator (raw : RawCode) : Int := 125 * ((maskRaw raw).toNat : Int) - 393216

/-- `17572 * r - 307036160` over the integers (R151). -/
def tNumerator (raw : RawCode) : Int := 17572 * ((maskRaw raw).toNat : Int) - 307036160

/-- RHNUM: the exact numerator narrowed to 32 signed bits, which it fits (R154). -/
def rhNum (raw : RawCode) : Num32 := BitVec.ofInt 32 (rhNumerator raw)

/-- TNUM: the exact numerator narrowed to 32 signed bits, which it fits (R154). -/
def tNum (raw : RawCode) : Num32 := BitVec.ofInt 32 (tNumerator raw)

/-- The exact humidity in %RH that an RHNUM stands for: `RHNUM / 65536` (R37, R153). -/
def humidityOf (v : Num32) : Rat := (v.toInt : Rat) / 65536

/-- The exact temperature in °C that a TNUM stands for: `TNUM / 6553600` (R37, R153). -/
def temperatureOf (v : Num32) : Rat := (v.toInt : Rat) / 6553600

/-- The host's floating-point view of a conversion result (R155): `FloatOut` applied once to the exact rational. `FloatOut` is
an open parameter, so it is an argument here, and so is the host's number type; no other result has such a view. -/
def floatView {α : Type} (floatOut : Rat → α) : RetVal → Option α
  | .tnum v => some (floatOut (temperatureOf v))
  | .rhnum v => some (floatOut (humidityOf v))
  | .unit => none
  | .serial _ => none
  | .raw _ => none
  | .mismatch _ => none

/-! ## The serial-number buffer (R36, R54, R143) -/

/-- Store one received byte where the map says; `none` discards it. -/
def storeSn (dest : Option (Fin 8)) (b : Byte) (s : State) : State :=
  match dest with
  | none => s
  | some i => { s with sn := s.sn.set i.val (some b) }

end Sys2Proof.Machine
end

