-- ==== Sys2Proof/Machine/Ops.lean ====
section
/-! DEFINITION. The named operations: the event log, the oracle, the seven transport primitives and the delay timer
(spec/20_memory.md R56 to R65; spec/60_exceptions.md R216), register reads, taking a fault, the recovery action, and the end
of an operation (spec/10_state.md R46). -/

namespace Sys2Proof.Machine

/-! ## The event log (R8) -/

/-- Append one event. -/
def State.emit (e : Event) (s : State) : State := { s with trace := s.trace ++ [e] }

/-- Append several events, in order. -/
def State.emits (es : List Event) (s : State) : State := { s with trace := s.trace ++ es }

/-- `pc <- p` (R7). -/
def State.goto (p : Phase) (s : State) : State := { s with phase := p }

/-! ## The oracle (R65) -/

/-- The answer of the j-th `Avail` from now: a listed answer, or a free value once the list is used up. -/
def State.availAnswer (s : State) (j : Nat) : Nat :=
  (s.availIn[j]?).getD (Config.freeAvail (s.availDrawn + (j - s.availIn.length)))

/-- The answer of the j-th `Read` from now. -/
def State.readAnswer (s : State) (j : Nat) : Byte :=
  (s.readIn[j]?).getD (Config.freeRead (s.readDrawn + (j - s.readIn.length)))

/-- The oracle after k more `Avail` calls. -/
def State.afterAvails (k : Nat) (s : State) : State :=
  { s with availIn := s.availIn.drop k, availDrawn := s.availDrawn + (k - s.availIn.length) }

/-- The oracle after k more `Read` calls. -/
def State.afterReads (k : Nat) (s : State) : State :=
  { s with readIn := s.readIn.drop k, readDrawn := s.readDrawn + (k - s.readIn.length) }

/-! ## The DATA port of a called CRC_CHECK (R31, R89) -/

/-- The operand `DATA[0..LEN-1]`: the first `len` bytes the caller listed, then free values, of which `drawn` were drawn before, for
those it did not. -/
def dataPort (data : List Byte) (len drawn : Nat) : List Byte :=
  data.take len ++ (List.range (len - data.length)).map fun i => Config.freeData (drawn + i)

/-! ## The transport primitives and the timer. Whatever else a primitive returns is ignored (decision D9). -/

/-- `BeginSession()` (R56). -/
def doBeginSession (s : State) : State := s.emit .beginSession

/-- The events of a transmission: `BeginTx(0x40)`, one `Write` a byte, `EndTx` (R63). -/
def txEvents (bytes : List Byte) : List Event :=
  .beginTx busAddr :: (bytes.map .write ++ [.endTx])

/-- The transmission template `TX(b1, ..., bm)` (R57, R58, R59, R63). -/
def doTx (bytes : List Byte) (s : State) : State := s.emits (txEvents bytes)

/-- `Request(0x40, n)` (R60). -/
def doRequest (n : Nat) (s : State) : State := s.emit (.request busAddr n)

/-- The state after one `Avail` (R61); its answer is `s.availAnswer 0`. -/
def doAvail (s : State) : State := (s.afterAvails 1).emit (.avail (s.availAnswer 0))

/-- The state after one `Read` (R62); its answer is `s.readAnswer 0`. -/
def doRead (s : State) : State := (s.afterReads 1).emit (.read (s.readAnswer 0))

/-- `Wait(ms)`: an event with a lower bound; the model keeps no time (R216). -/
def doWait (ms : Nat) (s : State) : State := s.emit (.wait ms)

/-! ## Faults (R7, R204 to R206, R221) -/

/-- Taking a fault: `raise <Condition>(info)`, `PHASE <- FAULTED`. Nothing else changes, so every event before the faulting
step stays in the trace and none is added (R221). -/
def State.raise (f : Fault) (s : State) : State := { s with phase := .faulted, cause := some f }

/-- A read of a working register, the one place where the block meets an unwritten one. The spec stops the machine there: "A rule
that reads a register nothing has written since reset faults: `raise U_UNWRITTEN(name)`, `PHASE <- FAULTED`" (R206; R7, R42,
decision D11, "Never zero"). -/
def readReg {α : Type} (r : Option α) (name : RegName) (s : State) (k : α → State) : State :=
  match r with
  | none => s.raise (.uUnwritten name)
  | some v => k v

/-! ## The end of an operation and the continuation of a nested unit (R46) -/

/-- `pc <- IDLE; return v` of an operation the host called: `Ret(v)` is emitted and PHASE goes to IDLE. -/
def endOp (v : RetVal) (s : State) : State := (s.emit (.ret v)).goto .idle

/-- READ_HM ends with the value v, at any of its three exits: the host gets `Ret(RET16)`, or the caller goes on at CONVERT with
no event (R46, first two rows of the table). -/
def finishReadHm (v : RawCode) (s : State) : State :=
  let t := { s with ret16 := some v }
  readReg s.opsel .opsel t fun op =>
    match op with
    | .readHm => endOp (.raw v) t
    | .getTemperature => t.goto .convert
    | .getHumidity => t.goto .convert
    | _ => t.raise (.noContinuation s.phase)

/-! ## The recovery action, the nearest thing to trap entry (R202, R211, R212) -/

/-- Entry: `PHASE <- RD_RECOVER`; no state is saved, there is no vector and no mode change (R211). -/
def enterRecovery (s : State) : State := s.goto .rdRecover

/-- The action and the return from it: the RESET sequence, then READ_HM returns the sentinel 1 (R129, R212). PHASE is
RD_RECOVER throughout (R111). -/
def recover (s : State) : State :=
  finishReadHm sentinelCrc (doWait tResetMs (doTx [cmdSoftReset] s))

/-! ## Power-on reset of a running block (R230, R231) -/

/-- Every register takes its reset value and the trace starts anew; no event is emitted (R230). What lies outside the block,
the oracle and the inputs to come, stays, and so do the parameters (R231, R41). -/
def powerOnReset (s : State) : State :=
  { State.reset with
    host := s.host, availIn := s.availIn, readIn := s.readIn
    availDrawn := s.availDrawn, readDrawn := s.readDrawn, dataDrawn := s.dataDrawn, params := s.params }

end Sys2Proof.Machine
end

