-- ==== Sys2Proof/Machine/Phases.lean ====
section
/-! DEFINITION. What the sequencer does in each phase (spec/10_state.md R21, R46). Every function here is one visit of one
phase: its events, its register writes, and the phase that comes next. -/

namespace Sys2Proof.Machine

/-! ## BEGIN and RESET (spec/40_bus_control.md) -/

/-- BEGIN_SESSION (R110). -/
def phaseBeginSession (s : State) : State :=
  endOp .unit { doBeginSession s with begun := true }

/-- RST_SEND: `TX(0xFE)` (R111). -/
def phaseRstSend (s : State) : State := (doTx [cmdSoftReset] s).goto .rstWait

/-- RST_WAIT: `Wait(15)`, then the operation ends (R111). -/
def phaseRstWait (s : State) : State := endOp .unit (doWait tResetMs s)

/-! ## READ_HM (spec/41_measurement.md R122 to R129) -/

/-- RD_SELECT, step 1 (R123). No bus event. -/
def phaseRdSelect (s : State) : State :=
  readReg s.cmd .cmd s fun c => { s with dly := selectDelay c, phase := .rdSend }

/-- RD_SEND, step 2 (R124): the command byte is sent unchanged, whatever its value. -/
def phaseRdSend (s : State) : State :=
  readReg s.cmd .cmd s fun c => (doTx [c] s).goto .rdWait

/-- RD_WAIT, step 3 (R125). DLY unwritten is the case U_CMD, which records CMD (R203, R204). -/
def phaseRdWait (s : State) : State :=
  match s.dly with
  | some d => (doWait d.toNat s).goto .rdRequest
  | none => readReg s.cmd .cmd s fun c => s.raise (.uCmd c)

/-- RD_REQUEST, step 4 (R126): requested once, and not again by the poll loop. -/
def phaseRdRequest (s : State) : State := (doRequest frameLen s).goto .rdPoll

/-- The poll loop with `left` retries left, so that N = POLL_MAX - left (R127, decision D6): check; leave when at least 3 bytes
are there; give up with 0 when N = 10; else wait, count and check again. -/
def pollLoop : Nat → State → State
  | left, s =>
    if frameLen ≤ s.availAnswer 0 then (doAvail s).goto .rdRead
    else
      match left with
      | 0 => finishReadHm sentinelTimeout (doAvail s)
      | l + 1 => pollLoop l { doWait tPollMs (doAvail s) with n := some (BitVec.ofNat 4 (pollMax - l)) }

/-- RD_POLL, step 5: `N <- 0`, then the loop (R25, R127). -/
def phaseRdPoll (s : State) : State := pollLoop pollMax { s with n := some 0 }

/-- RD_READ, step 6 (R128): exactly three `Read`, in receive order, and RAW from the first two. -/
def phaseRdRead (s : State) : State :=
  { doRead (doRead (doRead s)) with
    d0 := some (s.readAnswer 0)
    d1 := some ((doRead s).readAnswer 0)
    ck := some ((doRead (doRead s)).readAnswer 0)
    raw := some (assembleRaw (s.readAnswer 0) ((doRead s).readAnswer 0))
    phase := .rdCheck }

/-- The start of a CRC_CHECK: operands loaded, `ACC <- CRC_INIT`, byte index 0 (R160, R165). With LEN = 0 the first phase is
CRC_COMPARE (R46). -/
def startCrc (data : List Byte) (len exp : Byte) (s : State) : State :=
  { s with
    data := data, len := some len, exp := some exp
    acc := some s.params.crcInit, bytei := some 0
    phase := if len = 0 then .crcCompare else .crcXor }

/-- RD_CHECK, step 7 (R129): `DATA <- [D0, D1]`, `LEN <- 2`, `EXP <- CK`, and the nested CRC_CHECK starts. -/
def phaseRdCheck (s : State) : State :=
  readReg s.d0 .d0 s fun a =>
    readReg s.d1 .d1 s fun b =>
      readReg s.ck .ck s fun c => startCrc [a, b] 2 c s

/-- RD_RECOVER (R111, R129, R211, R212). -/
def phaseRdRecover (s : State) : State := recover s

/-! ## CRC_CHECK (spec/44_crc8.md R160 to R166) -/

/-- CRC_XOR: `ACC <- ACC xor DATA[BYTEI]`, and the bit counter starts at 0 (R161, R30). -/
def phaseCrcXor (s : State) : State :=
  readReg s.acc .acc s fun a =>
    readReg s.bytei .bytei s fun i =>
      readReg s.data[i.toNat]? (.data i.toNat) s fun b =>
        { s with acc := some (a ^^^ b), bitn := some 0, phase := .crcShift }

/-- The phase after a byte's eighth shift: the next byte, or the compare when all LEN bytes are done (R160). -/
def afterByte (i len : Byte) : Phase := if i = len then .crcCompare else .crcXor

/-- CRC_SHIFT: one bit step; after the eighth the byte is done (R162, R30). -/
def phaseCrcShift (s : State) : State :=
  readReg s.acc .acc s fun a =>
    readReg s.bitn .bitn s fun k =>
      readReg s.bytei .bytei s fun i =>
        readReg s.len .len s fun len =>
          if k + 1 = 8 then
            { s with acc := some (crcBit a), bitn := some (k + 1), bytei := some (i + 1), phase := afterByte (i + 1) len }
          else { s with acc := some (crcBit a), bitn := some (k + 1) }

/-- What follows CRC_COMPARE (R46): the host gets `Ret(MISMATCH)`; nested, a mismatch goes to the recovery action and a match
ends READ_HM with RAW. -/
def afterCompare (m : Bool) (s : State) : State :=
  readReg s.opsel .opsel s fun op =>
    match op with
    | .crcCheck => endOp (.mismatch m) s
    | .readHm => if m then enterRecovery s else readReg s.raw .raw s fun r => finishReadHm r s
    | .getTemperature => if m then enterRecovery s else readReg s.raw .raw s fun r => finishReadHm r s
    | .getHumidity => if m then enterRecovery s else readReg s.raw .raw s fun r => finishReadHm r s
    | _ => s.raise (.noContinuation s.phase)

/-- CRC_COMPARE: the flag is written, then the continuation (R166, R32, R46). -/
def phaseCrcCompare (s : State) : State :=
  readReg s.acc .acc s fun a =>
    readReg s.exp .exp s fun e =>
      afterCompare (mismatchFlag a e) { s with mismatch := some (mismatchFlag a e) }

/-! ## CALC_T and CALC_RH (spec/43_conversion.md) -/

/-- CALC_T of a raw value: TNUM is written and returned (R151, R120). -/
def finishT (raw : RawCode) (s : State) : State := endOp (.tnum (tNum raw)) { s with tnum := some (tNum raw) }

/-- CALC_RH of a raw value: RHNUM is written and returned (R150, R121). -/
def finishRh (raw : RawCode) (s : State) : State := endOp (.rhnum (rhNum raw)) { s with rhnum := some (rhNum raw) }

/-- CONVERT: nested, the operand is RET16; directly called, it is the `raw` port (R46, R28; log 7). -/
def phaseConvert (s : State) : State :=
  readReg s.opsel .opsel s fun op =>
    match op with
    | .getTemperature => readReg s.ret16 .ret16 s fun r => finishT r s
    | .getHumidity => readReg s.ret16 .ret16 s fun r => finishRh r s
    | .calcT => readReg s.rawPort .rawPort s fun r => finishT r s
    | .calcRh => readReg s.rawPort .rawPort s fun r => finishRh r s
    | _ => s.raise (.noContinuation s.phase)

/-! ## GET_SERIAL_NUMBER (spec/42_serial_number.md R140 to R144) -/

/-- The transmission of an address pair and the request for the response; the phase after it is where the block waits for the
bytes (R141, R142). `Request` belongs to SN_REQ1 or SN_REQ2 (R21) and is emitted on entering it, once. -/
def sendAddress (pair : Byte × Byte) (len : Nat) (next : Phase) (s : State) : State :=
  doRequest len ((doTx [pair.1, pair.2] s).goto next)

/-- SN_ADDR1 (R141). -/
def phaseSnAddr1 (s : State) : State := sendAddress snAddr1Bytes snLen1 .snReq1 s

/-- SN_ADDR2 (R141). -/
def phaseSnAddr2 (s : State) : State := sendAddress snAddr2Bytes snLen2 .snReq2 s

/-- One `Avail` of the unbounded wait: on to the reads when n bytes are there, else the phase stays (R142, decision D5). -/
def awaitBytes (n : Nat) (next : Phase) (s : State) : State :=
  if n ≤ s.availAnswer 0 then (doAvail s).goto next else doAvail s

/-- SN_REQ1: waiting for 8 bytes (R142). -/
def phaseSnReq1 (s : State) : State := awaitBytes snLen1 .snRead1 s

/-- SN_REQ2: waiting for 6 bytes (R142). -/
def phaseSnReq2 (s : State) : State := awaitBytes snLen2 .snRead2 s

/-- One `Read` a position, each byte stored or discarded as the map says (R143). -/
def readMapped : List (Option (Fin 8)) → State → State
  | [], s => s
  | dest :: rest, s => readMapped rest (storeSn dest (s.readAnswer 0) (doRead s))

/-- SN_READ1: eight `Read` (R143). -/
def phaseSnRead1 (s : State) : State := (readMapped s.params.snMap.store1.toList s).goto .snAddr2

/-- SN_READ2: six `Read` (R143). -/
def phaseSnRead2 (s : State) : State := (readMapped s.params.snMap.store2.toList s).goto .snSelect

/-- SN_SELECT: `SN[LOC]` for LOC in 0..7, the fault U_LOC above (R144, R205). -/
def phaseSnSelect (s : State) : State :=
  readReg s.loc .loc s fun l =>
    if h : l.toNat < 8 then readReg s.sn[l.toNat] (.sn l.toNat) s fun b => endOp (.serial b) s
    else s.raise (.uLoc l)

end Sys2Proof.Machine
end

