-- ==== Sys2Proof/Machine/Sequencer.lean ====
section
/-! DEFINITION. The sequencer: one visit of the present phase, a run to the next resting point, and the acceptance of a `Call`
(spec/10_state.md R21, R46; spec/60_exceptions.md R207, R208). -/

namespace Sys2Proof.Machine

/-- One visit of the phase the sequencer stands in. IDLE is left only on a `Call` and FAULTED never (R21, R213). -/
def tick (s : State) : State :=
  match s.phase with
  | .idle => s
  | .beginSession => phaseBeginSession s
  | .rstSend => phaseRstSend s
  | .rstWait => phaseRstWait s
  | .rdSelect => phaseRdSelect s
  | .rdSend => phaseRdSend s
  | .rdWait => phaseRdWait s
  | .rdRequest => phaseRdRequest s
  | .rdPoll => phaseRdPoll s
  | .rdRead => phaseRdRead s
  | .rdCheck => phaseRdCheck s
  | .rdRecover => phaseRdRecover s
  | .convert => phaseConvert s
  | .snAddr1 => phaseSnAddr1 s
  | .snReq1 => phaseSnReq1 s
  | .snRead1 => phaseSnRead1 s
  | .snAddr2 => phaseSnAddr2 s
  | .snReq2 => phaseSnReq2 s
  | .snRead2 => phaseSnRead2 s
  | .snSelect => phaseSnSelect s
  | .crcXor => phaseCrcXor s
  | .crcShift => phaseCrcShift s
  | .crcCompare => phaseCrcCompare s
  | .faulted => s

/-- `n` visits. -/
def ticks : Nat → State → State
  | 0, s => s
  | n + 1, s => ticks n (tick s)

/-- The phases in which no operation is being carried on: the block is idle, or a fault has ended its run (R21). -/
def Phase.settled : Phase → Bool
  | .idle => true
  | .faulted => true
  | _ => false

/-- The two phases of the unbounded wait for serial-number bytes (R142). -/
def Phase.waitsForBytes : Phase → Bool
  | .snReq1 => true
  | .snReq2 => true
  | _ => false

/-- Run the sequencer until it rests: the operation has ended or faulted, or an `Avail` of the unbounded wait was too low, so
that the block goes on waiting (R142; log 8). The count bounds the recursion only. -/
def runOp : Nat → State → State
  | 0, s => s
  | k + 1, s =>
    if s.phase.settled then s
    else if s.phase.waitsForBytes && (tick s).phase == s.phase then tick s
    else runOp k (tick s)

/-- Enough visits for the longest operation: a CRC_CHECK of 255 bytes takes 9 a byte and one more (R240). -/
def opFuel : Nat := 2400

/-- A `Call` (R46 a): refused while PHASE is not IDLE, tested first (R207, R210), and for a bus-using operation while BEGUN is 0
(R208). Accepted, it emits `Call`, latches OPSEL, loads the operand registers and the first phase (`load`), and the sequencer
runs the operation. -/
def invoke (op : HostOp) (i : Instr) (load : State → State) (s : State) : Host.Outcome State Fault Refusal :=
  if s.phase ≠ .idle then .refused .uBusy
  else if op.usesBus && !s.begun then .refused .uNotBegun
  else .next (runOp opFuel (load { s.emit (.call i) with opsel := some op }))

/-- A device command as READ_HM's operand, from RD_SELECT: steps 1 to 4, so its delay class, its transmission, its wait and the
request for its response (R123 to R126, R180 to R186). A command of neither delay set faults at step 3 with its byte already
sent (R204). In any other phase no operation emits the byte (R46, R189). -/
def commandSegment (c : Byte) (s : State) : Host.Outcome State Fault Refusal :=
  if s.phase = .rdSelect ∧ s.cmd = some c then .next (ticks 4 s) else .refused .notEmitted

/-- A serial-number address sequence at the phase that emits it: the transmission and the request (R187, R188). -/
def addressSegment (p : Phase) (s : State) : Host.Outcome State Fault Refusal :=
  if s.phase = p then .next (tick s) else .refused .notEmitted

end Sys2Proof.Machine
end

