-- ==== Sys2Proof/Machine/BusControl.lean ====
section
/-! DEFINITION. The bus control operations BEGIN and RESET (spec/40_bus_control.md R110, R111). -/

namespace Sys2Proof.Machine

/-- BEGIN (R110): open the transport; allowed again when BEGUN is already 1 (decision D18). -/
def execBegin (s : State) : Host.Outcome State Fault Refusal :=
  invoke .beginOp .beginOp (State.goto .beginSession) s

/-- RESET (R111): soft-reset the sensor; not a reset of the block (R232). -/
def execReset (s : State) : Host.Outcome State Fault Refusal :=
  invoke .resetOp .resetOp (State.goto .rstSend) s

end Sys2Proof.Machine
end

