-- ==== Sys2Proof/Machine/Conversion.lean ====
section
/-! DEFINITION. The conversion operations called directly (spec/43_conversion.md R150, R151). -/

namespace Sys2Proof.Machine

/-- The start of a directly called conversion: the operand port, first phase CONVERT (R46, R88; log 7). -/
def loadRaw (r : RawCode) (s : State) : State := { s with rawPort := some r, phase := .convert }

/-- CALC_RH (R150). -/
def execCalcRh (r : RawCode) (s : State) : Host.Outcome State Fault Refusal :=
  invoke .calcRh (.calcRh r) (loadRaw r) s

/-- CALC_T (R151). -/
def execCalcT (r : RawCode) (s : State) : Host.Outcome State Fault Refusal :=
  invoke .calcT (.calcT r) (loadRaw r) s

end Sys2Proof.Machine
end

