-- ==== Sys2Proof/Machine/Crc.lean ====
section
/-! DEFINITION. The CRC-8 checker called directly (spec/44_crc8.md R160). -/

namespace Sys2Proof.Machine

/-- The operands of a called CRC_CHECK, and its first phase. Every byte of `DATA[0..LEN-1]` is written before the loop reads it
(R43, R160), the unlisted ones with free values, which are drawn once. -/
def loadCrc (data : List Byte) (len exp : Byte) (s : State) : State :=
  startCrc (dataPort data len.toNat s.dataDrawn) len exp { s with dataDrawn := s.dataDrawn + (len.toNat - data.length) }

/-- CRC_CHECK (R160): accepted whatever BEGUN is; no bus event and no wait (R208). -/
def execCrcCheck (data : List Byte) (len exp : Byte) (s : State) : Host.Outcome State Fault Refusal :=
  invoke .crcCheck (.crcCheck data len exp) (loadCrc data len exp) s

end Sys2Proof.Machine
end

