-- ==== Sys2Proof/Machine/DeviceCommands.lean ====
section
/-! DEFINITION. The device commands and address sequences: what the block does with each at the phase that emits it
(spec/45_device_commands.md R180 to R188). What the sensor does with them is outside the block (R4). -/

namespace Sys2Proof.Machine

/-- TRIG_T_HM (R180): temperature class, `TX(0xE3)`, `Wait(85)`, `Request(0x40, 3)`. -/
def execTrigTHm (s : State) : Host.Outcome State Fault Refusal := commandSegment cmdTHm s

/-- TRIG_RH_HM (R181): humidity class, `TX(0xE5)`, `Wait(30)`, `Request(0x40, 3)`. -/
def execTrigRhHm (s : State) : Host.Outcome State Fault Refusal := commandSegment cmdRhHm s

/-- TRIG_T_NHM (R182): as TRIG_T_HM apart from the byte written. -/
def execTrigTNhm (s : State) : Host.Outcome State Fault Refusal := commandSegment cmdTNhm s

/-- TRIG_RH_NHM (R183): as TRIG_RH_HM apart from the byte written. -/
def execTrigRhNhm (s : State) : Host.Outcome State Fault Refusal := commandSegment cmdRhNhm s

/-- WRITE_USER_REG (R184): in neither delay set; the byte is sent and U_CMD is taken. -/
def execWriteUserReg (s : State) : Host.Outcome State Fault Refusal := commandSegment cmdWriteUser s

/-- READ_USER_REG (R185): in neither delay set; the byte is sent and U_CMD is taken. -/
def execReadUserReg (s : State) : Host.Outcome State Fault Refusal := commandSegment cmdReadUser s

/-- SOFT_RESET (R186): `TX(0xFE)` and `Wait(15)`, at RST_SEND as the operation RESET, at RD_RECOVER as the recovery action. As
READ_HM's operand it is in neither delay set and takes U_CMD. -/
def execSoftReset (s : State) : Host.Outcome State Fault Refusal :=
  if s.phase = .rstSend then .next (ticks 2 s)
  else if s.phase = .rdRecover then .next (tick s)
  else commandSegment cmdSoftReset s

/-- SN_ADDR1 (R187): `TX(0xFA, 0x0F)`, `Request(0x40, 8)`. -/
def execSnAddr1 (s : State) : Host.Outcome State Fault Refusal := addressSegment .snAddr1 s

/-- SN_ADDR2 (R188): `TX(0xFC, 0xC9)`, `Request(0x40, 6)`. -/
def execSnAddr2 (s : State) : Host.Outcome State Fault Refusal := addressSegment .snAddr2 s

end Sys2Proof.Machine
end

