-- ==== Sys2Proof/Machine/Measurement.lean ====
section
/-! DEFINITION. The measurement operations (spec/41_measurement.md R120 to R131). -/

namespace Sys2Proof.Machine

/-- The start of READ_HM: `CMD <- command`, first phase RD_SELECT (R46, R85). -/
def loadCommand (c : Byte) (s : State) : State := { s with cmd := some c, phase := .rdSelect }

/-- GET_TEMPERATURE (R120): `CalcT(readSensor_hm(0xE3))` (R97). -/
def execGetTemperature (s : State) : Host.Outcome State Fault Refusal :=
  invoke .getTemperature .getTemperature (loadCommand cmdTHm) s

/-- GET_HUMIDITY (R121): `CalcRH(readSensor_hm(0xE5))` (R97). -/
def execGetHumidity (s : State) : Host.Outcome State Fault Refusal :=
  invoke .getHumidity .getHumidity (loadCommand cmdRhHm) s

/-- READ_HM (R122). -/
def execReadHm (c : Byte) (s : State) : Host.Outcome State Fault Refusal :=
  invoke .readHm (.readHm c) (loadCommand c) s

end Sys2Proof.Machine
end

