-- ==== Sys2Proof/Machine/SerialNumber.lean ====
section
/-! DEFINITION. The serial number operation (spec/42_serial_number.md R140 to R144). -/

namespace Sys2Proof.Machine

/-- The start of GET_SERIAL_NUMBER: `LOC <- location`, unchecked (R86). The buffer does not persist (R36), so none of its
registers has been written since the start of the operation (R7). -/
def loadLocation (l : Byte) (s : State) : State :=
  { s with loc := some l, sn := Vector.replicate 8 none, phase := .snAddr1 }

/-- GET_SERIAL_NUMBER (R140). -/
def execGetSerialNumber (l : Byte) (s : State) : Host.Outcome State Fault Refusal :=
  invoke .getSerialNumber (.getSerialNumber l) (loadLocation l) s

end Sys2Proof.Machine
end

