-- ==== Sys2Proof/Machine/Dispatch.lean ====
section
/-! DEFINITION. One arm per instruction. -/

namespace Sys2Proof.Machine

def exec (i : Instr) (s : State) : Host.Outcome State Fault Refusal :=
  match i with
  | .beginOp => Sys2Proof.Machine.execBegin s
  | .resetOp => Sys2Proof.Machine.execReset s
  | .getTemperature => Sys2Proof.Machine.execGetTemperature s
  | .getHumidity => Sys2Proof.Machine.execGetHumidity s
  | .getSerialNumber loc => Sys2Proof.Machine.execGetSerialNumber loc s
  | .readHm cmd => Sys2Proof.Machine.execReadHm cmd s
  | .calcRh raw => Sys2Proof.Machine.execCalcRh raw s
  | .calcT raw => Sys2Proof.Machine.execCalcT raw s
  | .crcCheck data len expected => Sys2Proof.Machine.execCrcCheck data len expected s
  | .trigTHm => Sys2Proof.Machine.execTrigTHm s
  | .trigRhHm => Sys2Proof.Machine.execTrigRhHm s
  | .trigTNhm => Sys2Proof.Machine.execTrigTNhm s
  | .trigRhNhm => Sys2Proof.Machine.execTrigRhNhm s
  | .writeUserReg => Sys2Proof.Machine.execWriteUserReg s
  | .readUserReg => Sys2Proof.Machine.execReadUserReg s
  | .softReset => Sys2Proof.Machine.execSoftReset s
  | .snAddr1 => Sys2Proof.Machine.execSnAddr1 s
  | .snAddr2 => Sys2Proof.Machine.execSnAddr2 s

end Sys2Proof.Machine
end

