-- ==== Sys2Proof/Machine/Fetch.lean ====
section
/-! DEFINITION. Where the next instruction word comes from: the HOST channel when the block is idle, and inside an operation the
register or constant that the present phase puts on the bus (spec/10_state.md R46; spec/20_memory.md R78;
spec/45_device_commands.md R189). Nothing is fetched from memory: the block has none (R50). -/

namespace Sys2Proof.Machine

/-- The word a `Call` stands for. -/
def HostCall.word (c : HostCall) : CodeWord := .hostop c.op c.ports

/-- The HOST channel once its next input is taken. -/
def State.popHost (s : State) : State := { s with host := s.host.tail }

/-- The device command or address sequence the present phase emits: READ_HM's operand in CMD, the soft reset of RESET and of the
recovery action, the two serial-number addresses (R111, R124, R129, R141). -/
def State.commandWord (s : State) : Option CodeWord :=
  match s.phase with
  | .rdSelect => s.cmd.map CodeWord.cmd8
  | .rstSend => some (.cmd8 cmdSoftReset)
  | .rdRecover => some (.cmd8 cmdSoftReset)
  | .snAddr1 => some (.addr16 snAddr1Bytes.1 snAddr1Bytes.2)
  | .snAddr2 => some (.addr16 snAddr2Bytes.1 snAddr2Bytes.2)
  | _ => none

/-- An input that the step answers at once whatever the phase: power-on reset, and a `Call` whose caller does not wait. -/
def HostInput.preempts : HostInput → Bool
  | .powerOn => true
  | .call c => c.early

/-- The HOST channel with a select code presented next, its caller waiting for each `Ret` before it. -/
def presentCall (op : BitVec 4) (p : Ports) (s : State) : State :=
  { s with phase := .idle, host := .call { op := op, ports := p, early := false, waiting := [] } :: s.host }

/-- The state at the phase that emits a device command: RESET's for the soft reset, READ_HM's, with the byte as its operand, for
any other. No input pre-empts it. -/
def presentCommand (c : Byte) (s : State) : State :=
  let t := { s with host := s.host.dropWhile HostInput.preempts }
  if c = cmdSoftReset then t.goto .rstSend else { t with cmd := some c, phase := .rdSelect }

/-- The state at the phase that emits an address sequence. No input pre-empts it. A pair outside the table is emitted nowhere. -/
def presentAddress (a1 a0 : Byte) (s : State) : State :=
  let t := { s with host := s.host.dropWhile HostInput.preempts }
  if (a1, a0) = snAddr1Bytes then t.goto .snAddr1
  else if (a1, a0) = snAddr2Bytes then t.goto .snAddr2
  else s

/-- The state in which a code word is the next instruction to run. -/
def presentWord : CodeWord → State → State
  | .hostop op p, s => presentCall op p s
  | .cmd8 c, s => presentCommand c s
  | .addr16 a1 a0, s => presentAddress a1 a0 s

end Sys2Proof.Machine
end

