-- ==== Sys2Proof/Machine/Step.lean ====
section
/-! DEFINITION. One step of the machine (log 8): the next HOST input when it can act, else the operation in progress. -/

namespace Sys2Proof.Machine

/-- A `Call` at an idle block: its word is decoded and the operation runs; a reserved code is refused (R46, R91). -/
def stepCall (c : HostCall) (s : State) : Host.Outcome State Fault Refusal :=
  match decode c.word with
  | .ok i => exec i s.popHost
  | .error _ => .refused (.reservedOp c.op)

/-- An operation in progress goes on: the device command or address sequence at the present phase, or else the run to the next
resting point. In FAULTED the machine stops with the recorded cause (R213). -/
def stepBusy (s : State) : Host.Outcome State Fault Refusal :=
  if s.phase = .faulted then .fault (s.cause.getD .unrecorded)
  else
    match s.commandWord with
    | none => .next (runOp opFuel s)
    | some w =>
      match decode w with
      | .ok i => exec i s
      | .error _ => .next (runOp opFuel s)

/-- One step. Power-on reset acts in any phase (R230). A `Call` that was issued before the `Ret` of the operation before it is
refused and never gets a value, whatever phase the step finds the block in (R207, R236 b; log 15). Any other `Call` waits its
turn (R96, R236) and is accepted in IDLE. An idle block without a `Call` stays as it is (R21). -/
def step (s : State) : Host.Outcome State Fault Refusal :=
  match s.host with
  | .powerOn :: _ => .next (powerOnReset s.popHost)
  | .call c :: _ => if c.early then .refused .uBusy else if s.phase = .idle then stepCall c s else stepBusy s
  | [] => if s.phase = .idle then .next s else stepBusy s

/-- The state with a table row's word placed where the next step takes its instruction from (log 9). A word of no format changes
nothing. -/
def State.withFetchWord (s : State) (nbits w : Nat) : State :=
  match tableWord nbits w with
  | none => s
  | some cw => presentWord cw s

end Sys2Proof.Machine
end

