-- ==== Sys2Proof/Safety.lean ====
section
/-! DEFINITION. The terms claims are stated in: the named premises of spec/70_reset_and_hazards.md R242, the event sequences of
the operations, the shape of a legal trace, and the two invariants of the machine. -/

namespace Sys2Proof.Machine

/-! ## Premises on the host and the oracle (R242), eleven by name. P_OWN and P_RETURNS hold by construction: only the machine
draws answers, and every primitive is one event that returns. -/

/-- P_IDLE. -/
abbrev State.pIdle (s : State) : Prop := s.phase = .idle

/-- P_NOFAULT. -/
abbrev State.pNoFault (s : State) : Prop := s.phase ≠ .faulted

/-- P_BEGUN. -/
abbrev State.pBegun (s : State) : Prop := s.begun = true

/-- P_OPERAND: the operand a caller must pass (R236 c, e). -/
def Instr.operandOk : Instr → Bool
  | .getSerialNumber l => l.toNat ≤ 7
  | .readHm c => inRhSet c || inTSet c
  | _ => true

/-- P_SERIAL: no caller issues a `Call` before the `Ret` of the operation before it (R236 b). -/
def State.pSerial (s : State) : Bool :=
  s.host.all fun x => match x with
    | .call c => !c.early
    | .powerOn => true

/-- No input of the HOST channel acts in the next step of a busy block: neither power-on reset nor an unserialised `Call`. -/
def State.quiet (s : State) : Bool := (s.host.head?.map HostInput.preempts) != some true

/-- O_READY(j), for n bytes: the first j `Avail` answers are below n and the next is at least n. -/
abbrev State.oReady (s : State) (n j : Nat) : Prop := (∀ i < j, s.availAnswer i < n) ∧ n ≤ s.availAnswer j

/-- O_NEVER, for n bytes: every `Avail` answer is below n. -/
def State.oNever (s : State) (n : Nat) : Prop := ∀ j, s.availAnswer j < n

/-- O_FRAME(d0, d1, ck): the next three `Read` answers. -/
abbrev State.oFrame (s : State) (d0 d1 ck : Byte) : Prop :=
  s.readAnswer 0 = d0 ∧ s.readAnswer 1 = d1 ∧ s.readAnswer 2 = ck

/-- O_CLEAN: no byte is waiting at the `Call`. It bounds neither what arrives after the `Call` nor, by itself, what `Avail` and
`Read` answer: the oracle stays free (R65, R238). -/
abbrev HostCall.oClean (c : HostCall) : Prop := c.waiting = []

/-- The oracle of a READ_HM that c calls is a first-in first-out receive buffer: it holds the bytes waiting at the `Call`, the
bytes `fresh` come after, and nothing else does. Every check up to the first that finds 3 bytes counts all the waiting bytes
and some of the fresh ones (R61), and the `Read` return the waiting bytes first (R62, R238). -/
structure State.oBuffer (s : State) (c : HostCall) (fresh : List Byte) : Prop where
  counted : ∀ j ≤ 10, (∀ i < j, s.availAnswer i < 3) →
    c.waiting.length ≤ s.availAnswer j ∧ s.availAnswer j ≤ c.waiting.length + fresh.length
  returned : ∀ (i : Nat) (h : i < (c.waiting ++ fresh).length), s.readAnswer i = (c.waiting ++ fresh)[i]

/-! ## Event sequences of the operations -/

/-- j failed checks of the poll loop: `{Avail -> k < 3, Wait(10)}^j` (R122, R127). -/
def retryEvents (s : State) (j : Nat) : List Event :=
  (List.range j).flatMap fun i => [.avail (s.availAnswer i), .wait 10]

/-- n `Read` events from now. -/
def readEvents (s : State) (n : Nat) : List Event := (List.range n).map fun i => .read (s.readAnswer i)

/-- READ_HM up to the end of its poll loop, j checks having failed and one more having been made (R122). -/
def frameEvents (c : Byte) (d : Nat) (s : State) (j : Nat) : List Event :=
  [.beginTx 0x40, .write c, .endTx, .wait d, .request 0x40 3] ++ retryEvents s j ++ [.avail (s.availAnswer j)]

/-- The soft reset: `TX(0xFE)`, `Wait(15)` (R111, R129). -/
def softResetEvents : List Event := [.beginTx 0x40, .write 0xFE, .endTx, .wait 15]

/-- The second address sequence, its request and the first count after it (R141, R142). -/
def secondRequestEvents (k : Nat) : List Event :=
  [.beginTx 0x40, .write 0xFC, .write 0xC9, .endTx, .request 0x40 6, .avail k]

/-- The whole exchange of GET_SERIAL_NUMBER when both responses are there at the first check (R140). -/
def serialEvents (s : State) : List Event :=
  [.beginTx 0x40, .write 0xFA, .write 0x0F, .endTx, .request 0x40 8, .avail (s.availAnswer 0)] ++ readEvents s 8 ++
    secondRequestEvents (s.availAnswer 1) ++
      (List.range 6).map fun i => .read (s.readAnswer (8 + i))

/-- The sum of the `Wait` arguments of a trace (R130). -/
def waitSum : List Event → Nat
  | [] => 0
  | .wait ms :: es => ms + waitSum es
  | _ :: es => waitSum es

/-- Whether an event is a bus or a wait event, so neither `Call` nor `Ret` (R240). -/
def Event.isBusOrWait : Event → Bool
  | .call _ => false
  | .ret _ => false
  | _ => true

/-- The number of bits set in a byte: of an error pattern, the bits it corrupts (R170). -/
def bitsSet (b : Byte) : Nat := (List.range 8).countP b.getLsbD

/-! ## The shape of a legal trace (R8, R46, R58, R63, R189, R216) -/

/-- Where a trace stands: outside any operation, inside one, or inside a transmission of so many bytes so far. -/
inductive TraceMode where
  | outside
  | inside
  | sending (m : Nat)
  deriving DecidableEq, Repr

/-- The next event of a legal trace. `Call` and `Ret` bracket an operation; a transmission is one or two `Write` between a
`BeginTx` and an `EndTx` with nothing else in it; the address is always 0x40; a request is for 3, 8 or 6 bytes; a wait is of 10,
15, 30 or 85 ms. -/
def TraceMode.next : TraceMode → Event → Option TraceMode
  | .outside, .call _ => some .inside
  | .inside, .ret _ => some .outside
  | .inside, .beginSession => some .inside
  | .inside, .beginTx a => if a = 0x40 then some (.sending 0) else none
  | .sending m, .write _ => if m < 2 then some (.sending (m + 1)) else none
  | .sending m, .endTx => if 0 < m then some .inside else none
  | .inside, .request a n => if a = 0x40 ∧ (n = 3 ∨ n = 8 ∨ n = 6) then some .inside else none
  | .inside, .avail _ => some .inside
  | .inside, .read _ => some .inside
  | .inside, .wait ms => if ms = 10 ∨ ms = 15 ∨ ms = 30 ∨ ms = 85 then some .inside else none
  | _, _ => none

/-- Where a trace stands after some events, if they are legal. -/
def TraceMode.run : TraceMode → List Event → Option TraceMode
  | m, [] => some m
  | m, e :: es =>
    match m.next e with
    | none => none
    | some m' => m'.run es

/-- The mode a trace is in while the sequencer stands in a phase: outside in IDLE, inside an operation otherwise. -/
def Phase.traceMode : Phase → TraceMode
  | .idle => .outside
  | _ => .inside

/-! ## The codes of R21's table -/

/-- The table of R21, columns "code" and "phase". -/
def phaseCodes : List (Phase × BitVec 5) :=
  [(.idle, 0), (.beginSession, 1), (.rstSend, 2), (.rstWait, 3), (.rdSelect, 4), (.rdSend, 5), (.rdWait, 6), (.rdRequest, 7),
    (.rdPoll, 8), (.rdRead, 9), (.rdCheck, 10), (.rdRecover, 11)] ++
  [(.convert, 12), (.snAddr1, 13), (.snReq1, 14), (.snRead1, 15), (.snAddr2, 16), (.snReq2, 17), (.snRead2, 18),
    (.snSelect, 19), (.crcXor, 20), (.crcShift, 21), (.crcCompare, 22), (.faulted, 23)]

/-! ## Which operation visits which phase (R21, column "operation", with the nesting of R46) -/

/-- READ_HM called by the host, or nested in a GET operation. -/
def HostOp.measures : HostOp → Bool
  | .readHm => true
  | .getTemperature => true
  | .getHumidity => true
  | _ => false

/-- The phases an operation visits. -/
def HostOp.visits (op : HostOp) : Phase → Bool
  | .idle => true
  | .faulted => true
  | .beginSession => op == .beginOp
  | .rstSend => op == .resetOp
  | .rstWait => op == .resetOp
  | .rdSelect => op.measures
  | .rdSend => op.measures
  | .rdWait => op.measures
  | .rdRequest => op.measures
  | .rdPoll => op.measures
  | .rdRead => op.measures
  | .rdCheck => op.measures
  | .rdRecover => op.measures
  | .convert => op == .getTemperature || op == .getHumidity || op == .calcT || op == .calcRh
  | .snAddr1 => op == .getSerialNumber
  | .snReq1 => op == .getSerialNumber
  | .snRead1 => op == .getSerialNumber
  | .snAddr2 => op == .getSerialNumber
  | .snReq2 => op == .getSerialNumber
  | .snRead2 => op == .getSerialNumber
  | .snSelect => op == .getSerialNumber
  | .crcXor => op.measures || op == .crcCheck
  | .crcShift => op.measures || op == .crcCheck
  | .crcCompare => op.measures || op == .crcCheck

/-! ## The invariants -/

/-- RAW as the two data bytes say it: `{D0, D1}`, unwritten as long as either is (R27). -/
def rawOf : Option Byte → Option Byte → Option RawCode
  | some a, some b => some (assembleRaw a b)
  | _, _ => none

/-- What holds of the block's state at every resting point. -/
structure State.Inv (s : State) : Prop where
  /-- The trace is legal and stands where the phase says (R8, R46). -/
  trace : TraceMode.run .outside s.trace = some s.phase.traceMode
  /-- A cause is recorded exactly in FAULTED. -/
  cause : s.phase = .faulted ↔ s.cause.isSome = true
  /-- A busy block is carrying on the operation OPSEL names, in a phase of that operation (R21, R45). -/
  opsel : s.phase ≠ .idle → ∃ op, s.opsel = some op ∧ op.visits s.phase = true ∧ (op.usesBus = true → s.begun = true)
  /-- N never exceeds 10 (R25). -/
  n : ∀ v, s.n = some v → v.toNat ≤ 10
  /-- BITN ranges from 0 to 8 (R30), and a byte in work has had fewer than 8 shifts. -/
  bitn : ∀ v, s.bitn = some v → v.toNat ≤ 8 ∧ (s.phase = .crcShift → v.toNat < 8)
  /-- DLY is unwritten, 30 or 85 (R24). -/
  dly : ∀ d, s.dly = some d → d = 30 ∨ d = 85
  /-- `RAW = {D0, D1}` (R27). -/
  raw : s.raw = rawOf s.d0 s.d1
  /-- TNUM and RHNUM are conversion results (R37). -/
  tnum : ∀ v, s.tnum = some v → ∃ r, v = tNum r
  rhnum : ∀ v, s.rhnum = some v → ∃ r, v = rhNum r

/-- A serial-number index has been written. -/
def State.snWritten (s : State) (i : Fin 8) : Prop := s.sn[i].isSome = true

/-- The registers that the rest of READ_HM reads once the frame is in: RAW, when CRC_CHECK is nested (R46). -/
def State.checkReady (s : State) : Prop :=
  s.acc.isSome = true ∧ s.exp.isSome = true ∧ (s.opsel ≠ some .crcCheck → s.raw.isSome = true)

/-- Write-before-read (R43): in each phase, the registers that the operation will read before it writes them have been written. -/
def State.readable (s : State) : Phase → Prop
  | .rdSelect => s.cmd.isSome = true
  | .rdSend => s.cmd.isSome = true ∧ (s.dly = s.cmd.bind selectDelay)
  | .rdWait => s.cmd.isSome = true ∧ (s.dly = s.cmd.bind selectDelay)
  | .rdCheck => s.d0.isSome = true ∧ s.d1.isSome = true ∧ s.ck.isSome = true ∧ s.raw.isSome = true
  | .convert =>
    ((s.opsel = some .getTemperature ∨ s.opsel = some .getHumidity) → s.ret16.isSome = true) ∧
      ((s.opsel = some .calcT ∨ s.opsel = some .calcRh) → s.rawPort.isSome = true)
  | .crcXor => s.checkReady ∧ ∃ i len, s.bytei = some i ∧ s.len = some len ∧ s.data.length = len.toNat ∧ i.toNat < len.toNat
  | .crcShift =>
    s.checkReady ∧ s.bitn.isSome = true ∧
      ∃ i len, s.bytei = some i ∧ s.len = some len ∧ s.data.length = len.toNat ∧ i.toNat < len.toNat
  | .crcCompare => s.checkReady
  | .snAddr1 => s.loc.isSome = true
  | .snReq1 => s.loc.isSome = true
  | .snRead1 => s.loc.isSome = true
  | .snAddr2 => s.loc.isSome = true ∧ ∀ i, some i ∈ s.params.snMap.store1.toList → s.snWritten i
  | .snReq2 => s.loc.isSome = true ∧ ∀ i, some i ∈ s.params.snMap.store1.toList → s.snWritten i
  | .snRead2 => s.loc.isSome = true ∧ ∀ i, some i ∈ s.params.snMap.store1.toList → s.snWritten i
  | .snSelect => s.loc.isSome = true ∧ ∀ i, s.snWritten i
  | _ => True

/-- The two faults that R43 and R206 leave reachable: U_CMD with a command of neither delay set, U_LOC with a location above 7. -/
def Fault.reachable : Fault → Bool
  | .uCmd c => !inRhSet c && !inTSet c
  | .uLoc l => 7 < l.toNat
  | .uUnwritten _ => false
  | .noContinuation _ => false
  | .unrecorded => false

/-- The write-before-read discipline of the block: SN_MAP has the properties the source fixes (R143), the operation in
progress finds its registers written, and no fault but U_CMD and U_LOC has been raised (R43, R206). -/
structure State.Disciplined (s : State) : Prop where
  snMap : s.params.snMap.valid = true
  opsel : s.phase ≠ .idle → ∃ op, s.opsel = some op ∧ op.visits s.phase = true
  readable : s.readable s.phase
  cause : s.phase = .faulted → ∃ f, s.cause = some f ∧ f.reachable = true

end Sys2Proof.Machine
end

