-- ==== Sys2Proof/Certificates/Slice0/Gf2.lean ====
section
/-! DEFINITION. Bytes and byte sequences as polynomials over GF(2), for the statement that the CRC is a remainder
(spec/44_crc8.md R169). -/

namespace Sys2Proof.Gf2

open Polynomial

/-- The polynomial of a byte: bit i is the coefficient of x^i. -/
noncomputable def ofByte (b : Byte) : (ZMod 2)[X] :=
  ∑ i ∈ Finset.range 8, if b.getLsbD i then X ^ i else 0

/-- The polynomial of a byte sequence, the first byte's bit 7 being the highest coefficient (R169). -/
noncomputable def ofBytes (data : List Byte) : (ZMod 2)[X] :=
  data.foldl (fun p b => p * X ^ 8 + ofByte b) 0

/-- The generator x^8 + x^5 + x^4 + 1 (R5). -/
noncomputable def generator : (ZMod 2)[X] := X ^ 8 + X ^ 5 + X ^ 4 + 1

end Sys2Proof.Gf2
end

