-- ==== Sys2Proof/Certificates/Slice0/Obligations.lean ====
section
/-! DEFINITION. The statements for the provers, in the order of the spec's files. A next state is written out as the state
before with the changed fields, so an equation says the result and the frame at once: every register, and everything else in
the state, that is not named is unchanged. -/

open Sys2Proof Sys2Proof.Machine

/-! ## State and reset (spec/10_state.md, spec/70_reset_and_hazards.md) -/

/-- R42: after power-on reset PHASE is IDLE, BEGUN is 0 and every other register is unwritten. -/
def Obligations.PowerOnResetLeavesAllUnwritten : Prop :=
  State.reset.phase = .idle ∧ State.reset.begun = false ∧ State.reset.opsel = none ∧ State.reset.cmd = none ∧
  State.reset.dly = none ∧ State.reset.n = none ∧ State.reset.d0 = none ∧ State.reset.d1 = none ∧ State.reset.ck = none ∧
  State.reset.raw = none ∧ State.reset.ret16 = none ∧ State.reset.acc = none ∧ State.reset.bytei = none ∧
  State.reset.bitn = none ∧ State.reset.data = [] ∧ State.reset.len = none ∧ State.reset.exp = none ∧
  State.reset.mismatch = none ∧ State.reset.loc = none ∧ (∀ i : Fin 8, State.reset.sn[i] = none) ∧
  State.reset.tnum = none ∧ State.reset.rhnum = none

/-- R230: power-on reset of a running block, in any phase, gives every register its reset value and emits no event: the trace
starts anew. What lies outside the block, and the parameters, stay (the second half is the model's: log 10). -/
def Obligations.PowerOnResetStep : Prop :=
  ∀ (s : State) (rest : List HostInput), s.host = .powerOn :: rest →
    step s = .next { State.reset with
      host := rest, availIn := s.availIn, readIn := s.readIn
      availDrawn := s.availDrawn, readDrawn := s.readDrawn, dataDrawn := s.dataDrawn, params := s.params }

/-- From R21, by which the sequencer leaves IDLE only on a `Call`. That a step of an idle block without an input ANSWERS the same
state, instead of there being no step, is the model's choice (log 8). -/
def Obligations.IdleBlockWithoutCallStays : Prop :=
  ∀ s : State, s.pIdle → s.host = [] → step s = .next s

/-- R21, R45, R81: the phase codes are those of R21's table, 5-bit numbers 0 to 23 that no two phases share; the code OPSEL
latches is the code that the call was encoded with. -/
def Obligations.PhaseAndOperationCodes : Prop :=
  (∀ (p : Phase) (code : BitVec 5), (p, code) ∈ phaseCodes → p.code = code) ∧ (∀ p : Phase, ∃ code, (p, code) ∈ phaseCodes) ∧
  (∀ p q : Phase, p.code = q.code → p = q) ∧ (∀ p : Phase, p.code.toNat ≤ 23) ∧
  (∀ p q : HostOp, p.code = q.code → p = q) ∧
  ∀ (i : Instr) (s t : State) (op : BitVec 4) (ports : Ports), encode i = .hostop op ports → exec i s = .next t →
    ∃ o, t.opsel = some o ∧ o.code = op

/-- The invariant of the block holds after reset. -/
def Obligations.ResetMeetsInvariant : Prop := State.reset.Inv

/-- HEADLINE. Every step keeps the invariant: the trace stays a legal sequence of bracketed operations (addresses 0x40 only,
transmissions of one or two bytes, the five request and wait constants), OPSEL names the operation of the present phase with
BEGUN set where it uses the bus, N stays in 0..10, BITN in 0..8, DLY in 30 and 85, RAW is `{D0, D1}`, the results are
conversion results, and a cause is recorded exactly in FAULTED. -/
def Obligations.StepKeepsInvariant : Prop :=
  ∀ s t : State, s.Inv → step s = .next t → t.Inv

/-- The write-before-read discipline holds after reset. -/
def Obligations.ResetIsDisciplined : Prop := State.reset.Disciplined

/-- HEADLINE. R43 and R206: every step keeps the write-before-read discipline, so a block whose SN_MAP has the source's
properties never reads an unwritten register but DLY, whatever is called: a fault it takes is U_CMD with a command of neither delay
set, or U_LOC with a location above 7. -/
def Obligations.StepKeepsWriteBeforeRead : Prop :=
  ∀ s t : State, s.Disciplined → step s = .next t →
    t.Disciplined ∧ (t.phase = .faulted → ∃ f, t.cause = some f ∧ f.reachable = true)

/-- Unless power-on reset is applied, BEGUN is never cleared (R22), no step leaves FAULTED (R213), and the events already emitted
stay in the trace, in their order (R8, R75). That the parameters, which are no state (R41), do not change rests on the model's choice
to carry them in State (log 3). -/
def Obligations.OnlyPowerOnClearsBegunAndFaulted : Prop :=
  ∀ s t : State, s.host.head? ≠ some .powerOn → step s = .next t →
    (s.begun = true → t.begun = true) ∧ s.phase ≠ .faulted ∧ t.params = s.params ∧ s.trace <+: t.trace

/-! ## Encodings (spec/30_encoding.md) -/

/-- R82, R83 and R81: words written out from the spec's tables decode to the instruction of their row. -/
def Obligations.TableWordsDecode : Prop :=
  decode (.hostop 0b0000 Ports.zero) = .ok .beginOp ∧
  decode (.hostop 0b0100 { Ports.zero with loc := 0x07 }) = .ok (.getSerialNumber 0x07) ∧
  decode (.hostop 0b1000 { Ports.zero with cmd := 0b11110101 }) = .ok (.readHm 0xF5) ∧
  decode (.hostop 0b1001 { Ports.zero with raw := 0x683A }) = .ok (.calcRh 0x683A) ∧
  decode (.hostop 0b1011 { Ports.zero with data := [0x68, 0x3A], len := 2, exp := 0x7C }) = .ok (.crcCheck [0x68, 0x3A] 2 0x7C) ∧
  decode (.cmd8 0b11100011) = .ok .trigTHm ∧ decode (.cmd8 0b11100110) = .ok .writeUserReg ∧
  decode (.cmd8 0b11111110) = .ok .softReset ∧
  decode (.addr16 0b11111010 0b00001111) = .ok .snAddr1 ∧ decode (.addr16 0b11111100 0b11001001) = .ok .snAddr2

/-- Decoding the encoding of any instruction gives it back, with every operand at every value. -/
def Obligations.DecodeOfEncode : Prop := ∀ i : Instr, decode (encode i) = .ok i

/-- R81, R82, R83, R91: exactly the rows of the table decode, the two address pairs among them. The reserved select codes and every byte and pair outside the
tables are refused, each by its own name. -/
def Obligations.OnlyTableRowsDecode : Prop :=
  (∀ (op : BitVec 4) (p : Ports), op.toNat ∈ [0x5, 0x6, 0x7, 0xC, 0xD, 0xE, 0xF] → decode (.hostop op p) = .error (.reservedHostOp op)) ∧
  (∀ (op : BitVec 4) (p : Ports), op.toNat ∉ [0x5, 0x6, 0x7, 0xC, 0xD, 0xE, 0xF] → ∃ i, decode (.hostop op p) = .ok i) ∧
  (∀ c : Byte, c.toNat ∈ [0xE3, 0xE5, 0xF3, 0xF5, 0xE6, 0xE7, 0xFE] → ∃ i, decode (.cmd8 c) = .ok i) ∧
  (∀ c : Byte, c.toNat ∉ [0xE3, 0xE5, 0xF3, 0xF5, 0xE6, 0xE7, 0xFE] → decode (.cmd8 c) = .error (.unlistedCommand c)) ∧
  decode (.addr16 0xFA 0x0F) = .ok .snAddr1 ∧ decode (.addr16 0xFC 0xC9) = .ok .snAddr2 ∧
  (∀ a1 a0 : Byte, (a1, a0) ≠ (0xFA, 0x0F) → (a1, a0) ≠ (0xFC, 0xC9) → decode (.addr16 a1 a0) = .error (.unlistedAddress a1 a0))

/-- R91: a `Call` with a reserved select code is refused, under that name when its caller waited for its turn (one whose caller
did not is refused as U_BUSY: BusyBlockRefusesCalls). -/
def Obligations.ReservedSelectCodesAreRefused : Prop :=
  ∀ (s : State) (c : HostCall) (rest : List HostInput), s.pIdle → s.host = .call c :: rest → c.early = false →
    c.op.toNat ∈ [0x5, 0x6, 0x7, 0xC, 0xD, 0xE, 0xF] → step s = .refused (.reservedOp c.op)

/-- No word of a format matches two rows of the table. -/
def Obligations.TableRowsDoNotOverlap : Prop :=
  hostOpRows.Pairwise (fun r q => r.overlaps q = false) ∧ cmd8Rows.Pairwise (fun r q => r.overlaps q = false) ∧
  addr16Rows.Pairwise (fun r q => r.overlaps q = false)

/-- R84 and R123: the delay sets by their masks. T_SET is the bytes with `C and 0xEF = 0xE3`, RH_SET those with
`C and 0xEF = 0xE5`, and the two are disjoint, so step 1 writes 85, 30 or nothing. -/
def Obligations.DelaySetsByMask : Prop :=
  (∀ c : Byte, inTSet c = true ↔ c &&& 0xEF = 0xE3) ∧ (∀ c : Byte, inRhSet c = true ↔ c &&& 0xEF = 0xE5) ∧
  (∀ c : Byte, ¬ (inTSet c = true ∧ inRhSet c = true)) ∧
  ∀ c : Byte, selectDelay c = if inRhSet c then some 30 else if inTSet c then some 85 else none

/-! ## A step runs the decoded instruction (R46) -/

/-- R46: at an idle block the step takes the next `Call` from the HOST channel, its caller having waited for the `Ret` before it,
and is exec of the instruction its word decodes to. The second clause is the model's choice (log 8, log 11): inside an operation
a step is exec of the device command or address sequence of the present phase, as an instruction of its own, the HOST channel
untouched. -/
def Obligations.StepRunsTheDecodedInstruction : Prop :=
  (∀ (s : State) (c : HostCall) (rest : List HostInput) (i : Instr), s.pIdle → s.host = .call c :: rest → c.early = false →
    decode c.word = .ok i → step s = exec i { s with host := rest }) ∧
  ∀ (s : State) (w : CodeWord) (i : Instr), s.phase ≠ .idle → s.pNoFault → s.quiet = true → s.commandWord = some w →
    decode w = .ok i → step s = exec i s

/-- The model's choice of the grain of a step (log 8): at a phase of an operation in progress that emits no listed command word, a
step answers a next state at a resting point: at IDLE with the `Ret` just emitted, in FAULTED, or in SN_REQ1 or SN_REQ2 after a
count that was too low. The HOST channel is untouched and no event is taken back. -/
def Obligations.StepResumesAnOperation : Prop :=
  ∀ s : State, s.phase ≠ .idle → s.pNoFault → s.quiet = true → (∀ w i, s.commandWord = some w → decode w ≠ .ok i) →
    ∃ t, step s = .next t ∧ t.host = s.host ∧ s.trace <+: t.trace ∧
      ((t.phase = .idle ∧ ∃ v, t.trace.getLast? = some (.ret v)) ∨ t.phase = .faulted ∨
        (t.phase = .snReq1 ∧ ∃ k < 8, t.trace.getLast? = some (.avail k)) ∨
        (t.phase = .snReq2 ∧ ∃ k < 6, t.trace.getLast? = some (.avail k)))

/-! ## Acceptance of a call (R46 a, R207, R208, R210, R213) -/

/-- R207: every one of the nine host operations is refused while PHASE is not IDLE, and this is tested first (R210). R236 (b): a
`Call` issued before the `Ret` of the operation before it is refused and gets no value, in whatever phase the step finds the block;
that the HOST channel marks such a `Call`, and that the step answers it so, is the model's choice (log 15). -/
def Obligations.BusyBlockRefusesCalls : Prop :=
  (∀ (i : Instr) (s : State) (op : BitVec 4) (p : Ports), encode i = .hostop op p → s.phase ≠ .idle → exec i s = .refused .uBusy) ∧
  ∀ (s : State) (c : HostCall) (rest : List HostInput), s.host = .call c :: rest → c.early = true →
    step s = .refused .uBusy

/-- R208: the five bus-using operations are refused while BEGUN is 0. -/
def Obligations.BusOperationsNeedBegin : Prop :=
  ∀ (i : Instr) (s : State),
    (i = .resetOp ∨ i = .getTemperature ∨ i = .getHumidity ∨ (∃ c, i = .readHm c) ∨ ∃ l, i = .getSerialNumber l) →
    s.pIdle → s.begun = false → exec i s = .refused .uNotBegun

/-- R207, R213: in FAULTED every call is refused, and no step leaves FAULTED but power-on reset. That a step of a faulted block
ANSWERS the recorded cause as a fault is the model's choice (log 1), as is the refusal in its place for a caller that did not wait
(log 15). -/
def Obligations.FaultedBlockStops : Prop :=
  ∀ s : State, s.phase = .faulted →
    (∀ (i : Instr) (op : BitVec 4) (p : Ports), encode i = .hostop op p → exec i s = .refused .uBusy) ∧
    (∀ f, s.cause = some f → s.quiet = true → step s = .fault f) ∧
    (s.host.head? ≠ some .powerOn → ∀ t, step s ≠ .next t)

/-! ## BEGIN and RESET (spec/40_bus_control.md) -/

/-- R110: BEGIN emits `BeginSession` and sets BEGUN, whether it was set or not. -/
def Obligations.BeginOpensTheSession : Prop :=
  ∀ s : State, s.pIdle →
    exec .beginOp s = .next { s with
      opsel := some .beginOp, begun := true
      trace := s.trace ++ [.call .beginOp, .beginSession, .ret .unit] }

/-- R111, R232: RESET sends 0xFE, waits 15 ms, returns, and leaves every register but OPSEL as it was. -/
def Obligations.ResetSendsSoftResetAndWaits : Prop :=
  ∀ s : State, s.pIdle → s.pBegun →
    exec .resetOp s = .next { s with
      opsel := some .resetOp
      trace := s.trace ++ [.call .resetOp, .beginTx 0x40, .write 0xFE, .endTx, .wait 15, .ret .unit] }

/-! ## Measurement (spec/41_measurement.md) -/

/-- R123 to R128: READ_HM of a command of a delay set, the frame ready at the check after j retries and its CRC right, returns
RAW. It holds for every oracle, and it is the completion of READ_HM. -/
def Obligations.ReadHmReturnsAGoodFrame : Prop :=
  ∀ (s : State) (c d d0 d1 ck : Byte) (j : Nat), s.pIdle → s.pBegun →
    (c = 0xE5 ∨ c = 0xF5) ∧ d = 30 ∨ (c = 0xE3 ∨ c = 0xF3) ∧ d = 85 →
    j ≤ 10 → s.oReady 3 j → s.oFrame d0 d1 ck → crc8 s.params.crcInit [d0, d1] = ck →
    exec (.readHm c) s = .next { s with
      opsel := some .readHm, cmd := some c, dly := some d, n := some (BitVec.ofNat 4 j)
      d0 := some d0, d1 := some d1, ck := some ck, raw := some (d0 ++ d1)
      data := [d0, d1], len := some 2, exp := some ck, acc := some ck, bytei := some 2, bitn := some 8
      mismatch := some false, ret16 := some (d0 ++ d1)
      availIn := s.availIn.drop (j + 1), availDrawn := s.availDrawn + (j + 1 - s.availIn.length)
      readIn := s.readIn.drop 3, readDrawn := s.readDrawn + (3 - s.readIn.length)
      trace := s.trace ++ [.call (.readHm c)] ++ frameEvents c d.toNat s j ++ readEvents s 3 ++ [.ret (.raw (d0 ++ d1))] }

/-- R129, R202, R211, R212: a frame whose CRC is wrong: the soft reset is sent and waited for before READ_HM returns 1. RAW, D0,
D1, CK and MISMATCH survive the recovery (R44). -/
def Obligations.ReadHmRecoversFromABadFrame : Prop :=
  ∀ (s : State) (c d d0 d1 ck : Byte) (j : Nat), s.pIdle → s.pBegun →
    (c = 0xE5 ∨ c = 0xF5) ∧ d = 30 ∨ (c = 0xE3 ∨ c = 0xF3) ∧ d = 85 →
    j ≤ 10 → s.oReady 3 j → s.oFrame d0 d1 ck → crc8 s.params.crcInit [d0, d1] ≠ ck →
    exec (.readHm c) s = .next { s with
      opsel := some .readHm, cmd := some c, dly := some d, n := some (BitVec.ofNat 4 j)
      d0 := some d0, d1 := some d1, ck := some ck, raw := some (d0 ++ d1)
      data := [d0, d1], len := some 2, exp := some ck, acc := some (crc8 s.params.crcInit [d0, d1]), bytei := some 2, bitn := some 8
      mismatch := some true, ret16 := some 1
      availIn := s.availIn.drop (j + 1), availDrawn := s.availDrawn + (j + 1 - s.availIn.length)
      readIn := s.readIn.drop 3, readDrawn := s.readDrawn + (3 - s.readIn.length)
      trace := s.trace ++ [.call (.readHm c)] ++ frameEvents c d.toNat s j ++ readEvents s 3 ++ softResetEvents ++ [.ret (.raw 1)] }

/-- R127, R201: eleven checks below 3 bytes: READ_HM returns 0 after exactly ten waits of 10 ms. Nothing is read, no CRC is
computed, no reset is sent. -/
def Obligations.ReadHmTimesOut : Prop :=
  ∀ (s : State) (c d : Byte), s.pIdle → s.pBegun →
    (c = 0xE5 ∨ c = 0xF5) ∧ d = 30 ∨ (c = 0xE3 ∨ c = 0xF3) ∧ d = 85 →
    (∀ i ≤ 10, s.availAnswer i < 3) →
    exec (.readHm c) s = .next { s with
      opsel := some .readHm, cmd := some c, dly := some d, n := some 10, ret16 := some 0
      availIn := s.availIn.drop 11, availDrawn := s.availDrawn + (11 - s.availIn.length)
      trace := s.trace ++ [.call (.readHm c)] ++ frameEvents c d.toNat s 10 ++ [.ret (.raw 0)] }

/-- R204, R92, R221: READ_HM of a command of neither set writes the byte and faults at the read of DLY: U_CMD is recorded with
the command, no delay is substituted, whatever DLY held before, and no event follows. That DLY is unwritten again is the model's reading
of R7 and R204 (DEDUCED, log 14). -/
def Obligations.ReadHmOfAnUnknownCommandFaults : Prop :=
  ∀ (s : State) (c : Byte), s.pIdle → s.pBegun → c ∉ [0xE5, 0xF5, 0xE3, 0xF3] →
    exec (.readHm c) s = .next { s with
      phase := .faulted, cause := some (.uCmd c)
      opsel := some .readHm, cmd := some c, dly := none
      trace := s.trace ++ [.call (.readHm c), .beginTx 0x40, .write c, .endTx] }

/-- R120, R151: GET_TEMPERATURE of a good frame: the trigger 0xE3, 85 ms, the frame, and TNUM = 17572 r - 307036160 of the masked
raw value, returned. -/
def Obligations.GetTemperatureOfAGoodFrame : Prop :=
  ∀ (s : State) (d0 d1 ck : Byte) (j : Nat), s.pIdle → s.pBegun →
    j ≤ 10 → s.oReady 3 j → s.oFrame d0 d1 ck → crc8 s.params.crcInit [d0, d1] = ck →
    ∃ v : Num32, v.toInt = 17572 * (((d0 ++ d1 : RawCode) &&& 0xFFFC).toNat : Int) - 307036160 ∧
    exec .getTemperature s = .next { s with
      opsel := some .getTemperature, cmd := some 0xE3, dly := some 85, n := some (BitVec.ofNat 4 j)
      d0 := some d0, d1 := some d1, ck := some ck, raw := some (d0 ++ d1)
      data := [d0, d1], len := some 2, exp := some ck, acc := some ck, bytei := some 2, bitn := some 8
      mismatch := some false, ret16 := some (d0 ++ d1), tnum := some v
      availIn := s.availIn.drop (j + 1), availDrawn := s.availDrawn + (j + 1 - s.availIn.length)
      readIn := s.readIn.drop 3, readDrawn := s.readDrawn + (3 - s.readIn.length)
      trace := s.trace ++ [.call .getTemperature] ++ frameEvents 0xE3 85 s j ++ readEvents s 3 ++ [.ret (.tnum v)] }

/-- R121, R150: GET_HUMIDITY of a good frame: the trigger 0xE5, 30 ms, the frame, and RHNUM = 125 r - 393216 of the masked raw
value, returned. -/
def Obligations.GetHumidityOfAGoodFrame : Prop :=
  ∀ (s : State) (d0 d1 ck : Byte) (j : Nat), s.pIdle → s.pBegun →
    j ≤ 10 → s.oReady 3 j → s.oFrame d0 d1 ck → crc8 s.params.crcInit [d0, d1] = ck →
    ∃ v : Num32, v.toInt = 125 * (((d0 ++ d1 : RawCode) &&& 0xFFFC).toNat : Int) - 393216 ∧
    exec .getHumidity s = .next { s with
      opsel := some .getHumidity, cmd := some 0xE5, dly := some 30, n := some (BitVec.ofNat 4 j)
      d0 := some d0, d1 := some d1, ck := some ck, raw := some (d0 ++ d1)
      data := [d0, d1], len := some 2, exp := some ck, acc := some ck, bytei := some 2, bitn := some 8
      mismatch := some false, ret16 := some (d0 ++ d1), rhnum := some v
      availIn := s.availIn.drop (j + 1), availDrawn := s.availDrawn + (j + 1 - s.availIn.length)
      readIn := s.readIn.drop 3, readDrawn := s.readDrawn + (3 - s.readIn.length)
      trace := s.trace ++ [.call .getHumidity] ++ frameEvents 0xE5 30 s j ++ readEvents s 3 ++ [.ret (.rhnum v)] }

/-- R97, R46: `getTemperature()` is `CalcT(readSensor_hm(0xE3))` and `getHumidity()` is `CalcRH(readSensor_hm(0xE5))`,
on every oracle and through every exit of READ_HM, timeout and CRC failure included: the GET operation always returns, it emits
exactly the events that READ_HM called directly emits, it leaves every register as READ_HM leaves it but OPSEL and its own
result, and its result is the conversion of what READ_HM returns. -/
def Obligations.GetIsConversionOfReadHm : Prop :=
  ∀ s : State, s.pIdle → s.pBegun →
    (∃ (t : State) (v : RawCode) (es : List Event), exec (.readHm 0xE3) s = .next t ∧ t.ret16 = some v ∧ t.phase = .idle ∧
      t.trace = s.trace ++ [.call (.readHm 0xE3)] ++ es ++ [.ret (.raw v)] ∧
      exec .getTemperature s = .next { t with
        opsel := some .getTemperature, tnum := some (tNum v)
        trace := s.trace ++ [.call .getTemperature] ++ es ++ [.ret (.tnum (tNum v))] }) ∧
    (∃ (t : State) (v : RawCode) (es : List Event), exec (.readHm 0xE5) s = .next t ∧ t.ret16 = some v ∧ t.phase = .idle ∧
      t.trace = s.trace ++ [.call (.readHm 0xE5)] ++ es ++ [.ret (.raw v)] ∧
      exec .getHumidity s = .next { t with
        opsel := some .getHumidity, rhnum := some (rhNum v)
        trace := s.trace ++ [.call .getHumidity] ++ es ++ [.ret (.rhnum (rhNum v))] })

/-- R130, R240: whatever the oracle answers, READ_HM of a delay-set command emits at most 33 bus and wait events and its waits
sum to at most 200 ms (T_SET) or 145 ms (RH_SET). -/
def Obligations.ReadHmIsBounded : Prop :=
  ∀ (s t : State) (c : Byte), exec (.readHm c) s = .next t → c ∈ [0xE3, 0xF3, 0xE5, 0xF5] →
    ∃ es, t.trace = s.trace ++ es ∧ (es.filter Event.isBusOrWait).length ≤ 33 ∧
      (c ∈ [0xE3, 0xF3] → waitSum es ≤ 200) ∧ (c ∈ [0xE5, 0xF5] → waitSum es ≤ 145)

/-- R222: a timeout, a CRC failure, and a good frame with a raw value of 0 to 3 give the host the same answer through
GET_TEMPERATURE and through GET_HUMIDITY: -307036160 (-46.85 °C) and -393216 (-6.0 %RH). -/
def Obligations.ErrorsLookLikeData : Prop :=
  ∀ (s : State) (d0 d1 ck : Byte) (j : Nat), s.pIdle → s.pBegun →
    ((∀ i ≤ 10, s.availAnswer i < 3) ∨
      (j ≤ 10 ∧ s.oReady 3 j ∧ s.oFrame d0 d1 ck ∧ (crc8 s.params.crcInit [d0, d1] ≠ ck ∨ (d0 ++ d1 : RawCode).toNat ≤ 3))) →
    (∃ t, exec .getTemperature s = .next t ∧ t.phase = .idle ∧
      t.trace.getLast? = some (.ret (.tnum (BitVec.ofInt 32 (-307036160))))) ∧
    ∃ t, exec .getHumidity s = .next t ∧ t.phase = .idle ∧
      t.trace.getLast? = some (.ret (.rhnum (BitVec.ofInt 32 (-393216))))

/-! ## Serial number (spec/42_serial_number.md) -/

/-- R140, R141, R143, R144, R172: both responses there at the first check: the whole exchange in order, every byte of the two
responses where SN_MAP puts it, the byte at the location returned, no CRC computed and MISMATCH untouched. For every SN_MAP with
the source's properties. -/
def Obligations.GetSerialNumberReturnsTheByteAtLocation : Prop :=
  ∀ (s : State) (l : Byte), s.pIdle → s.pBegun → l.toNat ≤ 7 → s.params.snMap.valid = true →
    8 ≤ s.availAnswer 0 → 6 ≤ s.availAnswer 1 →
    ∃ (sn : Vector (Option Byte) 8) (b : Byte),
      (∀ (p i : Fin 8), s.params.snMap.store1[p] = some i → sn[i] = some (s.readAnswer p)) ∧
      (∀ (q : Fin 6) (i : Fin 8), s.params.snMap.store2[q] = some i → sn[i] = some (s.readAnswer (8 + q))) ∧
      (∀ h : l.toNat < 8, sn[l.toNat] = some b) ∧
      exec (.getSerialNumber l) s = .next { s with
        opsel := some .getSerialNumber, loc := some l, sn := sn
        availIn := s.availIn.drop 2, availDrawn := s.availDrawn + (2 - s.availIn.length)
        readIn := s.readIn.drop 14, readDrawn := s.readDrawn + (14 - s.readIn.length)
        trace := s.trace ++ [.call (.getSerialNumber l)] ++ serialEvents s ++ [.ret (.serial b)] }

/-- R144, R205: a location above 7 faults with U_LOC after all fourteen reads, whatever SN_MAP is. -/
def Obligations.GetSerialNumberOutOfRangeFaults : Prop :=
  ∀ (s : State) (l : Byte), s.pIdle → s.pBegun → 7 < l.toNat → 8 ≤ s.availAnswer 0 → 6 ≤ s.availAnswer 1 →
    ∃ sn : Vector (Option Byte) 8,
      exec (.getSerialNumber l) s = .next { s with
        phase := .faulted, cause := some (.uLoc l)
        opsel := some .getSerialNumber, loc := some l, sn := sn
        availIn := s.availIn.drop 2, availDrawn := s.availDrawn + (2 - s.availIn.length)
        readIn := s.readIn.drop 14, readDrawn := s.readDrawn + (14 - s.readIn.length)
        trace := s.trace ++ [.call (.getSerialNumber l)] ++ serialEvents s }

/-- R142: the wait for serial-number bytes has no bound and no `Wait`: however long the answers stay below n, the block is still
in the same phase, having done nothing but `Avail`. That each step makes exactly one `Avail` and rests in the phase is the model's
choice (log 8), and so is that a `Call` waiting for its turn at the HOST channel does not act (log 15). -/
def Obligations.SerialNumberWaitsWithoutBound : Prop :=
  ∀ (s : State) (n k : Nat), s.phase = .snReq1 ∧ n = 8 ∨ s.phase = .snReq2 ∧ n = 6 → s.quiet = true →
    (∀ i < k, s.availAnswer i < n) →
    Sys2Proof.core.run k s = .next { s with
      availIn := s.availIn.drop k, availDrawn := s.availDrawn + (k - s.availIn.length)
      trace := s.trace ++ (List.range k).map fun i => .avail (s.availAnswer i) }

/-- R142, R143: a first answer below 8 leaves GET_SERIAL_NUMBER waiting in SN_REQ1, the first address sent and the request made; a
first answer of at least 8 and a second below 6 leave it waiting in SN_REQ2, the eight bytes read and stored by SN_MAP and the second
request made. That exec rests there is the model's choice (log 8). That the indices no byte was stored to are unwritten, whatever an
earlier operation left in them, is the model's reading of R7 and R36 (DEDUCED, log 14): the SN registers are cleared at the `Call`. -/
def Obligations.GetSerialNumberWaitsForBytes : Prop :=
  ∀ (s : State) (l : Byte), s.pIdle → s.pBegun →
    (s.availAnswer 0 < 8 →
      exec (.getSerialNumber l) s = .next { s with
        phase := .snReq1, opsel := some .getSerialNumber, loc := some l, sn := Vector.replicate 8 none
        availIn := s.availIn.drop 1, availDrawn := s.availDrawn + (1 - s.availIn.length)
        trace := s.trace ++ [.call (.getSerialNumber l), .beginTx 0x40, .write 0xFA, .write 0x0F, .endTx, .request 0x40 8,
          .avail (s.availAnswer 0)] }) ∧
    (8 ≤ s.availAnswer 0 → s.availAnswer 1 < 6 → s.params.snMap.valid = true →
      ∃ sn : Vector (Option Byte) 8,
        (∀ (p i : Fin 8), s.params.snMap.store1[p] = some i → sn[i] = some (s.readAnswer p)) ∧
        (∀ i : Fin 8, (∀ p : Fin 8, s.params.snMap.store1[p] ≠ some i) → sn[i] = none) ∧
        exec (.getSerialNumber l) s = .next { s with
          phase := .snReq2, opsel := some .getSerialNumber, loc := some l, sn := sn
          availIn := s.availIn.drop 2, availDrawn := s.availDrawn + (2 - s.availIn.length)
          readIn := s.readIn.drop 8, readDrawn := s.readDrawn + (8 - s.readIn.length)
          trace := s.trace ++ [.call (.getSerialNumber l), .beginTx 0x40, .write 0xFA, .write 0x0F, .endTx, .request 0x40 8,
            .avail (s.availAnswer 0)] ++ readEvents s 8 ++ secondRequestEvents (s.availAnswer 1) })

/-- R172: the six discarded bytes have no effect on the result: two runs of GET_SERIAL_NUMBER, each of as many steps as its waits
take, that agree on the bytes SN_MAP stores return the same byte. -/
def Obligations.DiscardedSerialBytesDoNotMatter : Prop :=
  ∀ (s s' t t' : State) (c c' : HostCall) (l b b' : Byte) (k k' : Nat), s.pIdle → s'.pIdle →
    s.host = [.call c] → s'.host = [.call c'] →
    decode c.word = .ok (.getSerialNumber l) → decode c'.word = .ok (.getSerialNumber l) →
    s.params.snMap = s'.params.snMap →
    (∀ p : Fin 8, (s.params.snMap.store1[p]).isSome = true → s.readAnswer p = s'.readAnswer p) →
    (∀ q : Fin 6, (s.params.snMap.store2[q]).isSome = true → s.readAnswer (8 + q) = s'.readAnswer (8 + q)) →
    Sys2Proof.core.run (k + 1) s = .next t → Sys2Proof.core.run (k' + 1) s' = .next t' →
    t.trace.getLast? = some (.ret (.serial b)) → t'.trace.getLast? = some (.ret (.serial b')) → b = b'

/-! ## Conversion (spec/43_conversion.md) -/

/-- R150: CALC_RH is select code 0x9 with its operand on the `raw` port; it returns 125 r - 393216 of the operand with its low two
bits cleared, for every operand, without clamping, whatever BEGUN is; nothing else changes. -/
def Obligations.CalcRhIsExact : Prop :=
  (∀ p : Ports, decode (.hostop 0x9 p) = .ok (.calcRh p.raw)) ∧
  ∀ (s : State) (raw : RawCode), s.pIdle →
    ∃ v : Num32, v.toInt = 125 * ((raw &&& 0xFFFC).toNat : Int) - 393216 ∧
      exec (.calcRh raw) s = .next { s with
        opsel := some .calcRh, rawPort := some raw, rhnum := some v
        trace := s.trace ++ [.call (.calcRh raw), .ret (.rhnum v)] }

/-- R151: CALC_T is select code 0xA with its operand on the `raw` port; it returns 17572 r - 307036160 of the operand with its low
two bits cleared, for every operand, whatever BEGUN is; nothing else changes. -/
def Obligations.CalcTIsExact : Prop :=
  (∀ p : Ports, decode (.hostop 0xA p) = .ok (.calcT p.raw)) ∧
  ∀ (s : State) (raw : RawCode), s.pIdle →
    ∃ v : Num32, v.toInt = 17572 * ((raw &&& 0xFFFC).toNat : Int) - 307036160 ∧
      exec (.calcT raw) s = .next { s with
        opsel := some .calcT, rawPort := some raw, tnum := some v
        trace := s.trace ++ [.call (.calcT raw), .ret (.tnum v)] }

/-- R154: the ranges of the two results, with their ends attained; steps of 500 and 70288 between neighbouring masked codes; both
strictly increasing; and the products fit 31 bits, so the arithmetic never wraps. -/
def Obligations.ConversionRangesAndSteps : Prop :=
  (∀ raw : RawCode, -393216 ≤ (rhNum raw).toInt ∧ (rhNum raw).toInt ≤ 7798284 ∧
    -307036160 ≤ (tNum raw).toInt ∧ (tNum raw).toInt ≤ 844492144 ∧ 17572 * (maskRaw raw).toNat < 2 ^ 31) ∧
  ((rhNum 0x0000).toInt = -393216 ∧ (rhNum 0xFFFC).toInt = 7798284 ∧
    (tNum 0x0000).toInt = -307036160 ∧ (tNum 0xFFFC).toInt = 844492144) ∧
  (∀ a b : RawCode, (maskRaw b).toNat = (maskRaw a).toNat + 4 →
    (rhNum b).toInt = (rhNum a).toInt + 500 ∧ (tNum b).toInt = (tNum a).toInt + 70288) ∧
  ∀ a b : RawCode, (maskRaw a).toNat < (maskRaw b).toNat →
    (rhNum a).toInt < (rhNum b).toInt ∧ (tNum a).toInt < (tNum b).toInt

/-- R131: the sentinels and the raw values 0 to 3 convert to the same results. -/
def Obligations.SentinelsCollapse : Prop :=
  ∀ raw : RawCode, raw.toNat ≤ 3 → (tNum raw).toInt = -307036160 ∧ (rhNum raw).toInt = -393216

/-- R153, R155: the physical values that the two integers stand for are the source's formulas of the masked raw code. -/
def Obligations.ResultsAreTheSourceFormulas : Prop :=
  ∀ raw : RawCode,
    humidityOf (rhNum raw) = -6 + 125 * ((raw &&& 0xFFFC).toNat : Rat) / 65536 ∧
    temperatureOf (tNum raw) = -46.85 + 175.72 * ((raw &&& 0xFFFC).toNat : Rat) / 65536

/-! ## CRC-8 (spec/44_crc8.md) -/

/-- R163, R164: the nine-bit and the eight-bit form of a step are equal, and both are the Galois shift register of the bit
equations. -/
def Obligations.CrcBitEquations : Prop :=
  ∀ a : Byte, crcBit a = crcBit8 a ∧
    (crcBit a).getLsbD 0 = a.getLsbD 7 ∧ (crcBit a).getLsbD 1 = a.getLsbD 0 ∧ (crcBit a).getLsbD 2 = a.getLsbD 1 ∧
    (crcBit a).getLsbD 3 = a.getLsbD 2 ∧ (crcBit a).getLsbD 4 = (a.getLsbD 3 ^^ a.getLsbD 7) ∧
    (crcBit a).getLsbD 5 = (a.getLsbD 4 ^^ a.getLsbD 7) ∧ (crcBit a).getLsbD 6 = a.getLsbD 5 ∧
    (crcBit a).getLsbD 7 = a.getLsbD 6

/-- From R160, R161, R162, R165, R166, R30: CRC_CHECK on the sequencer, bit by bit, leaves in ACC the fold of CRC_BYTE over the LEN
bytes of DATA from CRC_INIT, and MISMATCH says whether that differs from the expected checksum. It is accepted whatever BEGUN is and
puts nothing on the bus. `more` are the bytes of `DATA[0..LEN-1]` that the caller did not list, none where it lists LEN bytes. That a
call which lists fewer runs, and with free values for the rest, is the model's choice (DESIGN CHOICE, log 13). -/
def Obligations.CrcCheckFoldsTheBytes : Prop :=
  ∀ (s : State) (data : List Byte) (len expected : Byte), s.pIdle →
    ∃ more : List Byte, more.length = len.toNat - data.length ∧
      exec (.crcCheck data len expected) s = .next { s with
        opsel := some .crcCheck, data := data.take len.toNat ++ more, len := some len, exp := some expected
        acc := some (crc8 s.params.crcInit (data.take len.toNat ++ more)), bytei := some len
        bitn := if len = 0 then s.bitn else some 8
        mismatch := some (decide (crc8 s.params.crcInit (data.take len.toNat ++ more) ≠ expected))
        dataDrawn := s.dataDrawn + (len.toNat - data.length)
        trace := s.trace ++ [.call (.crcCheck data len expected),
          .ret (.mismatch (decide (crc8 s.params.crcInit (data.take len.toNat ++ more) ≠ expected)))] }

/-- From R206: each line is a phase, what it has read already, and the unwritten register it reads next: that register is reported,
and nothing else changes. The lines are the reads that come before the phase's first write and first event, but for that of CMD at
RD_WAIT when DLY is unwritten too. `rawPort`, the operand port of a direct conversion, is the model's own field, and that a read of
it unwritten faults is the model's choice (DESIGN CHOICE, log 7). No run gets into such a state, as StepKeepsWriteBeforeRead says. -/
def Obligations.UnwrittenRegisterReadFaults : Prop :=
  ∀ (s : State) (r : RegName), s.quiet = true →
    (s.phase = .rdSelect ∨ s.phase = .rdSend) ∧ r = .cmd ∧ s.cmd = none ∨
      s.phase = .rdCheck ∧ r = .d0 ∧ s.d0 = none ∨
      s.phase = .rdCheck ∧ s.d0.isSome = true ∧ r = .d1 ∧ s.d1 = none ∨
      s.phase = .rdCheck ∧ s.d0.isSome = true ∧ s.d1.isSome = true ∧ r = .ck ∧ s.ck = none ∨
      s.phase = .convert ∧ r = .opsel ∧ s.opsel = none ∨
      s.phase = .convert ∧ (s.opsel = some .getTemperature ∨ s.opsel = some .getHumidity) ∧ r = .ret16 ∧ s.ret16 = none ∨
      s.phase = .convert ∧ (s.opsel = some .calcT ∨ s.opsel = some .calcRh) ∧ r = .rawPort ∧ s.rawPort = none ∨
      s.phase = .snSelect ∧ r = .loc ∧ s.loc = none ∨
      (∃ i : Fin 8, s.phase = .snSelect ∧ s.loc = some (BitVec.ofNat 8 i) ∧ r = .sn i ∧ s.sn[i] = none) ∨
      (s.phase = .crcXor ∨ s.phase = .crcShift ∨ s.phase = .crcCompare) ∧ r = .acc ∧ s.acc = none ∨
      s.phase = .crcXor ∧ s.acc.isSome = true ∧ r = .bytei ∧ s.bytei = none ∨
      (∃ i : Byte, s.phase = .crcXor ∧ s.acc.isSome = true ∧ s.bytei = some i ∧ r = .data i.toNat ∧ s.data.length ≤ i.toNat) ∨
      s.phase = .crcShift ∧ s.acc.isSome = true ∧ r = .bitn ∧ s.bitn = none ∨
      s.phase = .crcShift ∧ s.acc.isSome = true ∧ s.bitn.isSome = true ∧ r = .bytei ∧ s.bytei = none ∨
      s.phase = .crcShift ∧ s.acc.isSome = true ∧ s.bitn.isSome = true ∧ s.bytei.isSome = true ∧ r = .len ∧ s.len = none ∨
      s.phase = .crcCompare ∧ s.acc.isSome = true ∧ r = .exp ∧ s.exp = none →
    step s = .next { s with phase := .faulted, cause := some (.uUnwritten r) }

/-- R167: CRC_CHECK is a pure function of its operands: two blocks of the same CRC_INIT, in whatever state, return the same
verdict on the same LEN bytes. Bytes that a caller does not list are free at each call, so they are no operands to compare. -/
def Obligations.CrcCheckIsPure : Prop :=
  ∀ (s s' : State) (data : List Byte) (len expected : Byte), s.pIdle → s'.pIdle → len.toNat ≤ data.length →
    s.params.crcInit = s'.params.crcInit →
    ∃ t t' m, exec (.crcCheck data len expected) s = .next t ∧ exec (.crcCheck data len expected) s' = .next t' ∧
      t.mismatch = some m ∧ t'.mismatch = some m ∧
      t.trace.getLast? = some (.ret (.mismatch m)) ∧ t'.trace.getLast? = some (.ret (.mismatch m))

/-- R168: CRC_BYTE is a table look-up of `acc xor b`, the table is a bijection, and its entry at 0 is 0. -/
def Obligations.CrcTableForm : Prop :=
  (∀ acc b : Byte, crcByte acc b = crcByte 0 (acc ^^^ b)) ∧ Function.Bijective (crcByte 0) ∧ crcByte 0 0 = 0

/-- R169: with CRC_INIT 0 the CRC is linear over GF(2) on sequences of equal length, and 0 on all-zero data. -/
def Obligations.CrcIsLinear : Prop :=
  (∀ u v : List Byte, u.length = v.length →
    crc8 0 (List.zipWith (fun a b => a ^^^ b) u v) = crc8 0 u ^^^ crc8 0 v) ∧
  ∀ n : Nat, crc8 0 (List.replicate n 0) = 0

/-- R169: with CRC_INIT 0 the CRC of a sequence is the remainder of (message polynomial times x^8) divided by
x^8 + x^5 + x^4 + 1: the two differ by a multiple of the generator, and a byte has degree below 8. -/
def Obligations.CrcIsThePolynomialRemainder : Prop :=
  ∀ data : List Byte,
    Gf2.generator ∣ (Gf2.ofBytes data * Polynomial.X ^ 8 - Gf2.ofByte (crc8 0 data)) ∧
    (Gf2.ofByte (crc8 0 data)).degree < Gf2.generator.degree

/-- R170: any corruption confined to one byte of the data, so every single-bit one, changes the CRC, whatever CRC_INIT is; so a
sequence that matched its checksum no longer does. -/
def Obligations.OneCorruptedByteIsDetected : Prop :=
  ∀ (init : Byte) (before after : List Byte) (b e expected : Byte), e ≠ 0 →
    crc8 init (before ++ b :: after) = expected →
    mismatchFlag (crc8 init (before ++ (b ^^^ e) :: after)) expected = true ∧
    mismatchFlag (crc8 init (before ++ b :: after)) (expected ^^^ e) = true

/-- R170: every corruption of one, two or three bits of the 24-bit frame gives a mismatch, whatever CRC_INIT is; and
some four-bit corruption gives a match (bit 7 of D0 with bits 5, 1 and 0 of CK). -/
def Obligations.FrameErrorsUpToThreeBitsAreDetected : Prop :=
  (∀ init d0 d1 ck e0 e1 e2 : Byte, crc8 init [d0, d1] = ck →
    1 ≤ bitsSet e0 + bitsSet e1 + bitsSet e2 → bitsSet e0 + bitsSet e1 + bitsSet e2 ≤ 3 →
    mismatchFlag (crc8 init [d0 ^^^ e0, d1 ^^^ e1]) (ck ^^^ e2) = true) ∧
  ∀ init d0 d1 ck : Byte, crc8 init [d0, d1] = ck → mismatchFlag (crc8 init [d0 ^^^ 0x80, d1]) (ck ^^^ 0x23) = false

/-- R171: the frame matches exactly when the CRC of all three bytes is 0x00. -/
def Obligations.FrameMatchesWhenCrcOfAllThreeIsZero : Prop :=
  ∀ init d0 d1 ck : Byte, mismatchFlag (crc8 init [d0, d1]) ck = false ↔ crc8 init [d0, d1, ck] = 0

/-! ## Device commands and address sequences (spec/45_device_commands.md) -/

/-- R180, R181, R182, R183: each trigger, as READ_HM's operand at RD_SELECT: its class's delay selected, the byte sent, the delay
waited, three bytes requested, and the poll begins. -/
def Obligations.TriggersSelectSendWaitRequest : Prop :=
  ∀ (i : Instr) (c : Byte) (d : Byte) (s : State),
    (i, c, d) ∈ [(.trigTHm, 0xE3, 85), (.trigRhHm, 0xE5, 30), (.trigTNhm, 0xF3, 85), (.trigRhNhm, 0xF5, 30)] →
    s.phase = .rdSelect → s.cmd = some c →
    exec i s = .next { s with
      phase := .rdPoll, dly := some d
      trace := s.trace ++ [.beginTx 0x40, .write c, .endTx, .wait d.toNat, .request 0x40 3] }

/-- R184, R185, R186: the two user-register commands and the soft reset are in neither delay set: as READ_HM's operand each is sent
in step 2 and the operation is undefined from step 3: U_CMD. That DLY is unwritten again is the model's reading of R7 and R204
(DEDUCED, log 14). -/
def Obligations.OtherCommandsFaultAsOperands : Prop :=
  ∀ (i : Instr) (c : Byte) (s : State),
    (i, c) ∈ [(.writeUserReg, 0xE6), (.readUserReg, 0xE7), (.softReset, 0xFE)] →
    s.phase = .rdSelect → s.cmd = some c →
    exec i s = .next { s with
      phase := .faulted, cause := some (.uCmd c), dly := none
      trace := s.trace ++ [.beginTx 0x40, .write c, .endTx] }

/-- R186, R111, R129: SOFT_RESET at RST_SEND is the operation RESET, sent, waited for and returned from; at RD_RECOVER it is the
recovery action, after which READ_HM ends with 1: returned to the host, or handed to the conversion. -/
def Obligations.SoftResetSendsAndWaits : Prop :=
  (∀ s : State, s.phase = .rstSend →
    exec .softReset s = .next { s with phase := .idle, trace := s.trace ++ softResetEvents ++ [.ret .unit] }) ∧
  (∀ s : State, s.phase = .rdRecover → s.opsel = some .readHm →
    exec .softReset s = .next { s with
      phase := .idle, ret16 := some 1, trace := s.trace ++ softResetEvents ++ [.ret (.raw 1)] }) ∧
  ∀ s : State, s.phase = .rdRecover → s.opsel = some .getTemperature ∨ s.opsel = some .getHumidity →
    exec .softReset s = .next { s with phase := .convert, ret16 := some 1, trace := s.trace ++ softResetEvents }

/-- R187, R188: each address sequence at its phase: the two bytes in one transmission, the request for the response, and the wait
for the bytes begins. -/
def Obligations.AddressSequencesSendAndRequest : Prop :=
  (∀ s : State, s.phase = .snAddr1 →
    exec .snAddr1 s = .next { s with
      phase := .snReq1
      trace := s.trace ++ [.beginTx 0x40, .write 0xFA, .write 0x0F, .endTx, .request 0x40 8] }) ∧
  ∀ s : State, s.phase = .snAddr2 →
    exec .snAddr2 s = .next { s with
      phase := .snReq2
      trace := s.trace ++ [.beginTx 0x40, .write 0xFC, .write 0xC9, .endTx, .request 0x40 6] }

/-- The model's choice (log 11), from R46 and R189: a device command or address sequence is refused at a phase whose operation does
not emit it. -/
def Obligations.DeviceWordsOnlyWhereEmitted : Prop :=
  ∀ (i : Instr) (s : State), s.commandWord ≠ some (encode i) → (∀ op p, encode i ≠ .hostop op p) →
    exec i s = .refused .notEmitted

/-! ## Outcomes of an operation (R11, R240) -/

/-- R11, R240: a host operation that is accepted ends at IDLE with a `Ret` as its last event, or in FAULTED; only
GET_SERIAL_NUMBER can be left waiting, in SN_REQ1 or SN_REQ2. -/
def Obligations.AcceptedOperationsEnd : Prop :=
  ∀ (i : Instr) (s t : State) (op : BitVec 4) (p : Ports), encode i = .hostop op p → exec i s = .next t →
    (t.phase = .idle ∧ (∃ v, t.trace.getLast? = some (.ret v))) ∨ t.phase = .faulted ∨
      ((t.phase = .snReq1 ∨ t.phase = .snReq2) ∧ ∃ l, i = .getSerialNumber l)

/-! ## A serial-number operation that has waited (spec/42_serial_number.md) -/

/-- R141, R142, R143, R144, R205: GET_SERIAL_NUMBER goes on from SN_REQ1 when the count reaches 8: eight reads, stored by SN_MAP, the
second address and its request, and then either it waits in SN_REQ2 for a count that was too low, or six reads follow and it returns
the byte at LOC, or, for LOC above 7, faults. That one step runs so far is the model's choice (log 8). -/
def Obligations.SerialNumberResumesFromFirstWait : Prop :=
  ∀ (s : State) (l : Byte), s.phase = .snReq1 → s.quiet = true → s.loc = some l → s.params.snMap.valid = true →
    8 ≤ s.availAnswer 0 →
    (s.availAnswer 1 < 6 → ∃ sn : Vector (Option Byte) 8,
      (∀ (p i : Fin 8), s.params.snMap.store1[p] = some i → sn[i] = some (s.readAnswer p)) ∧
      (∀ i : Fin 8, (∀ p : Fin 8, s.params.snMap.store1[p] ≠ some i) → sn[i] = s.sn[i]) ∧
      step s = .next { s with
        phase := .snReq2, sn := sn
        availIn := s.availIn.drop 2, availDrawn := s.availDrawn + (2 - s.availIn.length)
        readIn := s.readIn.drop 8, readDrawn := s.readDrawn + (8 - s.readIn.length)
        trace := s.trace ++ [.avail (s.availAnswer 0)] ++ readEvents s 8 ++ secondRequestEvents (s.availAnswer 1) }) ∧
    (6 ≤ s.availAnswer 1 → ∃ sn : Vector (Option Byte) 8,
      (∀ (p i : Fin 8), s.params.snMap.store1[p] = some i → sn[i] = some (s.readAnswer p)) ∧
      (∀ (q : Fin 6) (i : Fin 8), s.params.snMap.store2[q] = some i → sn[i] = some (s.readAnswer (8 + q))) ∧
      (∀ h : l.toNat < 8, ∃ b, sn[l.toNat] = some b ∧
        step s = .next { s with
          phase := .idle, sn := sn
          availIn := s.availIn.drop 2, availDrawn := s.availDrawn + (2 - s.availIn.length)
          readIn := s.readIn.drop 14, readDrawn := s.readDrawn + (14 - s.readIn.length)
          trace := s.trace ++ [.avail (s.availAnswer 0)] ++ readEvents s 8 ++ secondRequestEvents (s.availAnswer 1) ++
            ((List.range 6).map fun i => .read (s.readAnswer (8 + i))) ++ [.ret (.serial b)] }) ∧
      (7 < l.toNat →
        step s = .next { s with
          phase := .faulted, cause := some (.uLoc l), sn := sn
          availIn := s.availIn.drop 2, availDrawn := s.availDrawn + (2 - s.availIn.length)
          readIn := s.readIn.drop 14, readDrawn := s.readDrawn + (14 - s.readIn.length)
          trace := s.trace ++ [.avail (s.availAnswer 0)] ++ readEvents s 8 ++ secondRequestEvents (s.availAnswer 1) ++
            (List.range 6).map fun i => .read (s.readAnswer (8 + i)) }))

/-- R142, R143, R144, R205: GET_SERIAL_NUMBER goes on from SN_REQ2 when the count reaches 6: six reads, stored by SN_MAP over what the
first response left, and it returns the byte at LOC, or, for LOC above 7, faults. The indices of the first response have been
written, which StepKeepsWriteBeforeRead says of every run. -/
def Obligations.SerialNumberResumesFromSecondWait : Prop :=
  ∀ (s : State) (l : Byte), s.phase = .snReq2 → s.quiet = true → s.loc = some l → s.params.snMap.valid = true →
    (∀ (p i : Fin 8), s.params.snMap.store1[p] = some i → s.sn[i].isSome = true) → 6 ≤ s.availAnswer 0 →
    ∃ sn : Vector (Option Byte) 8,
      (∀ (q : Fin 6) (i : Fin 8), s.params.snMap.store2[q] = some i → sn[i] = some (s.readAnswer q)) ∧
      (∀ i : Fin 8, (∀ q : Fin 6, s.params.snMap.store2[q] ≠ some i) → sn[i] = s.sn[i]) ∧
      (∀ h : l.toNat < 8, ∃ b, sn[l.toNat] = some b ∧
        step s = .next { s with
          phase := .idle, sn := sn
          availIn := s.availIn.drop 1, availDrawn := s.availDrawn + (1 - s.availIn.length)
          readIn := s.readIn.drop 6, readDrawn := s.readDrawn + (6 - s.readIn.length)
          trace := s.trace ++ [.avail (s.availAnswer 0)] ++ readEvents s 6 ++ [.ret (.serial b)] }) ∧
      (7 < l.toNat →
        step s = .next { s with
          phase := .faulted, cause := some (.uLoc l), sn := sn
          availIn := s.availIn.drop 1, availDrawn := s.availDrawn + (1 - s.availIn.length)
          readIn := s.readIn.drop 6, readDrawn := s.readDrawn + (6 - s.readIn.length)
          trace := s.trace ++ [.avail (s.availAnswer 0)] ++ readEvents s 6 })

/-! ## Bytes left waiting in the transport (spec/70_reset_and_hazards.md R238) -/

/-- R238, R79: the block flushes nothing, so bytes waiting at the `Call` are counted and read before those of this exchange. Three
of them are taken for the frame at the first check, whatever the sensor sends, and one or two are taken for its first bytes.
With O_CLEAN (R242) the frame is the fresh one, and READ_HM returns 0 if fewer than 3 fresh bytes come. That the waiting bytes
stand with the `Call`, and the first-in first-out buffer, are premises on the oracle in the model's form (log 23). -/
def Obligations.StaleBytesAreReadFirst : Prop :=
  ∀ (s : State) (c : HostCall) (rest : List HostInput) (cmd d : Byte) (fresh : List Byte), s.pIdle → s.pBegun →
    s.host = .call c :: rest → c.early = false → decode c.word = .ok (.readHm cmd) →
    (cmd = 0xE5 ∨ cmd = 0xF5) ∧ d = 30 ∨ (cmd = 0xE3 ∨ cmd = 0xF3) ∧ d = 85 → s.oBuffer c fresh →
    (∀ (a b ck : Byte) (more : List Byte), crc8 s.params.crcInit [a, b] = ck →
      (c.waiting = a :: b :: ck :: more → ∃ t, step s = .next t ∧ t.phase = .idle ∧ t.ret16 = some (a ++ b) ∧
        t.trace = s.trace ++ [.call (.readHm cmd)] ++ frameEvents cmd d.toNat s 0 ++
          [.read a, .read b, .read ck, .ret (.raw (a ++ b))]) ∧
      (∀ j ≤ 10, s.oReady 3 j → c.waiting ++ fresh = a :: b :: ck :: more →
        ∃ t, step s = .next t ∧ t.phase = .idle ∧ t.ret16 = some (a ++ b) ∧
          t.trace = s.trace ++ [.call (.readHm cmd)] ++ frameEvents cmd d.toNat s j ++
            [.read a, .read b, .read ck, .ret (.raw (a ++ b))]) ∧
      (∀ j ≤ 10, s.oReady 3 j → c.oClean → fresh = a :: b :: ck :: more →
        ∃ t, step s = .next t ∧ t.phase = .idle ∧ t.ret16 = some (a ++ b) ∧
          t.trace = s.trace ++ [.call (.readHm cmd)] ++ frameEvents cmd d.toNat s j ++
            [.read a, .read b, .read ck, .ret (.raw (a ++ b))])) ∧
    (c.oClean → fresh.length < 3 → ∃ t, step s = .next t ∧ t.phase = .idle ∧ t.ret16 = some 0 ∧
      t.trace = s.trace ++ [.call (.readHm cmd)] ++ frameEvents cmd d.toNat s 10 ++ [.ret (.raw 0)])
end

