-- ==== Sys2Proof/Laws/Crc8.lean ====
section
/-! SUPPORT. The algebra of the CRC steps: linear over GF(2), injective, and determined by the XOR of their arguments (R163,
R168, R169). -/

namespace Sys2Proof.Machine

/-- The step is the eight-bit form (R163). -/
theorem crcBit_eq_crcBit8 (a : Byte) : crcBit a = crcBit8 a := by
  revert a; decide

/-- XOR of two XORs, regrouped. -/
theorem xor_swap (a b c d : Byte) : (a ^^^ b) ^^^ (c ^^^ d) = (a ^^^ c) ^^^ (b ^^^ d) := by
  ext i hi
  simp only [BitVec.getElem_xor, Bool.xor_assoc, Bool.xor_left_comm]

/-- The step is linear (R169). -/
theorem crcBit_xor (a b : Byte) : crcBit (a ^^^ b) = crcBit a ^^^ crcBit b := by
  rw [crcBit_eq_crcBit8, crcBit_eq_crcBit8, crcBit_eq_crcBit8]
  unfold crcBit8
  rw [BitVec.getLsbD_xor, BitVec.shiftLeft_xor_distrib]
  cases a.getLsbD 7 <;> cases b.getLsbD 7
  · simp
  · simp [BitVec.xor_assoc]
  · simpa using xor_swap (a <<< 1) (b <<< 1) poly8 0
  · simpa using xor_swap (a <<< 1) (b <<< 1) poly8 poly8

/-- n steps are linear. -/
theorem crcBits_xor (n : Nat) (a b : Byte) : crcBits n (a ^^^ b) = crcBits n a ^^^ crcBits n b := by
  induction n generalizing a b with
  | zero => rfl
  | succ n ih => rw [crcBits, crcBits, crcBits, crcBit_xor, ih]

/-- The zero accumulator stays zero. -/
theorem crcBits_zero (n : Nat) : crcBits n 0 = 0 := by
  induction n with
  | zero => rfl
  | succ n ih => exact ih

/-- The table form: a byte step depends on the XOR of its arguments only (R168). -/
theorem crcByte_eq (acc b : Byte) : crcByte acc b = crcBits 8 (acc ^^^ b) := rfl

/-- A byte step is linear in its pair of arguments. -/
theorem crcByte_xor (a a' b b' : Byte) : crcByte (a ^^^ a') (b ^^^ b') = crcByte a b ^^^ crcByte a' b' := by
  rw [crcByte_eq, crcByte_eq, crcByte_eq, ← crcBits_xor]
  exact congrArg _ (xor_swap a a' b b')

/-- The CRC of the XOR of two sequences of one length, from the XOR of two starting values (R169). -/
theorem crc8_xor (i j : Byte) (u v : List Byte) (h : u.length = v.length) :
    crc8 (i ^^^ j) (List.zipWith (fun a b => a ^^^ b) u v) = crc8 i u ^^^ crc8 j v := by
  induction u generalizing i j v with
  | nil =>
    obtain rfl : v = [] := by simpa using h.symm
    rfl
  | cons a u ih =>
    cases v with
    | nil => simp at h
    | cons b v =>
      have := ih (crcByte i a) (crcByte j b) v (by simpa using h)
      rw [← crcByte_xor] at this
      exact this

/-- The step has an inverse, so it is injective (R168). -/
theorem crcBit_injective : Function.Injective crcBit := by
  intro a b h
  have : ∀ c : Byte, crcBit c = 0 → c = 0 := by decide
  have hz := this (a ^^^ b) (by rw [crcBit_xor, h, BitVec.xor_self]; rfl)
  exact BitVec.xor_eq_zero_iff.1 hz

theorem crcBits_injective (n : Nat) : Function.Injective (crcBits n) := by
  induction n with
  | zero => exact fun _ _ h => h
  | succ n ih => exact fun _ _ h => crcBit_injective (ih h)

/-- The CRC is injective in its starting value. -/
theorem crc8_injective (data : List Byte) : Function.Injective fun init => crc8 init data := by
  induction data with
  | nil => exact fun _ _ h => h
  | cons b data ih =>
    intro i j h
    exact BitVec.xor_left_inj b |>.1 (crcBits_injective 8 (ih h))

theorem crc8_append (init : Byte) (u v : List Byte) : crc8 init (u ++ v) = crc8 (crc8 init u) v := List.foldl_append

theorem crc8_cons (init b : Byte) (u : List Byte) : crc8 init (b :: u) = crc8 (crcByte init b) u := rfl

end Sys2Proof.Machine
end

