-- ==== Sys2Proof/Laws/State.lean ====
section
/-! SUPPORT. One lemma per field per named update of State, each true by definition, so that no later proof unfolds a record
update. -/

namespace Sys2Proof.Machine

variable (s : State)

/-! ### State.emit -/

@[simp] theorem State.emit_phase (e : Event) : (s.emit e).phase = s.phase := rfl
@[simp] theorem State.emit_begun (e : Event) : (s.emit e).begun = s.begun := rfl
@[simp] theorem State.emit_opsel (e : Event) : (s.emit e).opsel = s.opsel := rfl
@[simp] theorem State.emit_cmd (e : Event) : (s.emit e).cmd = s.cmd := rfl
@[simp] theorem State.emit_dly (e : Event) : (s.emit e).dly = s.dly := rfl
@[simp] theorem State.emit_n (e : Event) : (s.emit e).n = s.n := rfl
@[simp] theorem State.emit_d0 (e : Event) : (s.emit e).d0 = s.d0 := rfl
@[simp] theorem State.emit_d1 (e : Event) : (s.emit e).d1 = s.d1 := rfl
@[simp] theorem State.emit_ck (e : Event) : (s.emit e).ck = s.ck := rfl
@[simp] theorem State.emit_raw (e : Event) : (s.emit e).raw = s.raw := rfl
@[simp] theorem State.emit_ret16 (e : Event) : (s.emit e).ret16 = s.ret16 := rfl
@[simp] theorem State.emit_acc (e : Event) : (s.emit e).acc = s.acc := rfl
@[simp] theorem State.emit_bytei (e : Event) : (s.emit e).bytei = s.bytei := rfl
@[simp] theorem State.emit_bitn (e : Event) : (s.emit e).bitn = s.bitn := rfl
@[simp] theorem State.emit_data (e : Event) : (s.emit e).data = s.data := rfl
@[simp] theorem State.emit_len (e : Event) : (s.emit e).len = s.len := rfl
@[simp] theorem State.emit_exp (e : Event) : (s.emit e).exp = s.exp := rfl
@[simp] theorem State.emit_mismatch (e : Event) : (s.emit e).mismatch = s.mismatch := rfl
@[simp] theorem State.emit_loc (e : Event) : (s.emit e).loc = s.loc := rfl
@[simp] theorem State.emit_sn (e : Event) : (s.emit e).sn = s.sn := rfl
@[simp] theorem State.emit_tnum (e : Event) : (s.emit e).tnum = s.tnum := rfl
@[simp] theorem State.emit_rhnum (e : Event) : (s.emit e).rhnum = s.rhnum := rfl
@[simp] theorem State.emit_rawPort (e : Event) : (s.emit e).rawPort = s.rawPort := rfl
@[simp] theorem State.emit_cause (e : Event) : (s.emit e).cause = s.cause := rfl
@[simp] theorem State.emit_trace (e : Event) : (s.emit e).trace = s.trace ++ [e] := rfl
@[simp] theorem State.emit_host (e : Event) : (s.emit e).host = s.host := rfl
@[simp] theorem State.emit_availIn (e : Event) : (s.emit e).availIn = s.availIn := rfl
@[simp] theorem State.emit_readIn (e : Event) : (s.emit e).readIn = s.readIn := rfl
@[simp] theorem State.emit_availDrawn (e : Event) : (s.emit e).availDrawn = s.availDrawn := rfl
@[simp] theorem State.emit_readDrawn (e : Event) : (s.emit e).readDrawn = s.readDrawn := rfl
@[simp] theorem State.emit_dataDrawn (e : Event) : (s.emit e).dataDrawn = s.dataDrawn := rfl
@[simp] theorem State.emit_params (e : Event) : (s.emit e).params = s.params := rfl

/-! ### State.emits -/

@[simp] theorem State.emits_phase (es : List Event) : (s.emits es).phase = s.phase := rfl
@[simp] theorem State.emits_begun (es : List Event) : (s.emits es).begun = s.begun := rfl
@[simp] theorem State.emits_opsel (es : List Event) : (s.emits es).opsel = s.opsel := rfl
@[simp] theorem State.emits_cmd (es : List Event) : (s.emits es).cmd = s.cmd := rfl
@[simp] theorem State.emits_dly (es : List Event) : (s.emits es).dly = s.dly := rfl
@[simp] theorem State.emits_n (es : List Event) : (s.emits es).n = s.n := rfl
@[simp] theorem State.emits_d0 (es : List Event) : (s.emits es).d0 = s.d0 := rfl
@[simp] theorem State.emits_d1 (es : List Event) : (s.emits es).d1 = s.d1 := rfl
@[simp] theorem State.emits_ck (es : List Event) : (s.emits es).ck = s.ck := rfl
@[simp] theorem State.emits_raw (es : List Event) : (s.emits es).raw = s.raw := rfl
@[simp] theorem State.emits_ret16 (es : List Event) : (s.emits es).ret16 = s.ret16 := rfl
@[simp] theorem State.emits_acc (es : List Event) : (s.emits es).acc = s.acc := rfl
@[simp] theorem State.emits_bytei (es : List Event) : (s.emits es).bytei = s.bytei := rfl
@[simp] theorem State.emits_bitn (es : List Event) : (s.emits es).bitn = s.bitn := rfl
@[simp] theorem State.emits_data (es : List Event) : (s.emits es).data = s.data := rfl
@[simp] theorem State.emits_len (es : List Event) : (s.emits es).len = s.len := rfl
@[simp] theorem State.emits_exp (es : List Event) : (s.emits es).exp = s.exp := rfl
@[simp] theorem State.emits_mismatch (es : List Event) : (s.emits es).mismatch = s.mismatch := rfl
@[simp] theorem State.emits_loc (es : List Event) : (s.emits es).loc = s.loc := rfl
@[simp] theorem State.emits_sn (es : List Event) : (s.emits es).sn = s.sn := rfl
@[simp] theorem State.emits_tnum (es : List Event) : (s.emits es).tnum = s.tnum := rfl
@[simp] theorem State.emits_rhnum (es : List Event) : (s.emits es).rhnum = s.rhnum := rfl
@[simp] theorem State.emits_rawPort (es : List Event) : (s.emits es).rawPort = s.rawPort := rfl
@[simp] theorem State.emits_cause (es : List Event) : (s.emits es).cause = s.cause := rfl
@[simp] theorem State.emits_trace (es : List Event) : (s.emits es).trace = s.trace ++ es := rfl
@[simp] theorem State.emits_host (es : List Event) : (s.emits es).host = s.host := rfl
@[simp] theorem State.emits_availIn (es : List Event) : (s.emits es).availIn = s.availIn := rfl
@[simp] theorem State.emits_readIn (es : List Event) : (s.emits es).readIn = s.readIn := rfl
@[simp] theorem State.emits_availDrawn (es : List Event) : (s.emits es).availDrawn = s.availDrawn := rfl
@[simp] theorem State.emits_readDrawn (es : List Event) : (s.emits es).readDrawn = s.readDrawn := rfl
@[simp] theorem State.emits_dataDrawn (es : List Event) : (s.emits es).dataDrawn = s.dataDrawn := rfl
@[simp] theorem State.emits_params (es : List Event) : (s.emits es).params = s.params := rfl

/-! ### State.goto -/

@[simp] theorem State.goto_phase (p : Phase) : (s.goto p).phase = p := rfl
@[simp] theorem State.goto_begun (p : Phase) : (s.goto p).begun = s.begun := rfl
@[simp] theorem State.goto_opsel (p : Phase) : (s.goto p).opsel = s.opsel := rfl
@[simp] theorem State.goto_cmd (p : Phase) : (s.goto p).cmd = s.cmd := rfl
@[simp] theorem State.goto_dly (p : Phase) : (s.goto p).dly = s.dly := rfl
@[simp] theorem State.goto_n (p : Phase) : (s.goto p).n = s.n := rfl
@[simp] theorem State.goto_d0 (p : Phase) : (s.goto p).d0 = s.d0 := rfl
@[simp] theorem State.goto_d1 (p : Phase) : (s.goto p).d1 = s.d1 := rfl
@[simp] theorem State.goto_ck (p : Phase) : (s.goto p).ck = s.ck := rfl
@[simp] theorem State.goto_raw (p : Phase) : (s.goto p).raw = s.raw := rfl
@[simp] theorem State.goto_ret16 (p : Phase) : (s.goto p).ret16 = s.ret16 := rfl
@[simp] theorem State.goto_acc (p : Phase) : (s.goto p).acc = s.acc := rfl
@[simp] theorem State.goto_bytei (p : Phase) : (s.goto p).bytei = s.bytei := rfl
@[simp] theorem State.goto_bitn (p : Phase) : (s.goto p).bitn = s.bitn := rfl
@[simp] theorem State.goto_data (p : Phase) : (s.goto p).data = s.data := rfl
@[simp] theorem State.goto_len (p : Phase) : (s.goto p).len = s.len := rfl
@[simp] theorem State.goto_exp (p : Phase) : (s.goto p).exp = s.exp := rfl
@[simp] theorem State.goto_mismatch (p : Phase) : (s.goto p).mismatch = s.mismatch := rfl
@[simp] theorem State.goto_loc (p : Phase) : (s.goto p).loc = s.loc := rfl
@[simp] theorem State.goto_sn (p : Phase) : (s.goto p).sn = s.sn := rfl
@[simp] theorem State.goto_tnum (p : Phase) : (s.goto p).tnum = s.tnum := rfl
@[simp] theorem State.goto_rhnum (p : Phase) : (s.goto p).rhnum = s.rhnum := rfl
@[simp] theorem State.goto_rawPort (p : Phase) : (s.goto p).rawPort = s.rawPort := rfl
@[simp] theorem State.goto_cause (p : Phase) : (s.goto p).cause = s.cause := rfl
@[simp] theorem State.goto_trace (p : Phase) : (s.goto p).trace = s.trace := rfl
@[simp] theorem State.goto_host (p : Phase) : (s.goto p).host = s.host := rfl
@[simp] theorem State.goto_availIn (p : Phase) : (s.goto p).availIn = s.availIn := rfl
@[simp] theorem State.goto_readIn (p : Phase) : (s.goto p).readIn = s.readIn := rfl
@[simp] theorem State.goto_availDrawn (p : Phase) : (s.goto p).availDrawn = s.availDrawn := rfl
@[simp] theorem State.goto_readDrawn (p : Phase) : (s.goto p).readDrawn = s.readDrawn := rfl
@[simp] theorem State.goto_dataDrawn (p : Phase) : (s.goto p).dataDrawn = s.dataDrawn := rfl
@[simp] theorem State.goto_params (p : Phase) : (s.goto p).params = s.params := rfl

/-! ### State.raise -/

@[simp] theorem State.raise_phase (f : Fault) : (s.raise f).phase = .faulted := rfl
@[simp] theorem State.raise_begun (f : Fault) : (s.raise f).begun = s.begun := rfl
@[simp] theorem State.raise_opsel (f : Fault) : (s.raise f).opsel = s.opsel := rfl
@[simp] theorem State.raise_cmd (f : Fault) : (s.raise f).cmd = s.cmd := rfl
@[simp] theorem State.raise_dly (f : Fault) : (s.raise f).dly = s.dly := rfl
@[simp] theorem State.raise_n (f : Fault) : (s.raise f).n = s.n := rfl
@[simp] theorem State.raise_d0 (f : Fault) : (s.raise f).d0 = s.d0 := rfl
@[simp] theorem State.raise_d1 (f : Fault) : (s.raise f).d1 = s.d1 := rfl
@[simp] theorem State.raise_ck (f : Fault) : (s.raise f).ck = s.ck := rfl
@[simp] theorem State.raise_raw (f : Fault) : (s.raise f).raw = s.raw := rfl
@[simp] theorem State.raise_ret16 (f : Fault) : (s.raise f).ret16 = s.ret16 := rfl
@[simp] theorem State.raise_acc (f : Fault) : (s.raise f).acc = s.acc := rfl
@[simp] theorem State.raise_bytei (f : Fault) : (s.raise f).bytei = s.bytei := rfl
@[simp] theorem State.raise_bitn (f : Fault) : (s.raise f).bitn = s.bitn := rfl
@[simp] theorem State.raise_data (f : Fault) : (s.raise f).data = s.data := rfl
@[simp] theorem State.raise_len (f : Fault) : (s.raise f).len = s.len := rfl
@[simp] theorem State.raise_exp (f : Fault) : (s.raise f).exp = s.exp := rfl
@[simp] theorem State.raise_mismatch (f : Fault) : (s.raise f).mismatch = s.mismatch := rfl
@[simp] theorem State.raise_loc (f : Fault) : (s.raise f).loc = s.loc := rfl
@[simp] theorem State.raise_sn (f : Fault) : (s.raise f).sn = s.sn := rfl
@[simp] theorem State.raise_tnum (f : Fault) : (s.raise f).tnum = s.tnum := rfl
@[simp] theorem State.raise_rhnum (f : Fault) : (s.raise f).rhnum = s.rhnum := rfl
@[simp] theorem State.raise_rawPort (f : Fault) : (s.raise f).rawPort = s.rawPort := rfl
@[simp] theorem State.raise_cause (f : Fault) : (s.raise f).cause = some f := rfl
@[simp] theorem State.raise_trace (f : Fault) : (s.raise f).trace = s.trace := rfl
@[simp] theorem State.raise_host (f : Fault) : (s.raise f).host = s.host := rfl
@[simp] theorem State.raise_availIn (f : Fault) : (s.raise f).availIn = s.availIn := rfl
@[simp] theorem State.raise_readIn (f : Fault) : (s.raise f).readIn = s.readIn := rfl
@[simp] theorem State.raise_availDrawn (f : Fault) : (s.raise f).availDrawn = s.availDrawn := rfl
@[simp] theorem State.raise_readDrawn (f : Fault) : (s.raise f).readDrawn = s.readDrawn := rfl
@[simp] theorem State.raise_dataDrawn (f : Fault) : (s.raise f).dataDrawn = s.dataDrawn := rfl
@[simp] theorem State.raise_params (f : Fault) : (s.raise f).params = s.params := rfl

/-! ### State.afterAvails -/

@[simp] theorem State.afterAvails_phase (k : Nat) : (s.afterAvails k).phase = s.phase := rfl
@[simp] theorem State.afterAvails_begun (k : Nat) : (s.afterAvails k).begun = s.begun := rfl
@[simp] theorem State.afterAvails_opsel (k : Nat) : (s.afterAvails k).opsel = s.opsel := rfl
@[simp] theorem State.afterAvails_cmd (k : Nat) : (s.afterAvails k).cmd = s.cmd := rfl
@[simp] theorem State.afterAvails_dly (k : Nat) : (s.afterAvails k).dly = s.dly := rfl
@[simp] theorem State.afterAvails_n (k : Nat) : (s.afterAvails k).n = s.n := rfl
@[simp] theorem State.afterAvails_d0 (k : Nat) : (s.afterAvails k).d0 = s.d0 := rfl
@[simp] theorem State.afterAvails_d1 (k : Nat) : (s.afterAvails k).d1 = s.d1 := rfl
@[simp] theorem State.afterAvails_ck (k : Nat) : (s.afterAvails k).ck = s.ck := rfl
@[simp] theorem State.afterAvails_raw (k : Nat) : (s.afterAvails k).raw = s.raw := rfl
@[simp] theorem State.afterAvails_ret16 (k : Nat) : (s.afterAvails k).ret16 = s.ret16 := rfl
@[simp] theorem State.afterAvails_acc (k : Nat) : (s.afterAvails k).acc = s.acc := rfl
@[simp] theorem State.afterAvails_bytei (k : Nat) : (s.afterAvails k).bytei = s.bytei := rfl
@[simp] theorem State.afterAvails_bitn (k : Nat) : (s.afterAvails k).bitn = s.bitn := rfl
@[simp] theorem State.afterAvails_data (k : Nat) : (s.afterAvails k).data = s.data := rfl
@[simp] theorem State.afterAvails_len (k : Nat) : (s.afterAvails k).len = s.len := rfl
@[simp] theorem State.afterAvails_exp (k : Nat) : (s.afterAvails k).exp = s.exp := rfl
@[simp] theorem State.afterAvails_mismatch (k : Nat) : (s.afterAvails k).mismatch = s.mismatch := rfl
@[simp] theorem State.afterAvails_loc (k : Nat) : (s.afterAvails k).loc = s.loc := rfl
@[simp] theorem State.afterAvails_sn (k : Nat) : (s.afterAvails k).sn = s.sn := rfl
@[simp] theorem State.afterAvails_tnum (k : Nat) : (s.afterAvails k).tnum = s.tnum := rfl
@[simp] theorem State.afterAvails_rhnum (k : Nat) : (s.afterAvails k).rhnum = s.rhnum := rfl
@[simp] theorem State.afterAvails_rawPort (k : Nat) : (s.afterAvails k).rawPort = s.rawPort := rfl
@[simp] theorem State.afterAvails_cause (k : Nat) : (s.afterAvails k).cause = s.cause := rfl
@[simp] theorem State.afterAvails_trace (k : Nat) : (s.afterAvails k).trace = s.trace := rfl
@[simp] theorem State.afterAvails_host (k : Nat) : (s.afterAvails k).host = s.host := rfl
@[simp] theorem State.afterAvails_availIn (k : Nat) : (s.afterAvails k).availIn = s.availIn.drop k := rfl
@[simp] theorem State.afterAvails_readIn (k : Nat) : (s.afterAvails k).readIn = s.readIn := rfl
@[simp] theorem State.afterAvails_availDrawn (k : Nat) : (s.afterAvails k).availDrawn = s.availDrawn + (k - s.availIn.length) := rfl
@[simp] theorem State.afterAvails_readDrawn (k : Nat) : (s.afterAvails k).readDrawn = s.readDrawn := rfl
@[simp] theorem State.afterAvails_dataDrawn (k : Nat) : (s.afterAvails k).dataDrawn = s.dataDrawn := rfl
@[simp] theorem State.afterAvails_params (k : Nat) : (s.afterAvails k).params = s.params := rfl

/-! ### State.afterReads -/

@[simp] theorem State.afterReads_phase (k : Nat) : (s.afterReads k).phase = s.phase := rfl
@[simp] theorem State.afterReads_begun (k : Nat) : (s.afterReads k).begun = s.begun := rfl
@[simp] theorem State.afterReads_opsel (k : Nat) : (s.afterReads k).opsel = s.opsel := rfl
@[simp] theorem State.afterReads_cmd (k : Nat) : (s.afterReads k).cmd = s.cmd := rfl
@[simp] theorem State.afterReads_dly (k : Nat) : (s.afterReads k).dly = s.dly := rfl
@[simp] theorem State.afterReads_n (k : Nat) : (s.afterReads k).n = s.n := rfl
@[simp] theorem State.afterReads_d0 (k : Nat) : (s.afterReads k).d0 = s.d0 := rfl
@[simp] theorem State.afterReads_d1 (k : Nat) : (s.afterReads k).d1 = s.d1 := rfl
@[simp] theorem State.afterReads_ck (k : Nat) : (s.afterReads k).ck = s.ck := rfl
@[simp] theorem State.afterReads_raw (k : Nat) : (s.afterReads k).raw = s.raw := rfl
@[simp] theorem State.afterReads_ret16 (k : Nat) : (s.afterReads k).ret16 = s.ret16 := rfl
@[simp] theorem State.afterReads_acc (k : Nat) : (s.afterReads k).acc = s.acc := rfl
@[simp] theorem State.afterReads_bytei (k : Nat) : (s.afterReads k).bytei = s.bytei := rfl
@[simp] theorem State.afterReads_bitn (k : Nat) : (s.afterReads k).bitn = s.bitn := rfl
@[simp] theorem State.afterReads_data (k : Nat) : (s.afterReads k).data = s.data := rfl
@[simp] theorem State.afterReads_len (k : Nat) : (s.afterReads k).len = s.len := rfl
@[simp] theorem State.afterReads_exp (k : Nat) : (s.afterReads k).exp = s.exp := rfl
@[simp] theorem State.afterReads_mismatch (k : Nat) : (s.afterReads k).mismatch = s.mismatch := rfl
@[simp] theorem State.afterReads_loc (k : Nat) : (s.afterReads k).loc = s.loc := rfl
@[simp] theorem State.afterReads_sn (k : Nat) : (s.afterReads k).sn = s.sn := rfl
@[simp] theorem State.afterReads_tnum (k : Nat) : (s.afterReads k).tnum = s.tnum := rfl
@[simp] theorem State.afterReads_rhnum (k : Nat) : (s.afterReads k).rhnum = s.rhnum := rfl
@[simp] theorem State.afterReads_rawPort (k : Nat) : (s.afterReads k).rawPort = s.rawPort := rfl
@[simp] theorem State.afterReads_cause (k : Nat) : (s.afterReads k).cause = s.cause := rfl
@[simp] theorem State.afterReads_trace (k : Nat) : (s.afterReads k).trace = s.trace := rfl
@[simp] theorem State.afterReads_host (k : Nat) : (s.afterReads k).host = s.host := rfl
@[simp] theorem State.afterReads_availIn (k : Nat) : (s.afterReads k).availIn = s.availIn := rfl
@[simp] theorem State.afterReads_readIn (k : Nat) : (s.afterReads k).readIn = s.readIn.drop k := rfl
@[simp] theorem State.afterReads_availDrawn (k : Nat) : (s.afterReads k).availDrawn = s.availDrawn := rfl
@[simp] theorem State.afterReads_readDrawn (k : Nat) : (s.afterReads k).readDrawn = s.readDrawn + (k - s.readIn.length) := rfl
@[simp] theorem State.afterReads_dataDrawn (k : Nat) : (s.afterReads k).dataDrawn = s.dataDrawn := rfl
@[simp] theorem State.afterReads_params (k : Nat) : (s.afterReads k).params = s.params := rfl

/-! ### State.popHost -/

@[simp] theorem State.popHost_phase : (s.popHost).phase = s.phase := rfl
@[simp] theorem State.popHost_begun : (s.popHost).begun = s.begun := rfl
@[simp] theorem State.popHost_opsel : (s.popHost).opsel = s.opsel := rfl
@[simp] theorem State.popHost_cmd : (s.popHost).cmd = s.cmd := rfl
@[simp] theorem State.popHost_dly : (s.popHost).dly = s.dly := rfl
@[simp] theorem State.popHost_n : (s.popHost).n = s.n := rfl
@[simp] theorem State.popHost_d0 : (s.popHost).d0 = s.d0 := rfl
@[simp] theorem State.popHost_d1 : (s.popHost).d1 = s.d1 := rfl
@[simp] theorem State.popHost_ck : (s.popHost).ck = s.ck := rfl
@[simp] theorem State.popHost_raw : (s.popHost).raw = s.raw := rfl
@[simp] theorem State.popHost_ret16 : (s.popHost).ret16 = s.ret16 := rfl
@[simp] theorem State.popHost_acc : (s.popHost).acc = s.acc := rfl
@[simp] theorem State.popHost_bytei : (s.popHost).bytei = s.bytei := rfl
@[simp] theorem State.popHost_bitn : (s.popHost).bitn = s.bitn := rfl
@[simp] theorem State.popHost_data : (s.popHost).data = s.data := rfl
@[simp] theorem State.popHost_len : (s.popHost).len = s.len := rfl
@[simp] theorem State.popHost_exp : (s.popHost).exp = s.exp := rfl
@[simp] theorem State.popHost_mismatch : (s.popHost).mismatch = s.mismatch := rfl
@[simp] theorem State.popHost_loc : (s.popHost).loc = s.loc := rfl
@[simp] theorem State.popHost_sn : (s.popHost).sn = s.sn := rfl
@[simp] theorem State.popHost_tnum : (s.popHost).tnum = s.tnum := rfl
@[simp] theorem State.popHost_rhnum : (s.popHost).rhnum = s.rhnum := rfl
@[simp] theorem State.popHost_rawPort : (s.popHost).rawPort = s.rawPort := rfl
@[simp] theorem State.popHost_cause : (s.popHost).cause = s.cause := rfl
@[simp] theorem State.popHost_trace : (s.popHost).trace = s.trace := rfl
@[simp] theorem State.popHost_host : (s.popHost).host = s.host.tail := rfl
@[simp] theorem State.popHost_availIn : (s.popHost).availIn = s.availIn := rfl
@[simp] theorem State.popHost_readIn : (s.popHost).readIn = s.readIn := rfl
@[simp] theorem State.popHost_availDrawn : (s.popHost).availDrawn = s.availDrawn := rfl
@[simp] theorem State.popHost_readDrawn : (s.popHost).readDrawn = s.readDrawn := rfl
@[simp] theorem State.popHost_dataDrawn : (s.popHost).dataDrawn = s.dataDrawn := rfl
@[simp] theorem State.popHost_params : (s.popHost).params = s.params := rfl

end Sys2Proof.Machine
end

