-- ==== Sys2Proof/Laws/Ops.lean ====
section
/-! SUPPORT. What the named operations do: the log, the oracle's answers from any point on, the transport primitives, the ends of
an operation, and the shape of the traces they leave. -/

namespace Sys2Proof.Machine

/-! ## The oracle -/

/-- The answers after k more `Avail` calls are the answers from the k-th on. -/
@[simp] theorem availAnswer_afterAvails (s : State) (k j : Nat) :
    (s.afterAvails k).availAnswer j = s.availAnswer (k + j) := by
  simp only [State.availAnswer, State.afterAvails_availIn, State.afterAvails_availDrawn, List.getElem?_drop, List.length_drop]
  by_cases h : k + j < s.availIn.length
  · simp [List.getElem?_eq_getElem h]
  · have h' : s.availIn[k + j]? = none := List.getElem?_eq_none (by omega)
    simp only [h', Option.getD_none]
    congr 1
    omega

@[simp] theorem dataPort_length (data : List Byte) (len drawn : Nat) : (dataPort data len drawn).length = len := by
  simp only [dataPort, List.length_append, List.length_take, List.length_map, List.length_range]
  omega

/-- A caller that lists all bytes passes those. -/
theorem dataPort_full (data : List Byte) (len drawn : Nat) (h : len ≤ data.length) :
    dataPort data len drawn = data.take len := by
  simp [dataPort, Nat.sub_eq_zero_of_le h]

/-- The answers after k more `Read` calls are the answers from the k-th on. -/
@[simp] theorem readAnswer_afterReads (s : State) (k j : Nat) :
    (s.afterReads k).readAnswer j = s.readAnswer (k + j) := by
  simp only [State.readAnswer, State.afterReads_readIn, State.afterReads_readDrawn, List.getElem?_drop, List.length_drop]
  by_cases h : k + j < s.readIn.length
  · simp [List.getElem?_eq_getElem h]
  · have h' : s.readIn[k + j]? = none := List.getElem?_eq_none (by omega)
    simp only [h', Option.getD_none]
    congr 1
    omega

/-- Successive draws of `Avail` answers add up. -/
theorem availDrawn_add (len d k j : Nat) : d + (k - len) + (j - (len - k)) = d + (k + j - len) := by omega

/-- The answers depend on the two oracle fields alone. -/
theorem availAnswer_congr {s t : State} (h : t.availIn = s.availIn) (h' : t.availDrawn = s.availDrawn) (j : Nat) :
    t.availAnswer j = s.availAnswer j := by
  simp only [State.availAnswer, h, h']

theorem readAnswer_congr {s t : State} (h : t.readIn = s.readIn) (h' : t.readDrawn = s.readDrawn) (j : Nat) :
    t.readAnswer j = s.readAnswer j := by
  simp only [State.readAnswer, h, h']

/-! ## The transport primitives and the ends of an operation, as record updates -/

theorem doBeginSession_eq (s : State) : doBeginSession s = { s with trace := s.trace ++ [.beginSession] } := rfl

theorem doTx_eq (bs : List Byte) (s : State) :
    doTx bs s = { s with trace := s.trace ++ (.beginTx 0x40 :: (bs.map .write ++ [.endTx])) } := rfl

theorem doRequest_eq (n : Nat) (s : State) : doRequest n s = { s with trace := s.trace ++ [.request 0x40 n] } := rfl

theorem doWait_eq (ms : Nat) (s : State) : doWait ms s = { s with trace := s.trace ++ [.wait ms] } := rfl

theorem doAvail_eq (s : State) :
    doAvail s = { s with
      availIn := s.availIn.drop 1, availDrawn := s.availDrawn + (1 - s.availIn.length)
      trace := s.trace ++ [.avail (s.availAnswer 0)] } := rfl

theorem doRead_eq (s : State) :
    doRead s = { s with
      readIn := s.readIn.drop 1, readDrawn := s.readDrawn + (1 - s.readIn.length)
      trace := s.trace ++ [.read (s.readAnswer 0)] } := rfl

@[simp] theorem availAnswer_doAvail (s : State) (j : Nat) : (doAvail s).availAnswer j = s.availAnswer (1 + j) :=
  availAnswer_afterAvails s 1 j

@[simp] theorem readAnswer_doRead (s : State) (j : Nat) : (doRead s).readAnswer j = s.readAnswer (1 + j) :=
  readAnswer_afterReads s 1 j

theorem endOp_eq (v : RetVal) (s : State) :
    endOp v s = { s with phase := .idle, trace := s.trace ++ [.ret v] } := rfl

theorem raise_eq (f : Fault) (s : State) : s.raise f = { s with phase := .faulted, cause := some f } := rfl

@[simp] theorem readReg_some {α : Type} (v : α) (name : RegName) (s : State) (k : α → State) :
    readReg (some v) name s k = k v := rfl

@[simp] theorem readReg_none {α : Type} (name : RegName) (s : State) (k : α → State) :
    readReg (none : Option α) name s k = s.raise (.uUnwritten name) := rfl

/-- READ_HM ends in one of three ways: returned to the host, handed to the conversion, or, with no continuation, a fault. -/
theorem finishReadHm_cases (v : RawCode) (s : State) :
    (s.opsel = some .readHm ∧
      finishReadHm v s = { s with ret16 := some v, phase := .idle, trace := s.trace ++ [.ret (.raw v)] }) ∨
    ((s.opsel = some .getTemperature ∨ s.opsel = some .getHumidity) ∧
      finishReadHm v s = { s with ret16 := some v, phase := .convert }) ∨
    ((∀ op, s.opsel = some op → op.measures = false) ∧
      ∃ f, finishReadHm v s = { s with ret16 := some v, phase := .faulted, cause := some f }) := by
  unfold finishReadHm
  rcases h : s.opsel with _ | op
  · exact .inr (.inr ⟨by simp, _, rfl⟩)
  · cases op
    case readHm => exact .inl ⟨rfl, rfl⟩
    case getTemperature => exact .inr (.inl ⟨.inl rfl, rfl⟩)
    case getHumidity => exact .inr (.inl ⟨.inr rfl, rfl⟩)
    all_goals exact .inr (.inr ⟨by rintro op ⟨⟩; rfl, _, rfl⟩)

/-! ## Event sequences -/

theorem retryEvents_zero (s : State) : retryEvents s 0 = [] := rfl

/-- One failed check first, then the rest of the retries. -/
theorem retryEvents_succ (s : State) (j : Nat) :
    retryEvents s (j + 1) = [.avail (s.availAnswer 0), .wait 10] ++ retryEvents (s.afterAvails 1) j := by
  simp [retryEvents, List.range_succ_eq_map, List.flatMap_map, Nat.add_comm]

theorem retryEvents_congr {s t : State} (h : t.availIn = s.availIn) (h' : t.availDrawn = s.availDrawn) (j : Nat) :
    retryEvents t j = retryEvents s j := by
  simp only [retryEvents, availAnswer_congr h h']

theorem readEvents_congr {s t : State} (h : t.readIn = s.readIn) (h' : t.readDrawn = s.readDrawn) (n : Nat) :
    readEvents t n = readEvents s n := by
  simp only [readEvents, readAnswer_congr h h']

@[simp] theorem waitSum_append (es fs : List Event) : waitSum (es ++ fs) = waitSum es + waitSum fs := by
  induction es with
  | nil => simp [waitSum]
  | cons e es ih => cases e <;> simp [waitSum, ih, Nat.add_assoc]

theorem waitSum_retryEvents (s : State) (j : Nat) : waitSum (retryEvents s j) = 10 * j := by
  induction j generalizing s with
  | zero => rfl
  | succ j ih => rw [retryEvents_succ, waitSum_append, ih]; simp [waitSum]; omega

/-! ## Legal traces -/

theorem traceRun_append (m : TraceMode) (es fs : List Event) :
    m.run (es ++ fs) = (m.run es).bind fun m' => m'.run fs := by
  induction es generalizing m with
  | nil => rfl
  | cons e es ih =>
    simp only [List.cons_append, TraceMode.run]
    cases m.next e with
    | none => rfl
    | some m' => simpa using ih m'

/-- A legal trace goes on as its tail says. -/
theorem traceRun_extend {m m' : TraceMode} {es : List Event} (h : m.run es = some m') (fs : List Event) :
    m.run (es ++ fs) = m'.run fs := by
  rw [traceRun_append, h]; rfl

theorem traceRun_retryEvents (s : State) (j : Nat) : TraceMode.run .inside (retryEvents s j) = some .inside := by
  induction j generalizing s with
  | zero => rfl
  | succ j ih => rw [retryEvents_succ, traceRun_extend (m' := .inside) (by rfl)]; exact ih _

theorem traceRun_reads (f : Nat → Byte) (l : List Nat) :
    TraceMode.run .inside (l.map fun i => .read (f i)) = some .inside := by
  induction l with
  | nil => rfl
  | cons i l ih => simpa [TraceMode.run, TraceMode.next] using ih

end Sys2Proof.Machine
end

