-- ==== Sys2Proof/Laws/Sequencer.lean ====
section
/-! SUPPORT. What one visit does, phase by phase, and how a run of the sequencer goes on or rests. -/

namespace Sys2Proof.Machine

variable {s : State}

/-! ## One visit, by phase -/

theorem tick_idle (h : s.phase = .idle) : tick s = s := by simp only [tick, h]
theorem tick_beginSession (h : s.phase = .beginSession) : tick s = phaseBeginSession s := by simp only [tick, h]
theorem tick_rstSend (h : s.phase = .rstSend) : tick s = phaseRstSend s := by simp only [tick, h]
theorem tick_rstWait (h : s.phase = .rstWait) : tick s = phaseRstWait s := by simp only [tick, h]
theorem tick_rdSelect (h : s.phase = .rdSelect) : tick s = phaseRdSelect s := by simp only [tick, h]
theorem tick_rdSend (h : s.phase = .rdSend) : tick s = phaseRdSend s := by simp only [tick, h]
theorem tick_rdWait (h : s.phase = .rdWait) : tick s = phaseRdWait s := by simp only [tick, h]
theorem tick_rdRequest (h : s.phase = .rdRequest) : tick s = phaseRdRequest s := by simp only [tick, h]
theorem tick_rdPoll (h : s.phase = .rdPoll) : tick s = phaseRdPoll s := by simp only [tick, h]
theorem tick_rdRead (h : s.phase = .rdRead) : tick s = phaseRdRead s := by simp only [tick, h]
theorem tick_rdCheck (h : s.phase = .rdCheck) : tick s = phaseRdCheck s := by simp only [tick, h]
theorem tick_rdRecover (h : s.phase = .rdRecover) : tick s = phaseRdRecover s := by simp only [tick, h]
theorem tick_convert (h : s.phase = .convert) : tick s = phaseConvert s := by simp only [tick, h]
theorem tick_snAddr1 (h : s.phase = .snAddr1) : tick s = phaseSnAddr1 s := by simp only [tick, h]
theorem tick_snReq1 (h : s.phase = .snReq1) : tick s = phaseSnReq1 s := by simp only [tick, h]
theorem tick_snRead1 (h : s.phase = .snRead1) : tick s = phaseSnRead1 s := by simp only [tick, h]
theorem tick_snAddr2 (h : s.phase = .snAddr2) : tick s = phaseSnAddr2 s := by simp only [tick, h]
theorem tick_snReq2 (h : s.phase = .snReq2) : tick s = phaseSnReq2 s := by simp only [tick, h]
theorem tick_snRead2 (h : s.phase = .snRead2) : tick s = phaseSnRead2 s := by simp only [tick, h]
theorem tick_snSelect (h : s.phase = .snSelect) : tick s = phaseSnSelect s := by simp only [tick, h]
theorem tick_crcXor (h : s.phase = .crcXor) : tick s = phaseCrcXor s := by simp only [tick, h]
theorem tick_crcShift (h : s.phase = .crcShift) : tick s = phaseCrcShift s := by simp only [tick, h]
theorem tick_crcCompare (h : s.phase = .crcCompare) : tick s = phaseCrcCompare s := by simp only [tick, h]
theorem tick_faulted (h : s.phase = .faulted) : tick s = s := by simp only [tick, h]

/-- A settled block does not move (R21, R213). -/
theorem tick_settled (h : s.phase.settled = true) : tick s = s := by
  cases hp : s.phase <;> rw [hp] at h <;> first | exact absurd h (by decide) | simp only [tick, hp]

/-- What follows the compare when READ_HM's check is nested (R46, R129). -/
theorem afterCompare_measures (m : Bool) {x : State} {op : HostOp} (ho : x.opsel = some op) (hm : op.measures = true) :
    afterCompare m x = if m then enterRecovery x else readReg x.raw .raw x fun r => finishReadHm r x := by
  unfold afterCompare
  rw [ho, readReg_some]
  cases op <;> first | exact absurd hm (by decide) | rfl

/-- What follows it when the host called CRC_CHECK (R46). -/
theorem afterCompare_crcCheck (m : Bool) {x : State} (ho : x.opsel = some .crcCheck) : afterCompare m x = endOp (.mismatch m) x := by
  unfold afterCompare
  rw [ho, readReg_some]

/-! ## Runs -/

theorem ticks_succ (n : Nat) (s : State) : ticks (n + 1) s = ticks n (tick s) := rfl

/-- A run from a settled block is over at once. -/
theorem runOp_settled (h : s.phase.settled = true) (k : Nat) : runOp k s = s := by
  cases k with
  | zero => rfl
  | succ k => simp only [runOp, h, if_true]

/-- A run goes on through any phase but the two waits. -/
theorem runOp_tick (h : s.phase.settled = false) (hw : s.phase.waitsForBytes = false) (k : Nat) :
    runOp (k + 1) s = runOp k (tick s) := by
  simp [runOp, h, hw]

/-- A run rests where an `Avail` of the unbounded wait was too low. -/
theorem runOp_waits (hw : s.phase.waitsForBytes = true) (ht : (tick s).phase = s.phase) (k : Nat) :
    runOp (k + 1) s = tick s := by
  have h : s.phase.settled = false := by
    cases hp : s.phase <;> rw [hp] at hw <;> first | exact absurd hw (by decide) | rfl
  simp [runOp, h, hw, ht]

/-- A run goes on when the bytes are there. -/
theorem runOp_waited (hw : s.phase.waitsForBytes = true) (ht : (tick s).phase ≠ s.phase) (k : Nat) :
    runOp (k + 1) s = runOp k (tick s) := by
  have h : s.phase.settled = false := by
    cases hp : s.phase <;> rw [hp] at hw <;> first | exact absurd hw (by decide) | rfl
  simp [runOp, h, hw, ht]

/-- Whatever every visit keeps, a run keeps. -/
theorem runOp_keeps {P : State → Prop} (hP : ∀ s, P s → P (tick s)) : ∀ (k : Nat) (s : State), P s → P (runOp k s)
  | 0, _, h => h
  | k + 1, s, h => by
    unfold runOp
    split
    · exact h
    · split
      · exact hP s h
      · exact runOp_keeps hP k _ (hP s h)

/-- Whatever every visit keeps, any number of visits keep. -/
theorem ticks_keeps {P : State → Prop} (hP : ∀ s, P s → P (tick s)) : ∀ (n : Nat) (s : State), P s → P (ticks n s)
  | 0, _, h => h
  | n + 1, s, h => ticks_keeps hP n _ (hP s h)

/-! ## The acceptance of a call, and one step -/

/-- A call is refused busy, refused before BEGIN, or runs: the one inversion of `invoke`. -/
theorem invoke_next {op : HostOp} {i : Instr} {load : State → State} {t : State} (h : invoke op i load s = .next t) :
    s.phase = .idle ∧ (op.usesBus = true → s.begun = true) ∧
      t = runOp opFuel (load { s.emit (.call i) with opsel := some op }) := by
  unfold invoke at h
  split at h
  · cases h
  · split at h
    · cases h
    · rename_i h1 h2
      refine ⟨by simpa using h1, ?_, by cases h; rfl⟩
      intro hb
      simpa [hb] using h2

/-- When a call is accepted, and what it then is. -/
theorem invoke_eq {op : HostOp} (i : Instr) (load : State → State) (hi : s.phase = .idle) (hb : op.usesBus = true → s.begun = true) :
    invoke op i load s = .next (runOp opFuel (load { s.emit (.call i) with opsel := some op })) := by
  unfold invoke
  rw [if_neg (by simp [hi]), if_neg]
  cases hu : op.usesBus
  · simp
  · simp [hb hu]

/-- A device command runs only at RD_SELECT with that command in CMD. -/
theorem commandSegment_next {c : Byte} {t : State} (h : commandSegment c s = .next t) :
    s.phase = .rdSelect ∧ s.cmd = some c ∧ t = ticks 4 s := by
  unfold commandSegment at h
  split at h
  · rename_i hc
    exact ⟨hc.1, hc.2, by cases h; rfl⟩
  · cases h

/-- An address sequence runs only at its phase. -/
theorem addressSegment_next {p : Phase} {t : State} (h : addressSegment p s = .next t) : s.phase = p ∧ t = tick s := by
  unfold addressSegment at h
  split at h
  · exact ⟨‹_›, by cases h; rfl⟩
  · cases h

/-- The operation an instruction names, its start, if it is a host operation. -/
def hostStart : Instr → Option (HostOp × (State → State))
  | .beginOp => some (.beginOp, State.goto .beginSession)
  | .resetOp => some (.resetOp, State.goto .rstSend)
  | .getTemperature => some (.getTemperature, loadCommand cmdTHm)
  | .getHumidity => some (.getHumidity, loadCommand cmdRhHm)
  | .getSerialNumber l => some (.getSerialNumber, loadLocation l)
  | .readHm c => some (.readHm, loadCommand c)
  | .calcRh r => some (.calcRh, loadRaw r)
  | .calcT r => some (.calcT, loadRaw r)
  | .crcCheck d l e => some (.crcCheck, loadCrc d l e)
  | _ => none

/-- Everything an instruction that answers a next state can do: run an accepted host operation, or carry the operation in
progress on by one to four visits. -/
theorem exec_next {i : Instr} {t : State} (h : exec i s = .next t) :
    (∃ op load, hostStart i = some (op, load) ∧ s.phase = .idle ∧ (op.usesBus = true → s.begun = true) ∧
      t = runOp opFuel (load { s.emit (.call i) with opsel := some op })) ∨
    (hostStart i = none ∧ s.phase ≠ .idle ∧ s.commandWord = some (encode i) ∧ ∃ n, t = ticks n s) := by
  have hcmd : ∀ (c : Byte), commandSegment c s = .next t →
      s.phase ≠ .idle ∧ s.commandWord = some (.cmd8 c) ∧ ∃ n, t = ticks n s := fun c hc => by
    obtain ⟨hp, hc', ht⟩ := commandSegment_next hc
    exact ⟨by simp [hp], by simp [State.commandWord, hp, hc'], 4, ht⟩
  cases i
  case beginOp => exact .inl ⟨_, _, rfl, invoke_next h⟩
  case resetOp => exact .inl ⟨_, _, rfl, invoke_next h⟩
  case getTemperature => exact .inl ⟨_, _, rfl, invoke_next h⟩
  case getHumidity => exact .inl ⟨_, _, rfl, invoke_next h⟩
  case getSerialNumber => exact .inl ⟨_, _, rfl, invoke_next h⟩
  case readHm => exact .inl ⟨_, _, rfl, invoke_next h⟩
  case calcRh => exact .inl ⟨_, _, rfl, invoke_next h⟩
  case calcT => exact .inl ⟨_, _, rfl, invoke_next h⟩
  case crcCheck => exact .inl ⟨_, _, rfl, invoke_next h⟩
  case trigTHm => exact .inr ⟨rfl, hcmd _ h⟩
  case trigRhHm => exact .inr ⟨rfl, hcmd _ h⟩
  case trigTNhm => exact .inr ⟨rfl, hcmd _ h⟩
  case trigRhNhm => exact .inr ⟨rfl, hcmd _ h⟩
  case writeUserReg => exact .inr ⟨rfl, hcmd _ h⟩
  case readUserReg => exact .inr ⟨rfl, hcmd _ h⟩
  case softReset =>
    refine .inr ⟨rfl, ?_⟩
    change execSoftReset s = _ at h
    unfold execSoftReset at h
    split at h
    · rename_i hp
      exact ⟨by simp [hp], by simp [State.commandWord, hp, encode], 2, by cases h; rfl⟩
    · split at h
      · rename_i hp
        exact ⟨by simp [hp], by simp [State.commandWord, hp, encode], 1, by cases h; rfl⟩
      · exact hcmd _ h
  case snAddr1 =>
    obtain ⟨hp, ht⟩ := addressSegment_next h
    exact .inr ⟨rfl, by simp [hp], by simp [State.commandWord, hp, encode], 1, ht⟩
  case snAddr2 =>
    obtain ⟨hp, ht⟩ := addressSegment_next h
    exact .inr ⟨rfl, by simp [hp], by simp [State.commandWord, hp, encode], 1, ht⟩

/-- A step of a busy block that no input pre-empts carries the operation on. -/
theorem step_busy (hni : s.phase ≠ .idle) (hq : s.quiet = true) : step s = stepBusy s := by
  unfold step
  split
  · rename_i h; simp [State.quiet, h, HostInput.preempts] at hq
  · rename_i c _ h
    have he : c.early = false := by simpa [State.quiet, h, HostInput.preempts] using hq
    simp [he, hni]
  · rw [if_neg hni]

/-- A phase that emits no command word is run on to the next resting point. -/
theorem stepBusy_no_word (hnf : s.phase ≠ .faulted) (hw : s.commandWord = none) : stepBusy s = .next (runOp opFuel s) := by
  unfold stepBusy
  rw [if_neg hnf, hw]

/-- Everything a step that answers a next state can do. -/
theorem step_next {t : State} (h : step s = .next t) :
    (∃ rest, s.host = .powerOn :: rest ∧ t = powerOnReset { s with host := rest }) ∨
    (s.phase = .idle ∧ s.host = [] ∧ t = s) ∨
    (∃ c rest i, s.phase = .idle ∧ s.host = .call c :: rest ∧ c.early = false ∧ decode c.word = .ok i ∧
      exec i { s with host := rest } = .next t) ∨
    (s.phase ≠ .idle ∧ s.phase ≠ .faulted ∧ (t = runOp opFuel s ∨ ∃ n, t = ticks n s)) := by
  have hbusy : stepBusy s = .next t → s.phase ≠ .idle →
      s.phase ≠ .faulted ∧ (t = runOp opFuel s ∨ ∃ n, t = ticks n s) := fun hb hni => by
    unfold stepBusy at hb
    split at hb
    · cases hb
    · rename_i hnf
      refine ⟨hnf, ?_⟩
      split at hb
      · exact .inl (by cases hb; rfl)
      · split at hb
        · rcases exec_next hb with ⟨op, load, _, hid, _⟩ | ⟨_, _, _, hn⟩
          · exact absurd hid hni
          · exact .inr hn
        · exact .inl (by cases hb; rfl)
  unfold step at h
  split at h
  · rename_i rest hh
    refine .inl ⟨rest, hh, ?_⟩
    cases h
    simp [State.popHost, hh]
  · rename_i c rest hh
    split at h
    · cases h
    · rename_i he
      split at h
      · rename_i hid
        unfold stepCall at h
        split at h
        · rename_i i hd
          exact .inr (.inr (.inl ⟨c, rest, i, hid, hh, by simpa using he, hd, by simpa [State.popHost, hh] using h⟩))
        · cases h
      · rename_i hni
        exact .inr (.inr (.inr ⟨hni, hbusy h hni⟩))
  · rename_i hh
    split at h
    · exact .inr (.inl ⟨‹_›, hh, by cases h; rfl⟩)
    · rename_i hni
      exact .inr (.inr (.inr ⟨hni, hbusy h hni⟩))

end Sys2Proof.Machine
end

