-- ==== Sys2Proof/Laws/Phases.lean ====
section
/-! SUPPORT. Closed forms of the loops: the poll loop, the mapped reads, and the CRC bytes on the sequencer. -/

namespace Sys2Proof.Machine

/-! ## The poll loop (R127) -/

/-- The check after j retries finds the frame: N counts the retries of this loop, and the events are theirs and the last check's. -/
theorem pollLoop_ready (j left : Nat) (s : State) (hj : j ≤ left) (hl : left ≤ 10)
    (hn : s.n = some (BitVec.ofNat 4 (10 - left))) (hlow : ∀ i < j, s.availAnswer i < 3) (hok : 3 ≤ s.availAnswer j) :
    pollLoop left s = { s with
      phase := .rdRead, n := some (BitVec.ofNat 4 (10 - left + j))
      availIn := s.availIn.drop (j + 1), availDrawn := s.availDrawn + (j + 1 - s.availIn.length)
      trace := s.trace ++ (retryEvents s j ++ [.avail (s.availAnswer j)]) } := by
  induction j generalizing left s with
  | zero =>
    unfold pollLoop
    rw [if_pos (show frameLen ≤ s.availAnswer 0 from hok)]
    simp [doAvail_eq, State.goto, retryEvents_zero, hn]
  | succ j ih =>
    obtain ⟨l, rfl⟩ : ∃ l, left = l + 1 := ⟨left - 1, by omega⟩
    unfold pollLoop
    rw [if_neg (show ¬ frameLen ≤ s.availAnswer 0 from by have := hlow 0 (by omega); unfold frameLen; omega)]
    simp only
    rw [ih]
    · simp only [doWait_eq, doAvail_eq, pollMax, tPollMs, List.drop_drop, List.length_drop, List.append_assoc]
      have e1 : 10 - l + j = 10 - (l + 1) + (j + 1) := by omega
      have e2 : s.availDrawn + (1 - s.availIn.length) + (j + 1 - (s.availIn.length - 1)) =
          s.availDrawn + (j + 1 + 1 - s.availIn.length) := by omega
      rw [e1, e2, retryEvents_succ]
      congr 1
      · simp only [List.cons_append, List.nil_append, List.append_cancel_left_eq, List.cons.injEq, true_and]
        congr 1
        rw [show j + 1 = 1 + j by omega, ← availAnswer_afterAvails]
        rfl
      · congr 1
        omega
    · omega
    · omega
    · simp [pollMax]
    · intro i hi
      have := hlow (i + 1) (by omega)
      rw [show i + 1 = 1 + i by omega, ← availAnswer_afterAvails] at this
      exact this
    · rw [show j + 1 = 1 + j by omega, ← availAnswer_afterAvails] at hok
      exact hok

/-- All checks fail: after the last retry READ_HM ends with the timeout sentinel. -/
theorem pollLoop_timeout (left : Nat) (s : State) (hl : left ≤ 10)
    (hn : s.n = some (BitVec.ofNat 4 (10 - left))) (hlow : ∀ i ≤ left, s.availAnswer i < 3) :
    pollLoop left s = finishReadHm 0 { s with
      n := some 10
      availIn := s.availIn.drop (left + 1), availDrawn := s.availDrawn + (left + 1 - s.availIn.length)
      trace := s.trace ++ (retryEvents s left ++ [.avail (s.availAnswer left)]) } := by
  induction left generalizing s with
  | zero =>
    unfold pollLoop
    rw [if_neg (show ¬ frameLen ≤ s.availAnswer 0 from by have := hlow 0 (by omega); unfold frameLen; omega)]
    simp [doAvail_eq, retryEvents_zero, hn, sentinelTimeout]
  | succ l ih =>
    unfold pollLoop
    rw [if_neg (show ¬ frameLen ≤ s.availAnswer 0 from by have := hlow 0 (by omega); unfold frameLen; omega)]
    simp only
    rw [ih]
    · simp only [doWait_eq, doAvail_eq, tPollMs, List.drop_drop, List.length_drop, List.append_assoc]
      have e2 : s.availDrawn + (1 - s.availIn.length) + (l + 1 - (s.availIn.length - 1)) =
          s.availDrawn + (l + 1 + 1 - s.availIn.length) := by omega
      rw [e2, retryEvents_succ]
      congr 2
      · simp only [List.cons_append, List.nil_append, List.append_cancel_left_eq, List.cons.injEq, true_and]
        congr 1
        rw [show l + 1 = 1 + l by omega, ← availAnswer_afterAvails]
        rfl
      · congr 1
        omega
    · omega
    · simp [pollMax]
    · intro i hi
      have := hlow (i + 1) (by omega)
      rw [show i + 1 = 1 + i by omega, ← availAnswer_afterAvails] at this
      exact this

/-- The poll loop ends in one of the two ways: some check among the first eleven succeeds, or none does. -/
theorem poll_cases (s : State) :
    (∃ j ≤ 10, s.oReady 3 j) ∨ ∀ i ≤ 10, s.availAnswer i < 3 := by
  by_cases h : ∃ j, j ≤ 10 ∧ 3 ≤ s.availAnswer j
  · left
    classical
    refine ⟨Nat.find h, (Nat.find_spec h).1, fun i hi => ?_, (Nat.find_spec h).2⟩
    have := Nat.find_min h hi
    have hle := (Nat.find_spec h).1
    by_contra hc
    exact this ⟨by omega, by omega⟩
  · right
    intro i hi
    by_contra hc
    exact h ⟨i, hi, by omega⟩

/-! ## The mapped reads (R143) -/

/-- The serial-number buffer after the responses' bytes `f 0, f 1, …` have gone where a list of destinations says. -/
def placeSn : List (Option (Fin 8)) → (Nat → Byte) → Vector (Option Byte) 8 → Vector (Option Byte) 8
  | [], _, sn => sn
  | none :: ds, f, sn => placeSn ds (fun i => f (i + 1)) sn
  | some i :: ds, f, sn => placeSn ds (fun k => f (k + 1)) (sn.set i.val (some (f 0)))

theorem placeSn_congr (ds : List (Option (Fin 8))) {f g : Nat → Byte} (h : ∀ i, f i = g i) (sn : Vector (Option Byte) 8) :
    placeSn ds f sn = placeSn ds g sn := by
  rw [funext h]

/-- One `Read` a position, each byte placed or discarded; nothing else changes. -/
theorem readMapped_eq (ds : List (Option (Fin 8))) (s : State) :
    readMapped ds s = { s with
      sn := placeSn ds s.readAnswer s.sn
      readIn := s.readIn.drop ds.length, readDrawn := s.readDrawn + (ds.length - s.readIn.length)
      trace := s.trace ++ readEvents s ds.length } := by
  induction ds generalizing s with
  | nil => simp [readMapped, placeSn, readEvents]
  | cons d ds ih =>
    have hlen : ∀ x : State, x.readIn = s.readIn.drop 1 → x.readDrawn = s.readDrawn + (1 - s.readIn.length) →
        ∀ i, x.readAnswer i = s.readAnswer (i + 1) := fun x h1 h2 i => by
      rw [show i + 1 = 1 + i by omega, ← readAnswer_afterReads]
      exact readAnswer_congr h1 h2 i
    have hev : ∀ x : State, x.readIn = s.readIn.drop 1 → x.readDrawn = s.readDrawn + (1 - s.readIn.length) →
        [Event.read (s.readAnswer 0)] ++ readEvents x ds.length = readEvents s (ds.length + 1) := fun x h1 h2 => by
      simp [readEvents, List.range_succ_eq_map, hlen x h1 h2]
    have e2 : ∀ k : Nat, s.readDrawn + (1 - s.readIn.length) + (k - (s.readIn.length - 1)) =
        s.readDrawn + (k + 1 - s.readIn.length) := fun k => by omega
    cases d with
    | none =>
      simp only [readMapped, storeSn]
      rw [ih]
      simp only [doRead_eq, List.length_cons, List.drop_drop, List.length_drop, placeSn, List.append_assoc, e2]
      rw [← hev (doRead s) rfl rfl]
      congr 1
      · exact placeSn_congr _ (hlen _ rfl rfl) _
      · congr 1; omega
    | some i =>
      simp only [readMapped, storeSn]
      rw [ih]
      simp only [doRead_eq, List.length_cons, List.drop_drop, List.length_drop, placeSn, List.append_assoc, e2]
      rw [← hev (storeSn (some i) (s.readAnswer 0) (doRead s)) rfl rfl]
      congr 1
      · exact placeSn_congr _ (hlen _ rfl rfl) _
      · congr 1; omega

/-- An index no destination names keeps its register. -/
theorem placeSn_other (ds : List (Option (Fin 8))) (f : Nat → Byte) (sn : Vector (Option Byte) 8) (i : Fin 8)
    (h : some i ∉ ds) : (placeSn ds f sn)[i] = sn[i] := by
  induction ds generalizing f sn with
  | nil => rfl
  | cons d ds ih =>
    cases d with
    | none => exact ih _ _ (fun hm => h (List.mem_cons_of_mem _ hm))
    | some k =>
      simp only [placeSn]
      rw [ih _ _ (fun hm => h (List.mem_cons_of_mem _ hm))]
      have hne : k.val ≠ i.val := fun he => h (by rw [Fin.ext he]; exact List.mem_cons_self)
      simpa using Vector.getElem_set_ne (xs := sn) (i := k.val) (j := i.val) k.isLt i.isLt hne

/-- An index that one destination names, and no later one, holds the byte of that position. -/
theorem placeSn_at (ds : List (Option (Fin 8))) (f : Nat → Byte) (sn : Vector (Option Byte) 8) (i : Fin 8) (p : Nat)
    (hp : ds[p]? = some (some i)) (hlast : ∀ q, p < q → ds[q]? ≠ some (some i)) :
    (placeSn ds f sn)[i] = some (f p) := by
  induction ds generalizing f sn p with
  | nil => simp at hp
  | cons d ds ih =>
    cases p with
    | zero =>
      obtain rfl : d = some i := by simpa using hp
      simp only [placeSn]
      rw [placeSn_other]
      · simp
      · intro hm
        obtain ⟨q, hq⟩ := List.mem_iff_getElem?.1 hm
        exact hlast (q + 1) (by omega) (by simpa using hq)
    | succ p =>
      have hp' : ds[p]? = some (some i) := by simpa using hp
      have hl' : ∀ q, p < q → ds[q]? ≠ some (some i) := fun q hq he => hlast (q + 1) (by omega) (by simpa using he)
      cases d with
      | none => exact ih _ _ p hp' hl'
      | some k => exact ih _ _ p hp' hl'

/-! ## CRC_CHECK on the sequencer (R160 to R162) -/

theorem crcBits_succ (n : Nat) (a : Byte) : crcBits (n + 1) a = crcBits n (crcBit a) := rfl

/-- A shift that is not the eighth. -/
theorem runOp_crcShift_more (s : State) (a i len : Byte) (k : BitVec 4) (m : Nat) (hp : s.phase = .crcShift)
    (ha : s.acc = some a) (hk : s.bitn = some k) (hi : s.bytei = some i) (hl : s.len = some len) (h8 : k + 1 ≠ 8) :
    runOp (m + 1) s = runOp m { s with acc := some (crcBit a), bitn := some (k + 1) } := by
  rw [runOp_tick (by rw [hp]; rfl) (by rw [hp]; rfl), tick_crcShift hp]
  simp only [phaseCrcShift, ha, hk, hi, hl, readReg_some, if_neg h8]

/-- The eighth shift: the byte is done. -/
theorem runOp_crcShift_last (s : State) (a i len : Byte) (m : Nat) (hp : s.phase = .crcShift)
    (ha : s.acc = some a) (hk : s.bitn = some 7) (hi : s.bytei = some i) (hl : s.len = some len) :
    runOp (m + 1) s = runOp m { s with
      acc := some (crcBit a), bitn := some 8, bytei := some (i + 1), phase := afterByte (i + 1) len } := by
  rw [runOp_tick (by rw [hp]; rfl) (by rw [hp]; rfl), tick_crcShift hp]
  simp [phaseCrcShift, ha, hk, hi, hl]

/-- The bit counter before the last shifts, counted on by one. -/
theorem bitCount_step : ∀ n ≤ 6,
    BitVec.ofNat 4 (7 - (n + 1)) + 1 ≠ 8 ∧ BitVec.ofNat 4 (7 - (n + 1)) + 1 = BitVec.ofNat 4 (7 - n) := by
  decide

/-- The remaining shifts of a byte, n + 1 of them. -/
theorem runOp_crcShifts (n : Nat) (s : State) (a i len : Byte) (m : Nat) (hn : n ≤ 7) (hp : s.phase = .crcShift)
    (ha : s.acc = some a) (hk : s.bitn = some (BitVec.ofNat 4 (7 - n))) (hi : s.bytei = some i) (hl : s.len = some len) :
    runOp (m + (n + 1)) s = runOp m { s with
      acc := some (crcBits (n + 1) a), bitn := some 8, bytei := some (i + 1), phase := afterByte (i + 1) len } := by
  induction n generalizing s a with
  | zero => exact runOp_crcShift_last s a i len m hp ha hk hi hl
  | succ n ih =>
    obtain ⟨hne, heq⟩ := bitCount_step n (by omega)
    have h1 := runOp_crcShift_more s a i len _ (m + (n + 1)) hp ha hk hi hl hne
    rw [← Nat.add_assoc m (n + 1) 1, h1]
    refine (ih { s with acc := some (crcBit a), bitn := some (BitVec.ofNat 4 (7 - (n + 1)) + 1) } (crcBit a) (by omega)
      hp rfl ?_ hi hl).trans rfl
    simp only [heq]

/-- One byte: the XOR and the eight shifts are CRC_BYTE (R161). -/
theorem runOp_crcByte (s : State) (a b i len : Byte) (m : Nat) (hp : s.phase = .crcXor) (ha : s.acc = some a)
    (hi : s.bytei = some i) (hl : s.len = some len) (hb : s.data[i.toNat]? = some b) :
    runOp (m + 9) s = runOp m { s with
      acc := some (crcByte a b), bitn := some 8, bytei := some (i + 1), phase := afterByte (i + 1) len } := by
  rw [runOp_tick (k := m + 8) (by rw [hp]; rfl) (by rw [hp]; rfl), tick_crcXor hp]
  simp only [phaseCrcXor, ha, hi, hb, readReg_some]
  exact runOp_crcShifts 7 { s with acc := some (a ^^^ b), bytei := some i, bitn := some 0, phase := .crcShift } (a ^^^ b) i len m
    (by omega) rfl rfl rfl rfl hl

/-- All remaining bytes: the run reaches CRC_COMPARE with the fold of CRC_BYTE in ACC (R160, R168). -/
theorem runOp_crcBytes (r : Nat) (s : State) (a i len : Byte) (m : Nat) (hr : i.toNat + r = len.toNat) (hr0 : 0 < r)
    (hp : s.phase = .crcXor) (ha : s.acc = some a) (hi : s.bytei = some i) (hl : s.len = some len)
    (hd : s.data.length = len.toNat) :
    runOp (m + 9 * r) s = runOp m { s with
      acc := some (crc8 a (s.data.drop i.toNat)), bitn := some 8, bytei := some len, phase := .crcCompare } := by
  induction r generalizing s a i with
  | zero => omega
  | succ r ih =>
    have hlt : i.toNat < s.data.length := by omega
    have hb : s.data[i.toNat]? = some s.data[i.toNat] := List.getElem?_eq_getElem hlt
    have hlen : len.toNat < 256 := len.isLt
    have hi1 : (i + 1).toNat = i.toNat + 1 := by simp only [BitVec.toNat_add]; change (i.toNat + 1) % 256 = _; omega
    refine (runOp_crcByte s a _ i len (m + 9 * r) hp ha hi hl hb).trans ?_
    have hdrop : s.data.drop i.toNat = s.data[i.toNat] :: s.data.drop (i.toNat + 1) := List.drop_eq_getElem_cons hlt
    rcases Nat.eq_zero_or_pos r with rfl | hpos
    · have hlast : i + 1 = len := BitVec.eq_of_toNat_eq (by omega)
      have hnil : s.data.drop (i.toNat + 1) = [] := List.drop_eq_nil_of_le (by omega)
      simp only [hdrop, hnil, crc8, afterByte, hlast, if_true, List.foldl_cons, List.foldl_nil, Nat.mul_zero, Nat.add_zero]
    · have hne : i + 1 ≠ len := fun he => by have := congrArg BitVec.toNat he; omega
      have := ih { s with
        acc := some (crcByte a s.data[i.toNat]), bitn := some 8, bytei := some (i + 1), phase := afterByte (i + 1) len }
        (crcByte a s.data[i.toNat]) (i + 1) (by omega) hpos (if_neg hne) rfl rfl hl hd
      rw [this, hdrop, hi1]
      rfl

end Sys2Proof.Machine
end

