-- ==== Sys2Proof/Laws/Measurement.lean ====
section
/-! SUPPORT. READ_HM on the sequencer, in the pieces that its three exits share (R122 to R129). -/

namespace Sys2Proof.Machine

/-- The delay of the four trigger commands (R123, R180 to R183). -/
theorem selectDelay_of_mem {c d : Byte} (h : (c = 0xE5 ∨ c = 0xF5) ∧ d = 30 ∨ (c = 0xE3 ∨ c = 0xF3) ∧ d = 85) :
    selectDelay c = some d := by
  rcases h with ⟨rfl | rfl, rfl⟩ | ⟨rfl | rfl, rfl⟩ <;> rfl

/-- A command of neither set selects no delay (R123, R204). -/
theorem selectDelay_none {c : Byte} (h : inRhSet c = false) (h' : inTSet c = false) : selectDelay c = none := by
  simp [selectDelay, h, h']

/-- Only 30 and 85 are ever selected (R24). -/
theorem selectDelay_values {c d : Byte} (h : selectDelay c = some d) : d = 30 ∨ d = 85 := by
  simp only [selectDelay] at h
  split at h
  · exact .inr (by simpa [tTMs, eq_comm] using h)
  · split at h
    · exact .inl (by simpa [tRhMs, eq_comm] using h)
    · cases h

/-- Steps 1 to 4 with a selected delay (R123 to R126). -/
theorem ticks_select (s : State) (c d : Byte) (hp : s.phase = .rdSelect) (hc : s.cmd = some c) (hd : selectDelay c = some d) :
    ticks 4 s = { s with
      phase := .rdPoll, dly := some d
      trace := s.trace ++ [.beginTx 0x40, .write c, .endTx, .wait d.toNat, .request 0x40 3] } := by
  simp [ticks, tick, hp, phaseRdSelect, phaseRdSend, phaseRdWait, phaseRdRequest, hc, hd, doTx_eq, doWait_eq, doRequest_eq,
    State.goto, frameLen]

/-- Steps 1 to 3 without one: the byte is sent and U_CMD is taken (R204). -/
theorem ticks_unknown (s : State) (c : Byte) (hp : s.phase = .rdSelect) (hc : s.cmd = some c) (hd : selectDelay c = none) :
    ticks 4 s = { s with
      phase := .faulted, cause := some (.uCmd c), dly := none
      trace := s.trace ++ [.beginTx 0x40, .write c, .endTx] } := by
  simp [ticks, tick, hp, phaseRdSelect, phaseRdSend, phaseRdWait, hc, hd, doTx_eq, raise_eq, State.goto]

/-- A run through steps 1 to 4 is their four visits. -/
theorem runOp_select (m : Nat) (s : State) (c : Byte) (hp : s.phase = .rdSelect) (hc : s.cmd = some c) :
    runOp (m + 4) s = runOp m (ticks 4 s) := by
  rw [runOp_tick (k := m + 3) (by rw [hp]; rfl) (by rw [hp]; rfl)]
  have h1 : (tick s).phase = .rdSend := by simp [tick_rdSelect hp, phaseRdSelect, hc]
  have c1 : (tick s).cmd = some c := by simp [tick_rdSelect hp, phaseRdSelect, hc]
  rw [runOp_tick (k := m + 2) (by rw [h1]; rfl) (by rw [h1]; rfl)]
  have h2 : (tick (tick s)).phase = .rdWait := by simp [tick_rdSend h1, phaseRdSend, c1, State.goto]
  rw [runOp_tick (k := m + 1) (by rw [h2]; rfl) (by rw [h2]; rfl)]
  have h3 : (tick (tick (tick s))).phase = .rdRequest ∨ (tick (tick (tick s))).phase = .faulted := by
    rw [tick_rdWait h2, phaseRdWait]
    split
    · exact .inl rfl
    · cases (tick (tick s)).cmd <;> exact .inr rfl
  rcases h3 with h3 | h3
  · rw [runOp_tick (by rw [h3]; rfl) (by rw [h3]; rfl)]; rfl
  · have h4 : ticks 4 s = tick (tick (tick s)) := tick_settled (by rw [h3]; rfl)
    rw [h4, runOp_settled (by rw [h3]; rfl), runOp_settled (by rw [h3]; rfl)]

/-- Step 5, the check after j retries succeeding (R127). -/
theorem phaseRdPoll_ready (s : State) (j : Nat) (hj : j ≤ 10) (hr : s.oReady 3 j) :
    phaseRdPoll s = { s with
      phase := .rdRead, n := some (BitVec.ofNat 4 j)
      availIn := s.availIn.drop (j + 1), availDrawn := s.availDrawn + (j + 1 - s.availIn.length)
      trace := s.trace ++ (retryEvents s j ++ [.avail (s.availAnswer j)]) } := by
  have := pollLoop_ready j 10 { s with n := some 0 } hj (by omega) rfl hr.1 hr.2
  rw [show 10 - 10 + j = j by omega] at this
  exact this

/-- Step 5, every check failing (R127, R201). -/
theorem phaseRdPoll_timeout (s : State) (h : ∀ i ≤ 10, s.availAnswer i < 3) :
    phaseRdPoll s = finishReadHm 0 { s with
      n := some 10
      availIn := s.availIn.drop 11, availDrawn := s.availDrawn + (11 - s.availIn.length)
      trace := s.trace ++ (retryEvents s 10 ++ [.avail (s.availAnswer 10)]) } :=
  pollLoop_timeout 10 { s with n := some 0 } (by omega) rfl h

/-- Step 6 (R128). -/
theorem phaseRdRead_eq (s : State) :
    phaseRdRead s = { s with
      phase := .rdCheck
      d0 := some (s.readAnswer 0), d1 := some (s.readAnswer 1), ck := some (s.readAnswer 2)
      raw := some (assembleRaw (s.readAnswer 0) (s.readAnswer 1))
      readIn := s.readIn.drop 3, readDrawn := s.readDrawn + (3 - s.readIn.length)
      trace := s.trace ++ readEvents s 3 } := by
  have e : ∀ l : Nat, s.readDrawn + (1 - l) + (1 - (l - 1)) + (1 - (l - 1 - 1)) = s.readDrawn + (3 - l) := fun l => by omega
  have r1 : (doRead s).readAnswer 0 = s.readAnswer 1 := readAnswer_doRead s 0
  have r2 : (doRead (doRead s)).readAnswer 0 = s.readAnswer 2 := by rw [readAnswer_doRead, readAnswer_doRead]
  unfold phaseRdRead
  rw [r1, r2, doRead_eq (doRead (doRead s)), r2, doRead_eq (doRead s), r1, doRead_eq s]
  simp only [List.drop_drop, List.length_drop, List.append_assoc, ← e s.readIn.length]
  rfl

/-- Step 7 starts the nested check (R129). -/
theorem phaseRdCheck_eq (s : State) (a b c : Byte) (h0 : s.d0 = some a) (h1 : s.d1 = some b) (hc : s.ck = some c) :
    phaseRdCheck s = { s with
      phase := .crcXor, data := [a, b], len := some 2, exp := some c, acc := some s.params.crcInit, bytei := some 0 } := by
  simp only [phaseRdCheck, h0, h1, hc, readReg_some, startCrc]
  rfl

/-- The frame arrives at the check after j retries: read, assembled, and its CRC computed bit by bit (R127 to R129, R160). -/
theorem runOp_frame (m : Nat) (s : State) (j : Nat) (hp : s.phase = .rdPoll) (hj : j ≤ 10) (hr : s.oReady 3 j) :
    runOp (m + 21) s = runOp m { s with
      phase := .crcCompare, n := some (BitVec.ofNat 4 j)
      d0 := some (s.readAnswer 0), d1 := some (s.readAnswer 1), ck := some (s.readAnswer 2)
      raw := some (assembleRaw (s.readAnswer 0) (s.readAnswer 1))
      data := [s.readAnswer 0, s.readAnswer 1], len := some 2, exp := some (s.readAnswer 2)
      acc := some (crc8 s.params.crcInit [s.readAnswer 0, s.readAnswer 1]), bytei := some 2, bitn := some 8
      availIn := s.availIn.drop (j + 1), availDrawn := s.availDrawn + (j + 1 - s.availIn.length)
      readIn := s.readIn.drop 3, readDrawn := s.readDrawn + (3 - s.readIn.length)
      trace := s.trace ++ (retryEvents s j ++ [.avail (s.availAnswer j)]) ++ readEvents s 3 } := by
  rw [runOp_tick (k := m + 20) (by rw [hp]; rfl) (by rw [hp]; rfl), tick_rdPoll hp, phaseRdPoll_ready s j hj hr,
    runOp_tick (k := m + 19) rfl rfl, tick_rdRead rfl, phaseRdRead_eq,
    runOp_tick (k := m + 18) rfl rfl, tick_rdCheck rfl, phaseRdCheck_eq _ _ _ _ rfl rfl rfl]
  exact runOp_crcBytes 2 _ s.params.crcInit 0 2 m (by decide) (by decide) rfl rfl rfl rfl rfl

/-- READ_HM from its first step to the compare, the frame arriving at the check after j retries (R122 to R129). -/
theorem runOp_toCompare (m : Nat) (s : State) (c d : Byte) (j : Nat) (hp : s.phase = .rdSelect) (hc : s.cmd = some c)
    (hd : selectDelay c = some d) (hj : j ≤ 10) (hr : s.oReady 3 j) :
    runOp (m + 25) s = runOp m { s with
      phase := .crcCompare, dly := some d, n := some (BitVec.ofNat 4 j)
      d0 := some (s.readAnswer 0), d1 := some (s.readAnswer 1), ck := some (s.readAnswer 2)
      raw := some (s.readAnswer 0 ++ s.readAnswer 1)
      data := [s.readAnswer 0, s.readAnswer 1], len := some 2, exp := some (s.readAnswer 2)
      acc := some (crc8 s.params.crcInit [s.readAnswer 0, s.readAnswer 1]), bytei := some 2, bitn := some 8
      availIn := s.availIn.drop (j + 1), availDrawn := s.availDrawn + (j + 1 - s.availIn.length)
      readIn := s.readIn.drop 3, readDrawn := s.readDrawn + (3 - s.readIn.length)
      trace := s.trace ++ (frameEvents c d.toNat s j ++ readEvents s 3) } := by
  rw [show m + 25 = m + 21 + 4 from rfl, runOp_select _ s c hp hc, ticks_select s c d hp hc hd]
  refine (runOp_frame m { s with
    phase := .rdPoll, dly := some d
    trace := s.trace ++ [.beginTx 0x40, .write c, .endTx, .wait d.toNat, .request 0x40 3] } j rfl hj hr).trans ?_
  simp only [frameEvents, List.append_assoc]
  rfl

/-- READ_HM from its first step to a timeout (R127, R201). -/
theorem runOp_toTimeout (m : Nat) (s : State) (c d : Byte) (hp : s.phase = .rdSelect) (hc : s.cmd = some c)
    (hd : selectDelay c = some d) (hr : ∀ i ≤ 10, s.availAnswer i < 3) :
    runOp (m + 5) s = runOp m (finishReadHm 0 { s with
      phase := .rdPoll, dly := some d, n := some 10
      availIn := s.availIn.drop 11, availDrawn := s.availDrawn + (11 - s.availIn.length)
      trace := s.trace ++ frameEvents c d.toNat s 10 }) := by
  rw [show m + 5 = m + 1 + 4 from rfl, runOp_select _ s c hp hc, ticks_select s c d hp hc hd, runOp_tick rfl rfl, tick_rdPoll rfl]
  refine congrArg (runOp m) ((phaseRdPoll_timeout { s with
    phase := .rdPoll, dly := some d
    trace := s.trace ++ [.beginTx 0x40, .write c, .endTx, .wait d.toNat, .request 0x40 3] } hr).trans ?_)
  simp only [frameEvents, List.append_assoc]
  rfl

/-- READ_HM with a frame whose CRC is right: it ends with RAW (R46, R128, R129). -/
theorem runOp_good (m : Nat) (s : State) (op : HostOp) (c d : Byte) (j : Nat) (hp : s.phase = .rdSelect) (hc : s.cmd = some c)
    (ho : s.opsel = some op) (hop : op.measures = true) (hd : selectDelay c = some d) (hj : j ≤ 10) (hr : s.oReady 3 j)
    (hk : crc8 s.params.crcInit [s.readAnswer 0, s.readAnswer 1] = s.readAnswer 2) :
    runOp (m + 26) s = runOp m (finishReadHm (s.readAnswer 0 ++ s.readAnswer 1) { s with
      phase := .crcCompare, dly := some d, n := some (BitVec.ofNat 4 j)
      d0 := some (s.readAnswer 0), d1 := some (s.readAnswer 1), ck := some (s.readAnswer 2)
      raw := some (s.readAnswer 0 ++ s.readAnswer 1)
      data := [s.readAnswer 0, s.readAnswer 1], len := some 2, exp := some (s.readAnswer 2)
      acc := some (s.readAnswer 2), bytei := some 2, bitn := some 8, mismatch := some false
      availIn := s.availIn.drop (j + 1), availDrawn := s.availDrawn + (j + 1 - s.availIn.length)
      readIn := s.readIn.drop 3, readDrawn := s.readDrawn + (3 - s.readIn.length)
      trace := s.trace ++ (frameEvents c d.toNat s j ++ readEvents s 3) }) := by
  rw [show m + 26 = m + 1 + 25 from rfl, runOp_toCompare _ s c d j hp hc hd hj hr, runOp_tick rfl rfl, tick_crcCompare rfl]
  have hm : mismatchFlag (s.readAnswer 2) (s.readAnswer 2) = false := by simp [mismatchFlag]
  simp only [phaseCrcCompare, readReg_some, hk, hm]
  cases op <;> first
    | exact absurd hop (by decide)
    | simp only [afterCompare, ho, readReg_some, if_false, Bool.false_eq_true]

/-- READ_HM with a frame whose CRC is wrong: the soft reset is sent and waited for, and it ends with 1 (R129, R212). -/
theorem runOp_bad (m : Nat) (s : State) (op : HostOp) (c d : Byte) (j : Nat) (hp : s.phase = .rdSelect) (hc : s.cmd = some c)
    (ho : s.opsel = some op) (hop : op.measures = true) (hd : selectDelay c = some d) (hj : j ≤ 10) (hr : s.oReady 3 j)
    (hk : crc8 s.params.crcInit [s.readAnswer 0, s.readAnswer 1] ≠ s.readAnswer 2) :
    runOp (m + 27) s = runOp m (finishReadHm 1 { s with
      phase := .rdRecover, dly := some d, n := some (BitVec.ofNat 4 j)
      d0 := some (s.readAnswer 0), d1 := some (s.readAnswer 1), ck := some (s.readAnswer 2)
      raw := some (s.readAnswer 0 ++ s.readAnswer 1)
      data := [s.readAnswer 0, s.readAnswer 1], len := some 2, exp := some (s.readAnswer 2)
      acc := some (crc8 s.params.crcInit [s.readAnswer 0, s.readAnswer 1]), bytei := some 2, bitn := some 8
      mismatch := some true
      availIn := s.availIn.drop (j + 1), availDrawn := s.availDrawn + (j + 1 - s.availIn.length)
      readIn := s.readIn.drop 3, readDrawn := s.readDrawn + (3 - s.readIn.length)
      trace := s.trace ++ (frameEvents c d.toNat s j ++ readEvents s 3 ++ softResetEvents) }) := by
  rw [show m + 27 = m + 2 + 25 from rfl, runOp_toCompare _ s c d j hp hc hd hj hr, runOp_tick rfl rfl, tick_crcCompare rfl]
  have hm : mismatchFlag (crc8 s.params.crcInit [s.readAnswer 0, s.readAnswer 1]) (s.readAnswer 2) = true := by
    simp [mismatchFlag, hk]
  simp only [phaseCrcCompare, readReg_some, hm]
  have hrec : ∀ x : State, x.opsel = some op → afterCompare true x = enterRecovery x := fun x hx => by
    cases op <;> first
      | exact absurd hop (by decide)
      | simp only [afterCompare, hx, readReg_some, if_true]
  refine (congrArg (runOp (m + 1)) (hrec _ (by exact ho))).trans ((runOp_tick rfl rfl _).trans ?_)
  rw [tick_rdRecover rfl]
  simp only [phaseRdRecover, recover, enterRecovery, State.goto, doTx_eq, doWait_eq, softResetEvents, List.append_assoc]
  rfl

/-- The end of READ_HM, returned to the host. -/
theorem finish_readHm (m : Nat) (s : State) (v : RawCode) (ho : s.opsel = some .readHm) :
    runOp m (finishReadHm v s) = { s with ret16 := some v, phase := .idle, trace := s.trace ++ [.ret (.raw v)] } := by
  have : finishReadHm v s = { s with ret16 := some v, phase := .idle, trace := s.trace ++ [.ret (.raw v)] } := by
    simp only [finishReadHm, ho, readReg_some, endOp_eq]
  rw [this, runOp_settled rfl]

/-- The end of READ_HM nested in GET_TEMPERATURE: converted and returned (R46, R120). -/
theorem finish_getTemperature (m : Nat) (s : State) (v : RawCode) (ho : s.opsel = some .getTemperature) :
    runOp (m + 1) (finishReadHm v s) =
      { s with ret16 := some v, tnum := some (tNum v), phase := .idle, trace := s.trace ++ [.ret (.tnum (tNum v))] } := by
  have h : finishReadHm v s = { s with ret16 := some v, phase := .convert } := by simp only [finishReadHm, ho, readReg_some, State.goto]
  rw [h, runOp_tick rfl rfl, tick_convert rfl]
  have h' : phaseConvert { s with ret16 := some v, phase := .convert } =
      { s with ret16 := some v, tnum := some (tNum v), phase := .idle, trace := s.trace ++ [.ret (.tnum (tNum v))] } := by
    simp only [phaseConvert, ho, readReg_some, finishT, endOp_eq]
  rw [h', runOp_settled rfl]

/-- The end of READ_HM nested in GET_HUMIDITY: converted and returned (R46, R121). -/
theorem finish_getHumidity (m : Nat) (s : State) (v : RawCode) (ho : s.opsel = some .getHumidity) :
    runOp (m + 1) (finishReadHm v s) =
      { s with ret16 := some v, rhnum := some (rhNum v), phase := .idle, trace := s.trace ++ [.ret (.rhnum (rhNum v))] } := by
  have h : finishReadHm v s = { s with ret16 := some v, phase := .convert } := by simp only [finishReadHm, ho, readReg_some, State.goto]
  rw [h, runOp_tick rfl rfl, tick_convert rfl]
  have h' : phaseConvert { s with ret16 := some v, phase := .convert } =
      { s with ret16 := some v, rhnum := some (rhNum v), phase := .idle, trace := s.trace ++ [.ret (.rhnum (rhNum v))] } := by
    simp only [phaseConvert, ho, readReg_some, finishRh, endOp_eq]
  rw [h', runOp_settled rfl]

end Sys2Proof.Machine
end

