-- ==== Sys2Proof/Laws/SerialNumber.lean ====
section
/-! SUPPORT. GET_SERIAL_NUMBER on the sequencer, and what a valid SN_MAP makes of the two responses (R140 to R144). -/

namespace Sys2Proof.Machine

/-! ## The map -/

/-- The destinations of both responses, in the order received. -/
def snDests (m : SnMap) : List (Option (Fin 8)) := m.store1.toList ++ m.store2.toList

/-- A valid map stores to every index. -/
theorem snMap_covers {m : SnMap} (h : m.valid = true) (i : Fin 8) : some i ∈ (snDests m) := by
  simp only [SnMap.valid, Bool.and_eq_true, beq_iff_eq, decide_eq_true_eq] at h
  obtain ⟨⟨⟨hl, hn⟩, -⟩, -⟩ := h
  have hf : m.stored.toFinset = Finset.univ := Finset.eq_univ_of_card _ (by rw [List.toFinset_card_of_nodup hn, hl]; rfl)
  have hi : i ∈ m.stored := List.mem_toFinset.1 (hf ▸ Finset.mem_univ i)
  simpa [SnMap.stored, snDests, List.mem_filterMap] using hi

/-- Two positions of a list that hold one value are one position, if the list's values are distinct. -/
theorem getElem?_some_inj {ds : List (Option (Fin 8))} (hn : (ds.filterMap id).Nodup) {p q : Nat} {i : Fin 8}
    (hp : ds[p]? = some (some i)) (hq : ds[q]? = some (some i)) : p = q := by
  induction ds generalizing p q with
  | nil => simp at hp
  | cons d ds ih =>
    have htail : (ds.filterMap id).Nodup := by
      cases d with
      | none => simpa using hn
      | some k => exact (List.nodup_cons.1 (by simpa using hn)).2
    have hhead : d = some i → some i ∉ ds := by
      intro hd hm
      subst hd
      have := (List.nodup_cons.1 (show (i :: ds.filterMap id).Nodup by simpa using hn)).1
      exact this (by simpa [List.mem_filterMap] using hm)
    cases p with
    | zero =>
      cases q with
      | zero => rfl
      | succ q => exact absurd (List.mem_of_getElem? (by simpa using hq)) (hhead (by simpa using hp))
    | succ p =>
      cases q with
      | zero => exact absurd (List.mem_of_getElem? (by simpa using hp)) (hhead (by simpa using hq))
      | succ q => exact congrArg (· + 1) (ih htail (by simpa using hp) (by simpa using hq))

/-- A valid map stores each index from one position. -/
theorem snMap_once {m : SnMap} (h : m.valid = true) {p q : Nat} {i : Fin 8}
    (hp : (snDests m)[p]? = some (some i)) (hq : (snDests m)[q]? = some (some i)) : p = q := by
  simp only [SnMap.valid, Bool.and_eq_true, beq_iff_eq, decide_eq_true_eq] at h
  exact getElem?_some_inj h.1.1.2 hp hq

theorem snMap_dests_first (m : SnMap) (p : Fin 8) : (snDests m)[p.val]? = some m.store1[p] := by
  simp [snDests, List.getElem?_append_left]

theorem snMap_dests_second (m : SnMap) (q : Fin 6) : (snDests m)[8 + q.val]? = some m.store2[q] := by
  simp [snDests, List.getElem?_append_right]

/-- Placing one list of positions after another is placing their concatenation. -/
theorem placeSn_append (ds es : List (Option (Fin 8))) (f : Nat → Byte) (sn : Vector (Option Byte) 8) :
    placeSn (ds ++ es) f sn = placeSn es (fun i => f (ds.length + i)) (placeSn ds f sn) := by
  induction ds generalizing f sn with
  | nil => simp [placeSn]
  | cons d ds ih =>
    have e : ∀ sn', placeSn es (fun i => f (ds.length + i + 1)) sn' = placeSn es (fun i => f ((d :: ds).length + i)) sn' := fun sn' =>
      placeSn_congr _ (fun i => by simp only [List.length_cons]; congr 1; omega) _
    cases d with
    | none => simp only [List.cons_append, placeSn, ih, e]
    | some k => simp only [List.cons_append, placeSn, ih, e]

/-- With a valid map the byte of a position is where the map puts it, whatever the buffer held. -/
theorem placeSn_valid {m : SnMap} (h : m.valid = true) (f : Nat → Byte) (sn : Vector (Option Byte) 8) {p : Nat} {i : Fin 8}
    (hp : (snDests m)[p]? = some (some i)) : (placeSn (snDests m) f sn)[i] = some (f p) :=
  placeSn_at _ _ _ _ _ hp fun q hq he => by have := snMap_once h hp he; omega

/-- With a valid map every index is written. -/
theorem placeSn_full {m : SnMap} (h : m.valid = true) (f : Nat → Byte) (sn : Vector (Option Byte) 8) (i : Fin 8) :
    ∃ p, (snDests m)[p]? = some (some i) ∧ (placeSn (snDests m) f sn)[i] = some (f p) := by
  obtain ⟨p, hp⟩ := List.mem_iff_getElem?.1 (snMap_covers h i)
  exact ⟨p, hp, placeSn_valid h f sn hp⟩

/-- With a valid map the byte of a position of the first response is where the map puts it once that response is read. -/
theorem placeSn_first {m : SnMap} (h : m.valid = true) (f : Nat → Byte) (sn : Vector (Option Byte) 8) {p i : Fin 8}
    (hp : m.store1[p] = some i) : (placeSn m.store1.toList f sn)[i] = some (f p) := by
  have hd : ∀ q : Nat, m.store1.toList[q]? = some (some i) → (snDests m)[q]? = some (some i) := fun q hq => by
    obtain ⟨hlt, he⟩ := List.getElem?_eq_some_iff.1 hq
    rw [snDests, List.getElem?_append_left hlt]
    exact hq
  have hp' : m.store1.toList[p.val]? = some (some i) := by simp [← hp]
  exact placeSn_at _ _ _ _ _ hp' fun q hq he => by have := snMap_once h (hd _ hp') (hd q he); omega

/-- The same of the second response. -/
theorem placeSn_second {m : SnMap} (h : m.valid = true) (f : Nat → Byte) (sn : Vector (Option Byte) 8) {q : Fin 6} {i : Fin 8}
    (hq : m.store2[q] = some i) : (placeSn m.store2.toList f sn)[i] = some (f q) := by
  have hd : ∀ r : Nat, m.store2.toList[r]? = some (some i) → (snDests m)[8 + r]? = some (some i) := fun r hr => by
    simpa [snDests, List.getElem?_append_right] using hr
  have hq' : m.store2.toList[q.val]? = some (some i) := by simp [← hq]
  exact placeSn_at _ _ _ _ _ hq' fun r hr he => by have := snMap_once h (hd _ hq') (hd r he); omega

/-- A written register stays written. -/
theorem placeSn_keeps {ds : List (Option (Fin 8))} {f : Nat → Byte} {sn : Vector (Option Byte) 8} {i : Fin 8}
    (h : sn[i].isSome = true) : (placeSn ds f sn)[i].isSome = true := by
  induction ds generalizing f sn with
  | nil => exact h
  | cons d ds ih =>
    cases d with
    | none => exact ih h
    | some k =>
      refine ih ?_
      by_cases he : k = i
      · subst he; simp
      · have := Vector.getElem_set_ne (xs := sn) (x := some (f 0)) k.isLt i.isLt (fun hv => he (Fin.ext hv))
        simpa using this.symm ▸ h

/-- A destination is written. -/
theorem placeSn_written {ds : List (Option (Fin 8))} {f : Nat → Byte} {sn : Vector (Option Byte) 8} {i : Fin 8}
    (h : some i ∈ ds) : (placeSn ds f sn)[i].isSome = true := by
  induction ds generalizing f sn with
  | nil => cases h
  | cons d ds ih =>
    rcases List.mem_cons.1 h with rfl | hm
    · exact placeSn_keeps (sn := sn.set i.val (some (f 0))) (by simp)
    · cases d with
      | none => exact ih hm
      | some k => exact ih hm

/-! ## The exchange -/

/-- An `Avail` of the unbounded wait that is too low changes the oracle and the trace only (R142). -/
theorem awaitBytes_low {s : State} {n : Nat} {p : Phase} (h : s.availAnswer 0 < n) : awaitBytes n p s = doAvail s := by
  simp [awaitBytes, Nat.not_le.2 h]

/-- One that is not goes on to the reads. -/
theorem awaitBytes_ready {s : State} {n : Nat} {p : Phase} (h : n ≤ s.availAnswer 0) :
    awaitBytes n p s = (doAvail s).goto p := by
  simp [awaitBytes, h]

/-- SN_ADDR1: the address sent, the request made (R141). -/
theorem phaseSnAddr1_eq (s : State) :
    phaseSnAddr1 s = { s with
      phase := .snReq1, trace := s.trace ++ [.beginTx 0x40, .write 0xFA, .write 0x0F, .endTx, .request 0x40 8] } := by
  simp only [phaseSnAddr1, sendAddress, doTx_eq, doRequest_eq, State.goto, List.append_assoc]
  rfl

/-- SN_ADDR2 (R141). -/
theorem phaseSnAddr2_eq (s : State) :
    phaseSnAddr2 s = { s with
      phase := .snReq2, trace := s.trace ++ [.beginTx 0x40, .write 0xFC, .write 0xC9, .endTx, .request 0x40 6] } := by
  simp only [phaseSnAddr2, sendAddress, doTx_eq, doRequest_eq, State.goto, List.append_assoc]
  rfl

/-- SN_READ1 (R143). -/
theorem phaseSnRead1_eq (s : State) :
    phaseSnRead1 s = { s with
      phase := .snAddr2, sn := placeSn s.params.snMap.store1.toList s.readAnswer s.sn
      readIn := s.readIn.drop 8, readDrawn := s.readDrawn + (8 - s.readIn.length)
      trace := s.trace ++ readEvents s 8 } := by
  simp only [phaseSnRead1, readMapped_eq, Vector.length_toList, State.goto]

/-- SN_READ2 (R143). -/
theorem phaseSnRead2_eq (s : State) :
    phaseSnRead2 s = { s with
      phase := .snSelect, sn := placeSn s.params.snMap.store2.toList s.readAnswer s.sn
      readIn := s.readIn.drop 6, readDrawn := s.readDrawn + (6 - s.readIn.length)
      trace := s.trace ++ readEvents s 6 } := by
  simp only [phaseSnRead2, readMapped_eq, Vector.length_toList, State.goto]

/-- From SN_REQ1, the count being enough: the eight reads. -/
theorem runOp_firstReads (m : Nat) (s : State) (hp : s.phase = .snReq1) (h8 : 8 ≤ s.availAnswer 0) :
    runOp (m + 2) s = runOp m { s with
      phase := .snAddr2, sn := placeSn s.params.snMap.store1.toList s.readAnswer s.sn
      availIn := s.availIn.drop 1, availDrawn := s.availDrawn + (1 - s.availIn.length)
      readIn := s.readIn.drop 8, readDrawn := s.readDrawn + (8 - s.readIn.length)
      trace := s.trace ++ ([.avail (s.availAnswer 0)] ++ readEvents s 8) } := by
  have h2 : tick s = (doAvail s).goto .snRead1 := (tick_snReq1 hp).trans (awaitBytes_ready h8)
  rw [runOp_waited (k := m + 1) (by rw [hp]; rfl) (by rw [h2, hp]; exact Phase.noConfusion), h2, runOp_tick rfl rfl,
    tick_snRead1 rfl, phaseSnRead1_eq]
  simp only [doAvail_eq, State.goto, List.append_assoc]
  rfl

/-- From SN_REQ2, the count being enough: the six reads. -/
theorem runOp_secondReads (m : Nat) (s : State) (hp : s.phase = .snReq2) (h6 : 6 ≤ s.availAnswer 0) :
    runOp (m + 2) s = runOp m { s with
      phase := .snSelect, sn := placeSn s.params.snMap.store2.toList s.readAnswer s.sn
      availIn := s.availIn.drop 1, availDrawn := s.availDrawn + (1 - s.availIn.length)
      readIn := s.readIn.drop 6, readDrawn := s.readDrawn + (6 - s.readIn.length)
      trace := s.trace ++ ([.avail (s.availAnswer 0)] ++ readEvents s 6) } := by
  have h2 : tick s = (doAvail s).goto .snRead2 := (tick_snReq2 hp).trans (awaitBytes_ready h6)
  rw [runOp_waited (k := m + 1) (by rw [hp]; rfl) (by rw [h2, hp]; exact Phase.noConfusion), h2, runOp_tick rfl rfl,
    tick_snRead2 rfl, phaseSnRead2_eq]
  simp only [doAvail_eq, State.goto, List.append_assoc]
  rfl

/-- From SN_ADDR2, the count being too low: the wait begins. -/
theorem runOp_secondWait (m : Nat) (s : State) (hp : s.phase = .snAddr2) (h6 : s.availAnswer 0 < 6) :
    runOp (m + 2) s = { s with
      phase := .snReq2
      availIn := s.availIn.drop 1, availDrawn := s.availDrawn + (1 - s.availIn.length)
      trace := s.trace ++ secondRequestEvents (s.availAnswer 0) } := by
  rw [runOp_tick (k := m + 1) (by rw [hp]; rfl) (by rw [hp]; rfl), tick_snAddr2 hp, phaseSnAddr2_eq]
  have ht : ∀ x : State, x.phase = .snReq2 → x.availAnswer 0 < 6 → tick x = doAvail x := fun x h1 h2 =>
    (tick_snReq2 h1).trans (awaitBytes_low h2)
  refine (runOp_waits rfl ((congrArg State.phase (ht _ rfl (by exact h6))).trans rfl) m).trans ((ht _ rfl (by exact h6)).trans ?_)
  rw [doAvail_eq]
  simp only [List.append_assoc]
  rfl

/-- SN_SELECT, the location in range and its register written: the byte is returned (R144). -/
theorem runOp_snSelect (m : Nat) {s : State} {l b : Byte} (hp : s.phase = .snSelect) (hl : s.loc = some l) (h : l.toNat < 8)
    (hb : s.sn[l.toNat] = some b) :
    runOp (m + 1) s = { s with phase := .idle, trace := s.trace ++ [.ret (.serial b)] } := by
  have e : phaseSnSelect s = endOp (.serial b) s := by simp only [phaseSnSelect, hl, readReg_some, dif_pos h, hb]
  rw [runOp_tick (by rw [hp]; rfl) (by rw [hp]; rfl), tick_snSelect hp, e]
  exact runOp_settled (s := endOp (.serial b) s) rfl _

/-- SN_SELECT, the location out of range: U_LOC (R205). -/
theorem runOp_snSelectFault (m : Nat) {s : State} {l : Byte} (hp : s.phase = .snSelect) (hl : s.loc = some l) (h : 7 < l.toNat) :
    runOp (m + 1) s = { s with phase := .faulted, cause := some (.uLoc l) } := by
  have e : phaseSnSelect s = s.raise (.uLoc l) := by
    simp only [phaseSnSelect, hl, readReg_some, dif_neg (show ¬ l.toNat < 8 by omega)]
  rw [runOp_tick (by rw [hp]; rfl) (by rw [hp]; rfl), tick_snSelect hp, e]
  exact runOp_settled (s := s.raise (.uLoc l)) rfl _

/-- The first response, from the address to the reads. -/
theorem runOp_serial1 (m : Nat) (s : State) (hp : s.phase = .snAddr1) (h8 : 8 ≤ s.availAnswer 0) :
    runOp (m + 3) s = runOp m { s with
      phase := .snAddr2, sn := placeSn s.params.snMap.store1.toList s.readAnswer s.sn
      availIn := s.availIn.drop 1, availDrawn := s.availDrawn + (1 - s.availIn.length)
      readIn := s.readIn.drop 8, readDrawn := s.readDrawn + (8 - s.readIn.length)
      trace := s.trace ++ ([.beginTx 0x40, .write 0xFA, .write 0x0F, .endTx, .request 0x40 8, .avail (s.availAnswer 0)] ++
        readEvents s 8) } := by
  rw [runOp_tick (k := m + 2) (by rw [hp]; rfl) (by rw [hp]; rfl), tick_snAddr1 hp, phaseSnAddr1_eq]
  refine (runOp_firstReads m { s with
    phase := .snReq1, trace := s.trace ++ [.beginTx 0x40, .write 0xFA, .write 0x0F, .endTx, .request 0x40 8] } rfl h8).trans ?_
  simp only [List.append_assoc]
  rfl

/-- The second response. -/
theorem runOp_serial2 (m : Nat) (s : State) (hp : s.phase = .snAddr2) (h6 : 6 ≤ s.availAnswer 0) :
    runOp (m + 3) s = runOp m { s with
      phase := .snSelect, sn := placeSn s.params.snMap.store2.toList s.readAnswer s.sn
      availIn := s.availIn.drop 1, availDrawn := s.availDrawn + (1 - s.availIn.length)
      readIn := s.readIn.drop 6, readDrawn := s.readDrawn + (6 - s.readIn.length)
      trace := s.trace ++ (secondRequestEvents (s.availAnswer 0) ++ readEvents s 6) } := by
  rw [runOp_tick (k := m + 2) (by rw [hp]; rfl) (by rw [hp]; rfl), tick_snAddr2 hp, phaseSnAddr2_eq]
  refine (runOp_secondReads m { s with
    phase := .snReq2, trace := s.trace ++ [.beginTx 0x40, .write 0xFC, .write 0xC9, .endTx, .request 0x40 6] } rfl h6).trans ?_
  simp only [List.append_assoc]
  rfl

/-- From the first address to the read-out, both responses there at the first check. -/
theorem runOp_serial (m : Nat) (s : State) (hp : s.phase = .snAddr1) (h8 : 8 ≤ s.availAnswer 0) (h6 : 6 ≤ s.availAnswer 1) :
    runOp (m + 6) s = runOp m { s with
      phase := .snSelect
      sn := placeSn (snDests s.params.snMap) s.readAnswer s.sn
      availIn := s.availIn.drop 2, availDrawn := s.availDrawn + (2 - s.availIn.length)
      readIn := s.readIn.drop 14, readDrawn := s.readDrawn + (14 - s.readIn.length)
      trace := s.trace ++ serialEvents s } := by
  have a1 : (s.afterAvails 1).availAnswer 0 = s.availAnswer 1 := availAnswer_afterAvails s 1 0
  have r8 : ∀ i, (s.afterReads 8).readAnswer i = s.readAnswer (8 + i) := readAnswer_afterReads s 8
  rw [show m + 6 = m + 3 + 3 from rfl, runOp_serial1 _ s hp h8]
  refine (runOp_serial2 m { s with
      phase := .snAddr2, sn := placeSn s.params.snMap.store1.toList s.readAnswer s.sn
      availIn := s.availIn.drop 1, availDrawn := s.availDrawn + (1 - s.availIn.length)
      readIn := s.readIn.drop 8, readDrawn := s.readDrawn + (8 - s.readIn.length)
      trace := s.trace ++ ([.beginTx 0x40, .write 0xFA, .write 0x0F, .endTx, .request 0x40 8, .avail (s.availAnswer 0)] ++
        readEvents s 8) } rfl (a1 ▸ h6)).trans ?_
  have e1 : s.availDrawn + (1 - s.availIn.length) + (1 - (s.availIn.length - 1)) = s.availDrawn + (2 - s.availIn.length) := by omega
  have e2 : s.readDrawn + (8 - s.readIn.length) + (6 - (s.readIn.length - 8)) = s.readDrawn + (14 - s.readIn.length) := by omega
  have hr : ∀ x : State, x.readIn = s.readIn.drop 8 → x.readDrawn = s.readDrawn + (8 - s.readIn.length) →
      ∀ i, x.readAnswer i = s.readAnswer (8 + i) := fun x h1 h2 i => (readAnswer_congr (s := s.afterReads 8) h1 h2 i).trans (r8 i)
  have ha : ∀ x : State, x.availIn = s.availIn.drop 1 → x.availDrawn = s.availDrawn + (1 - s.availIn.length) →
      x.availAnswer 0 = s.availAnswer 1 := fun x h1 h2 => (availAnswer_congr (s := s.afterAvails 1) h1 h2 0).trans a1
  have hplace : ∀ x : State, x.readIn = s.readIn.drop 8 → x.readDrawn = s.readDrawn + (8 - s.readIn.length) →
      placeSn s.params.snMap.store2.toList x.readAnswer (placeSn s.params.snMap.store1.toList s.readAnswer s.sn) =
        placeSn (snDests s.params.snMap) s.readAnswer s.sn := fun x h1 h2 => by
    rw [snDests, placeSn_append, Vector.length_toList]
    exact placeSn_congr _ (hr x h1 h2) _
  have hev : ∀ x : State, x.readIn = s.readIn.drop 8 → x.readDrawn = s.readDrawn + (8 - s.readIn.length) →
      x.availIn = s.availIn.drop 1 → x.availDrawn = s.availDrawn + (1 - s.availIn.length) →
      [.beginTx 0x40, .write 0xFA, .write 0x0F, .endTx, .request 0x40 8, .avail (s.availAnswer 0)] ++ readEvents s 8 ++
        (secondRequestEvents (x.availAnswer 0) ++ readEvents x 6) =
      serialEvents s := fun x h1 h2 h3 h4 => by
    simp only [serialEvents, secondRequestEvents, readEvents, ha x h3 h4, hr x h1 h2, List.append_assoc]
  simp only [List.drop_drop, List.length_drop, e1, e2]
  rw [hplace, List.append_assoc s.trace, hev]
  all_goals rfl

end Sys2Proof.Machine
end

