-- ==== Sys2Proof/Laws/Keeps.lean ====
section
/-! SUPPORT. What no visit changes: the HOST channel, the parameters, OPSEL, the events already emitted, and BEGUN once set. -/

namespace Sys2Proof.Machine

/-- From one state to a later one of the same operation. -/
structure State.Keeps (s t : State) : Prop where
  host : t.host = s.host
  params : t.params = s.params
  opsel : t.opsel = s.opsel
  trace : s.trace <+: t.trace
  begun : s.begun = true → t.begun = true

theorem State.Keeps.refl (s : State) : s.Keeps s := ⟨rfl, rfl, rfl, List.prefix_rfl, id⟩

theorem State.Keeps.trans {s t u : State} (h : s.Keeps t) (h' : t.Keeps u) : s.Keeps u :=
  ⟨h'.host.trans h.host, h'.params.trans h.params, h'.opsel.trans h.opsel, h.trace.trans h'.trace, h'.begun ∘ h.begun⟩

/-- A record update that appends events. -/
theorem State.Keeps.of {s t : State} (es : List Event) (h1 : t.host = s.host) (h2 : t.params = s.params)
    (h3 : t.opsel = s.opsel) (h4 : t.trace = s.trace ++ es) (h5 : t.begun = s.begun) : s.Keeps t :=
  ⟨h1, h2, h3, ⟨es, h4.symm⟩, fun h => h5.trans h⟩

theorem State.Keeps.raise (s : State) (f : Fault) : s.Keeps (s.raise f) :=
  .of [] rfl rfl rfl (List.append_nil _).symm rfl

theorem State.Keeps.goto (s : State) (p : Phase) : s.Keeps (s.goto p) :=
  .of [] rfl rfl rfl (List.append_nil _).symm rfl

theorem State.Keeps.endOp (s : State) (v : RetVal) : s.Keeps (endOp v s) := .of [.ret v] rfl rfl rfl rfl rfl

theorem State.Keeps.doAvail (s : State) : s.Keeps (doAvail s) := .of [.avail (s.availAnswer 0)] rfl rfl rfl rfl rfl

theorem State.Keeps.readReg {α : Type} (s : State) (r : Option α) (name : RegName) {k : α → State}
    (hk : ∀ v, r = some v → s.Keeps (k v)) : s.Keeps (readReg r name s k) := by
  cases r with
  | none => exact .raise s _
  | some v => exact hk v rfl

theorem State.Keeps.finishReadHm (s : State) (v : RawCode) : s.Keeps (finishReadHm v s) := by
  rcases finishReadHm_cases v s with ⟨-, he⟩ | ⟨-, he⟩ | ⟨-, f, he⟩ <;> rw [he]
  · exact .of [.ret (.raw v)] rfl rfl rfl rfl rfl
  · exact .of [] rfl rfl rfl (List.append_nil _).symm rfl
  · exact .of [] rfl rfl rfl (List.append_nil _).symm rfl

theorem State.Keeps.afterCompare (s : State) (m : Bool) : s.Keeps (afterCompare m s) := by
  have hm : s.Keeps (if m then enterRecovery s else Machine.readReg s.raw .raw s fun r => Machine.finishReadHm r s) := by
    split
    · exact .goto s _
    · exact .readReg s _ _ fun r _ => .finishReadHm s r
  refine .readReg s _ _ fun op _ => ?_
  split
  · exact .endOp s _
  · exact hm
  · exact hm
  · exact hm
  · exact .raise s _

theorem State.Keeps.pollLoop (left : Nat) (s : State) : s.Keeps (pollLoop left s) := by
  induction left generalizing s with
  | zero =>
    unfold Machine.pollLoop
    split
    · exact (State.Keeps.doAvail s).trans (.goto _ _)
    · exact (State.Keeps.doAvail s).trans (.finishReadHm _ _)
  | succ l ih =>
    unfold Machine.pollLoop
    split
    · exact (State.Keeps.doAvail s).trans (.goto _ _)
    · have h : s.Keeps { doWait tPollMs (Machine.doAvail s) with n := some (BitVec.ofNat 4 (pollMax - l)) } :=
        .of [.avail (s.availAnswer 0), .wait tPollMs] rfl rfl rfl (by simp [doWait_eq, doAvail_eq]) rfl
      exact h.trans (ih _)

/-- Every visit keeps them. -/
theorem State.Keeps.tick (s : State) : s.Keeps (tick s) := by
  have same : ∀ t : State, t.host = s.host → t.params = s.params → t.opsel = s.opsel → t.trace = s.trace → t.begun = s.begun →
      s.Keeps t := fun t h1 h2 h3 h4 h5 => .of [] h1 h2 h3 (by rw [h4, List.append_nil]) h5
  cases hp : s.phase with
  | idle => rw [tick_idle hp]; exact .refl s
  | faulted => rw [tick_faulted hp]; exact .refl s
  | beginSession =>
    rw [tick_beginSession hp]
    exact ⟨rfl, rfl, rfl, ⟨[.beginSession, .ret .unit], by simp [phaseBeginSession, endOp_eq, doBeginSession_eq]⟩, fun _ => rfl⟩
  | rstSend => rw [tick_rstSend hp]; exact .of [.beginTx 0x40, .write 0xFE, .endTx] rfl rfl rfl rfl rfl
  | rstWait =>
    rw [tick_rstWait hp]
    exact .of [.wait 15, .ret .unit] rfl rfl rfl (by simp [phaseRstWait, endOp_eq, doWait_eq, tResetMs]) rfl
  | rdSelect => rw [tick_rdSelect hp]; exact .readReg s _ _ fun c _ => same _ rfl rfl rfl rfl rfl
  | rdSend =>
    rw [tick_rdSend hp]
    exact .readReg s _ _ fun c _ => .of [.beginTx 0x40, .write c, .endTx] rfl rfl rfl rfl rfl
  | rdWait =>
    rw [tick_rdWait hp, phaseRdWait]
    split
    · rename_i d _; exact .of [.wait d.toNat] rfl rfl rfl rfl rfl
    · exact .readReg s _ _ fun c _ => .raise s _
  | rdRequest => rw [tick_rdRequest hp]; exact .of [.request 0x40 3] rfl rfl rfl rfl rfl
  | rdPoll => rw [tick_rdPoll hp]; exact (same { s with n := some 0 } rfl rfl rfl rfl rfl).trans (.pollLoop _ _)
  | rdRead => rw [tick_rdRead hp, phaseRdRead_eq]; exact .of (readEvents s 3) rfl rfl rfl rfl rfl
  | rdCheck =>
    rw [tick_rdCheck hp]
    exact .readReg s _ _ fun a _ => .readReg s _ _ fun b _ => .readReg s _ _ fun c _ => same _ rfl rfl rfl rfl rfl
  | rdRecover =>
    rw [tick_rdRecover hp]
    have h : s.Keeps (doWait tResetMs (doTx [cmdSoftReset] s)) :=
      .of softResetEvents rfl rfl rfl (by simp only [doWait_eq, doTx_eq, List.append_assoc]; rfl) rfl
    exact h.trans (.finishReadHm _ _)
  | convert =>
    have hT : ∀ r, s.Keeps (finishT r s) := fun r => .of [.ret (.tnum (tNum r))] rfl rfl rfl rfl rfl
    have hRh : ∀ r, s.Keeps (finishRh r s) := fun r => .of [.ret (.rhnum (rhNum r))] rfl rfl rfl rfl rfl
    rw [tick_convert hp, phaseConvert]
    refine .readReg s _ _ fun op _ => ?_
    split
    · exact .readReg s _ _ fun r _ => hT r
    · exact .readReg s _ _ fun r _ => hRh r
    · exact .readReg s _ _ fun r _ => hT r
    · exact .readReg s _ _ fun r _ => hRh r
    · exact .raise s _
  | snAddr1 =>
    rw [tick_snAddr1 hp, phaseSnAddr1_eq]
    exact .of [.beginTx 0x40, .write 0xFA, .write 0x0F, .endTx, .request 0x40 8] rfl rfl rfl rfl rfl
  | snAddr2 =>
    rw [tick_snAddr2 hp, phaseSnAddr2_eq]
    exact .of [.beginTx 0x40, .write 0xFC, .write 0xC9, .endTx, .request 0x40 6] rfl rfl rfl rfl rfl
  | snReq1 =>
    rw [tick_snReq1 hp, phaseSnReq1, awaitBytes]
    split
    · exact (State.Keeps.doAvail s).trans (.goto _ _)
    · exact .doAvail s
  | snReq2 =>
    rw [tick_snReq2 hp, phaseSnReq2, awaitBytes]
    split
    · exact (State.Keeps.doAvail s).trans (.goto _ _)
    · exact .doAvail s
  | snRead1 => rw [tick_snRead1 hp, phaseSnRead1_eq]; exact .of (readEvents s 8) rfl rfl rfl rfl rfl
  | snRead2 => rw [tick_snRead2 hp, phaseSnRead2_eq]; exact .of (readEvents s 6) rfl rfl rfl rfl rfl
  | snSelect =>
    rw [tick_snSelect hp]
    refine .readReg s _ _ fun l _ => ?_
    split
    · exact .readReg s _ _ fun b _ => .endOp s _
    · exact .raise s _
  | crcXor =>
    rw [tick_crcXor hp]
    exact .readReg s _ _ fun a _ => .readReg s _ _ fun i _ => .readReg s _ _ fun b _ => same _ rfl rfl rfl rfl rfl
  | crcShift =>
    rw [tick_crcShift hp]
    refine .readReg s _ _ fun a _ => .readReg s _ _ fun k _ => .readReg s _ _ fun i _ => .readReg s _ _ fun len _ => ?_
    split
    · exact same _ rfl rfl rfl rfl rfl
    · exact same _ rfl rfl rfl rfl rfl
  | crcCompare =>
    rw [tick_crcCompare hp]
    refine .readReg s _ _ fun a _ => .readReg s _ _ fun e _ => ?_
    exact (same { s with mismatch := some (mismatchFlag a e) } rfl rfl rfl rfl rfl).trans (.afterCompare _ _)

/-- A run keeps them. -/
theorem State.Keeps.runOp (k : Nat) (s : State) : s.Keeps (runOp k s) :=
  runOp_keeps (P := s.Keeps) (fun t h => h.trans (.tick t)) k s (.refl s)

/-- Any number of visits keep them. -/
theorem State.Keeps.ticks (n : Nat) (s : State) : s.Keeps (ticks n s) :=
  ticks_keeps (P := s.Keeps) (fun t h => h.trans (.tick t)) n s (.refl s)

end Sys2Proof.Machine
end

