-- ==== Sys2Proof/Laws/Discipline.lean ====
section
/-! SUPPORT. One visit of the sequencer keeps write-before-read. -/

namespace Sys2Proof.Machine

theorem State.Disciplined.idle {s : State} (hv : s.params.snMap.valid = true) (hp : s.phase = .idle) : s.Disciplined :=
  ⟨hv, fun h => absurd hp h, by rw [hp]; trivial, fun h => absurd (hp.symm.trans h) Phase.noConfusion⟩

/-- Into another busy phase. -/
theorem State.Disciplined.busy {s t : State} (h : s.Disciplined) (hi : s.phase ≠ .idle) (hpar : t.params = s.params) (ho : t.opsel = s.opsel)
    (hv : ∀ op, s.opsel = some op → op.visits s.phase = true → op.visits t.phase = true) (hf : t.phase ≠ .faulted)
    (hr : t.readable t.phase) : t.Disciplined := by
  obtain ⟨op, hop, hvis⟩ := h.opsel hi
  exact ⟨hpar ▸ h.snMap, fun _ => ⟨op, ho.trans hop, hv op hop hvis⟩, hr, fun hq => absurd hq hf⟩

/-- Into FAULTED, with a cause that the discipline allows. -/
theorem State.Disciplined.raise {s : State} (h : s.Disciplined) (hi : s.phase ≠ .idle) {f : Fault} (hf : f.reachable = true) :
    (s.raise f).Disciplined := by
  obtain ⟨op, hop, -⟩ := h.opsel hi
  exact ⟨h.snMap, fun _ => ⟨op, hop, rfl⟩, trivial, fun _ => ⟨f, rfl, hf⟩⟩

theorem readReg_eq {α : Type} {r : Option α} (h : r.isSome = true) (name : RegName) (s : State) {k : α → State} {P : State → Prop}
    (hk : ∀ v, r = some v → P (k v)) : P (readReg r name s k) := by
  cases r with
  | none => cases h
  | some v => exact hk v rfl

/-- The operation in a phase of READ_HM measures. -/
theorem State.Disciplined.measuring {s : State} (h : s.Disciplined) {p : Phase} (hp : s.phase = p) (hi : p ≠ .idle)
    (hm : ∀ op : HostOp, op.visits p = true → op.measures = true) : ∃ op, s.opsel = some op ∧ op.measures = true := by
  obtain ⟨op, ho, hv⟩ := h.opsel (hp ▸ hi)
  exact ⟨op, ho, hm op (hp ▸ hv)⟩

/-- READ_HM's exits. -/
theorem State.Disciplined.finishReadHm {s : State} (hv : s.params.snMap.valid = true) {op : HostOp} (ho : s.opsel = some op)
    (hm : op.measures = true) (v : RawCode) : (finishReadHm v s).Disciplined := by
  rcases finishReadHm_cases v s with ⟨-, he⟩ | ⟨hq, he⟩ | ⟨hq, f, he⟩
  · rw [he]; exact .idle hv rfl
  · rw [he]
    refine ⟨hv, fun _ => ⟨op, ho, ?_⟩, ⟨fun _ => rfl, fun hc => ?_⟩, fun hf => absurd hf Phase.noConfusion⟩
    · rcases hq with hq | hq <;> cases ho.symm.trans hq <;> rfl
    · rcases hq with hq | hq <;> rcases hc with hc | hc <;> cases hq.symm.trans hc
  · exact absurd (hq op ho) (by rw [hm]; decide)

theorem State.Disciplined.pollLoop (left : Nat) {s : State} (hv : s.params.snMap.valid = true) {op : HostOp} (ho : s.opsel = some op)
    (hm : op.measures = true) : (pollLoop left s).Disciplined := by
  have hread : ((Machine.doAvail s).goto .rdRead).Disciplined :=
    ⟨hv, fun _ => ⟨op, ho, hm⟩, trivial, fun hf => absurd hf Phase.noConfusion⟩
  induction left generalizing s with
  | zero =>
    unfold Machine.pollLoop
    split
    · exact hread
    · exact .finishReadHm (s := Machine.doAvail s) hv ho hm _
  | succ l ih =>
    unfold Machine.pollLoop
    split
    · exact hread
    · exact ih (s := { doWait tPollMs (Machine.doAvail s) with n := some (BitVec.ofNat 4 (pollMax - l)) }) hv ho
        ⟨hv, fun _ => ⟨op, ho, hm⟩, trivial, fun hf => absurd hf Phase.noConfusion⟩

/-- Every visit keeps it. -/
theorem State.Disciplined.tick {s : State} (h : s.Disciplined) : (tick s).Disciplined := by
  have hr := h.readable
  cases hp : s.phase with
  | idle => rw [tick_idle hp]; exact h
  | faulted => rw [tick_faulted hp]; exact h
  | beginSession => rw [tick_beginSession hp]; exact .idle h.snMap rfl
  | rstSend =>
    rw [tick_rstSend hp]
    exact h.busy (by rw [hp]; exact Phase.noConfusion) rfl rfl
      (fun op _ hv => by rw [hp] at hv; cases op <;> exact hv) Phase.noConfusion trivial
  | rstWait => rw [tick_rstWait hp]; exact .idle h.snMap rfl
  | rdSelect =>
    rw [hp] at hr
    rw [tick_rdSelect hp]
    exact readReg_eq hr _ _ fun c hc => h.busy (by rw [hp]; exact Phase.noConfusion) rfl rfl
      (fun op _ hv => by rw [hp] at hv; cases op <;> exact hv) Phase.noConfusion ⟨hr, by rw [hc]; rfl⟩
  | rdSend =>
    rw [hp] at hr
    rw [tick_rdSend hp]
    exact readReg_eq hr.1 _ _ fun c hc => h.busy (by rw [hp]; exact Phase.noConfusion) rfl rfl
      (fun op _ hv => by rw [hp] at hv; cases op <;> exact hv) Phase.noConfusion hr
  | rdWait =>
    rw [hp] at hr
    obtain ⟨hc, hd⟩ := hr
    obtain ⟨c, hc⟩ := Option.isSome_iff_exists.1 hc
    rw [tick_rdWait hp, phaseRdWait]
    split
    · exact h.busy (by rw [hp]; exact Phase.noConfusion) rfl rfl
        (fun op _ hv => by rw [hp] at hv; cases op <;> exact hv) Phase.noConfusion trivial
    · rename_i hnone
      rw [hc, readReg_some]
      refine h.raise (by rw [hp]; exact Phase.noConfusion) ?_
      have hs : selectDelay c = none := by rw [← hnone, hd, hc]; rfl
      simp only [selectDelay] at hs
      split at hs
      · cases hs
      · split at hs
        · cases hs
        · rename_i h1 h2
          simp [Fault.reachable, h1, h2]
  | rdRequest =>
    rw [tick_rdRequest hp]
    exact h.busy (by rw [hp]; exact Phase.noConfusion) rfl rfl
      (fun op _ hv => by rw [hp] at hv; cases op <;> exact hv) Phase.noConfusion trivial
  | rdPoll =>
    obtain ⟨op, ho, hm⟩ := h.measuring hp Phase.noConfusion fun _ hv => hv
    rw [tick_rdPoll hp]
    exact .pollLoop (s := { s with n := some 0 }) _ h.snMap ho hm
  | rdRead =>
    rw [tick_rdRead hp, phaseRdRead_eq]
    exact h.busy (by rw [hp]; exact Phase.noConfusion) rfl rfl
      (fun op _ hv => by rw [hp] at hv; cases op <;> exact hv) Phase.noConfusion ⟨rfl, rfl, rfl, rfl⟩
  | rdCheck =>
    rw [hp] at hr
    obtain ⟨h0, h1, h2, h3⟩ := hr
    rw [tick_rdCheck hp]
    exact readReg_eq h0 _ _ fun a _ => readReg_eq h1 _ _ fun b _ => readReg_eq h2 _ _ fun c _ =>
      h.busy (by rw [hp]; exact Phase.noConfusion) rfl rfl
        (fun op _ hv => by rw [hp] at hv; cases op <;> first | exact hv | rfl) Phase.noConfusion
        ⟨⟨rfl, rfl, fun _ => h3⟩, 0, 2, rfl, rfl, rfl, by decide⟩
  | rdRecover =>
    obtain ⟨op, ho, hm⟩ := h.measuring hp Phase.noConfusion fun _ hv => hv
    rw [tick_rdRecover hp]
    exact .finishReadHm (s := doWait tResetMs (doTx [cmdSoftReset] s)) h.snMap ho hm _
  | convert =>
    rw [hp] at hr
    obtain ⟨op, ho, hv⟩ := h.opsel (by rw [hp]; exact Phase.noConfusion)
    rw [hp] at hv
    have hend : ∀ (v : RetVal) (x : State), x.params = s.params → (endOp v x).Disciplined := fun v x hx => .idle (hx ▸ h.snMap) rfl
    rw [tick_convert hp, phaseConvert, ho, readReg_some]
    cases op
    case getTemperature => exact readReg_eq (hr.1 (.inl ho)) _ _ fun r _ => hend _ _ rfl
    case getHumidity => exact readReg_eq (hr.1 (.inr ho)) _ _ fun r _ => hend _ _ rfl
    case calcT => exact readReg_eq (hr.2 (.inl ho)) _ _ fun r _ => hend _ _ rfl
    case calcRh => exact readReg_eq (hr.2 (.inr ho)) _ _ fun r _ => hend _ _ rfl
    all_goals exact absurd hv (by decide)
  | snAddr1 =>
    rw [hp] at hr
    rw [tick_snAddr1 hp, phaseSnAddr1_eq]
    exact h.busy (by rw [hp]; exact Phase.noConfusion) rfl rfl
      (fun op _ hv => by rw [hp] at hv; cases op <;> exact hv) Phase.noConfusion hr
  | snAddr2 =>
    rw [hp] at hr
    rw [tick_snAddr2 hp, phaseSnAddr2_eq]
    exact h.busy (by rw [hp]; exact Phase.noConfusion) rfl rfl
      (fun op _ hv => by rw [hp] at hv; cases op <;> exact hv) Phase.noConfusion hr
  | snReq1 =>
    rw [tick_snReq1 hp, phaseSnReq1, awaitBytes]
    split
    · rw [hp] at hr
      exact h.busy (by rw [hp]; exact Phase.noConfusion) rfl rfl
        (fun op _ hv => by rw [hp] at hv; cases op <;> exact hv) Phase.noConfusion hr
    · exact h.busy (by rw [hp]; exact Phase.noConfusion) rfl rfl (fun op _ hv => hv)
        (by rw [show (doAvail s).phase = s.phase from rfl, hp]; exact Phase.noConfusion)
        (by rw [show (doAvail s).phase = s.phase from rfl]; rw [hp] at hr ⊢; exact hr)
  | snReq2 =>
    rw [tick_snReq2 hp, phaseSnReq2, awaitBytes]
    split
    · rw [hp] at hr
      exact h.busy (by rw [hp]; exact Phase.noConfusion) rfl rfl
        (fun op _ hv => by rw [hp] at hv; cases op <;> exact hv) Phase.noConfusion hr
    · exact h.busy (by rw [hp]; exact Phase.noConfusion) rfl rfl (fun op _ hv => hv)
        (by rw [show (doAvail s).phase = s.phase from rfl, hp]; exact Phase.noConfusion)
        (by rw [show (doAvail s).phase = s.phase from rfl]; rw [hp] at hr ⊢; exact hr)
  | snRead1 =>
    rw [hp] at hr
    rw [tick_snRead1 hp, phaseSnRead1_eq]
    refine h.busy (by rw [hp]; exact Phase.noConfusion) rfl rfl
      (fun op _ hv => by rw [hp] at hv; cases op <;> exact hv) Phase.noConfusion ⟨hr, fun i hi => ?_⟩
    exact placeSn_written hi
  | snRead2 =>
    rw [hp] at hr
    rw [tick_snRead2 hp, phaseSnRead2_eq]
    refine h.busy (by rw [hp]; exact Phase.noConfusion) rfl rfl
      (fun op _ hv => by rw [hp] at hv; cases op <;> exact hv) Phase.noConfusion ⟨hr.1, fun i => ?_⟩
    rcases List.mem_append.1 (snMap_covers h.snMap i) with hm | hm
    · exact placeSn_keeps (hr.2 i hm)
    · exact placeSn_written hm
  | snSelect =>
    rw [hp] at hr
    rw [tick_snSelect hp]
    refine readReg_eq hr.1 _ _ fun l _ => ?_
    split
    · rename_i hl
      exact readReg_eq (hr.2 ⟨l.toNat, hl⟩) _ _ fun b _ => .idle h.snMap rfl
    · rename_i hl
      exact h.raise (by rw [hp]; exact Phase.noConfusion) (by simp [Fault.reachable]; omega)
  | crcXor =>
    rw [hp] at hr
    obtain ⟨⟨ha, he, hraw⟩, i, len, hi, hl, hd, hlt⟩ := hr
    rw [tick_crcXor hp]
    refine readReg_eq ha _ _ fun a _ => readReg_eq (hi ▸ rfl) _ _ fun j hj => ?_
    obtain rfl : i = j := Option.some.inj (hi.symm.trans hj)
    refine readReg_eq (by rw [List.getElem?_eq_getElem (by omega)]; rfl) _ _ fun b _ => ?_
    exact h.busy (by rw [hp]; exact Phase.noConfusion) rfl rfl
      (fun op _ hv => by rw [hp] at hv; exact hv) Phase.noConfusion ⟨⟨rfl, he, hraw⟩, rfl, i, len, hi, hl, hd, hlt⟩
  | crcShift =>
    rw [hp] at hr
    obtain ⟨⟨ha, he, hraw⟩, hk, i, len, hi, hl, hd, hlt⟩ := hr
    rw [tick_crcShift hp]
    refine readReg_eq ha _ _ fun a _ => readReg_eq hk _ _ fun k _ => readReg_eq (hi ▸ rfl) _ _ fun j hj =>
      readReg_eq (hl ▸ rfl) _ _ fun len' hlen => ?_
    obtain rfl : i = j := Option.some.inj (hi.symm.trans hj)
    obtain rfl : len = len' := Option.some.inj (hl.symm.trans hlen)
    have hlen256 := len.isLt
    have hi1 : (i + 1).toNat = i.toNat + 1 := by
      simp only [BitVec.toNat_add]; change (i.toNat + 1) % 256 = _; omega
    have hvisX : ∀ op : HostOp, op.visits s.phase = true → op.visits .crcXor = true := fun op hv => by rw [hp] at hv; exact hv
    split
    · by_cases hlast : i + 1 = len
      · refine h.busy (by rw [hp]; exact Phase.noConfusion) rfl rfl ?_ ?_ ?_ <;> simp only [afterByte, hlast, if_true]
        · exact fun op _ hv => hvisX op hv
        · exact Phase.noConfusion
        · exact ⟨rfl, he, hraw⟩
      · refine h.busy (by rw [hp]; exact Phase.noConfusion) rfl rfl ?_ ?_ ?_ <;> simp only [afterByte, if_neg hlast]
        · exact fun op _ hv => hvisX op hv
        · exact Phase.noConfusion
        · exact ⟨⟨rfl, he, hraw⟩, i + 1, len, rfl, hl, hd, by
            have : (i + 1).toNat ≠ len.toNat := fun hq => hlast (BitVec.eq_of_toNat_eq hq)
            omega⟩
    · refine h.busy (by rw [hp]; exact Phase.noConfusion) rfl rfl (fun _ _ hv => hv) (by simp only [hp]; exact Phase.noConfusion) ?_
      simp only [hp]
      exact ⟨⟨rfl, he, hraw⟩, rfl, i, len, hi, hl, hd, hlt⟩
  | crcCompare =>
    rw [hp] at hr
    obtain ⟨ha, he, hraw⟩ := hr
    obtain ⟨op, ho, hv⟩ := h.opsel (by rw [hp]; exact Phase.noConfusion)
    rw [hp] at hv
    rw [tick_crcCompare hp]
    refine readReg_eq ha _ _ fun a _ => readReg_eq he _ _ fun e _ => ?_
    have hm : op.measures = true → s.raw.isSome = true →
        (afterCompare (mismatchFlag a e) { s with mismatch := some (mismatchFlag a e) }).Disciplined := fun hop hsome => by
      rw [afterCompare_measures _ (by exact ho) hop]
      split
      · exact ⟨h.snMap, fun _ => ⟨op, ho, hop⟩, trivial, fun hf => absurd hf Phase.noConfusion⟩
      · exact readReg_eq hsome _ _ fun r _ => .finishReadHm (s := { s with mismatch := some (mismatchFlag a e) }) h.snMap ho hop _
    cases op
    case crcCheck => rw [afterCompare_crcCheck _ (by exact ho)]; exact .idle h.snMap rfl
    case readHm => exact hm rfl (hraw (by rw [ho]; decide))
    case getTemperature => exact hm rfl (hraw (by rw [ho]; decide))
    case getHumidity => exact hm rfl (hraw (by rw [ho]; decide))
    all_goals exact absurd hv (by decide)

end Sys2Proof.Machine
end

