-- ==== Sys2Proof/Laws/Invariant.lean ====
section
/-! SUPPORT. One visit keeps the block's invariant. -/

namespace Sys2Proof.Machine

/-- A visit of a busy phase keeps the invariant, if it extends the trace legally and writes within the ranges. -/
theorem State.Inv.move {s t : State} (h : s.Inv) (hi : s.phase ≠ .idle) (es : List Event)
    (htr : t.trace = s.trace ++ es) (hrun : TraceMode.run .inside es = some t.phase.traceMode)
    (hc : t.phase = .faulted ↔ t.cause.isSome = true) (ho : t.opsel = s.opsel) (hb : s.begun = true → t.begun = true)
    (hv : ∀ op, s.opsel = some op → op.visits s.phase = true → op.visits t.phase = true)
    (hn : t.n = s.n ∨ ∃ v, t.n = some v ∧ v.toNat ≤ 10)
    (hbit : (t.bitn = s.bitn ∧ t.phase ≠ .crcShift) ∨ ∃ v, t.bitn = some v ∧ v.toNat ≤ 8 ∧ (t.phase = .crcShift → v.toNat < 8))
    (hd : t.dly = s.dly ∨ ∀ d, t.dly = some d → d = 30 ∨ d = 85)
    (hraw : (t.raw = s.raw ∧ t.d0 = s.d0 ∧ t.d1 = s.d1) ∨ t.raw = rawOf t.d0 t.d1)
    (htn : t.tnum = s.tnum ∨ ∃ r, t.tnum = some (tNum r)) (hrh : t.rhnum = s.rhnum ∨ ∃ r, t.rhnum = some (rhNum r)) :
    t.Inv := by
  obtain ⟨op, hop, hvis, hbus⟩ := h.opsel hi
  refine ⟨?_, hc, fun _ => ⟨op, ho.trans hop, hv op hop hvis, fun hu => hb (hbus hu)⟩, ?_, ?_, ?_, ?_, ?_, ?_⟩
  · have hm : s.phase.traceMode = .inside := by cases hp : s.phase <;> first | exact absurd hp hi | rfl
    rw [htr, traceRun_extend h.trace, hm, hrun]
  · rcases hn with hn | ⟨v, hn, hle⟩
    · rw [hn]; exact h.n
    · intro w hw; cases hn.symm.trans hw; exact hle
  · rcases hbit with ⟨hb', hp⟩ | ⟨v, hb', hle⟩
    · intro w hw; exact ⟨(h.bitn w (hb' ▸ hw)).1, fun hq => absurd hq hp⟩
    · intro w hw; cases hb'.symm.trans hw; exact hle
  · rcases hd with hd | hd
    · rw [hd]; exact h.dly
    · exact hd
  · rcases hraw with ⟨h1, h2, h3⟩ | hr
    · rw [h1, h2, h3]; exact h.raw
    · exact hr
  · rcases htn with hq | ⟨r, hq⟩
    · rw [hq]; exact h.tnum
    · intro w hw; cases hq.symm.trans hw; exact ⟨r, rfl⟩
  · rcases hrh with hq | ⟨r, hq⟩
    · rw [hq]; exact h.rhnum
    · intro w hw; cases hq.symm.trans hw; exact ⟨r, rfl⟩

/-- Taking a fault keeps it: no event, no register. -/
theorem State.Inv.raise {s : State} (h : s.Inv) (hi : s.phase ≠ .idle) (f : Fault) : (s.raise f).Inv :=
  h.move hi [] (by simp [raise_eq]) rfl (by simp [raise_eq]) rfl id (fun _ _ _ => rfl) (.inl rfl) (.inl ⟨rfl, Phase.noConfusion⟩)
    (.inl rfl) (.inl ⟨rfl, rfl, rfl⟩) (.inl rfl) (.inl rfl)

/-- A read of a register keeps it if what follows the read does. -/
theorem State.Inv.readReg {α : Type} {s : State} (h : s.Inv) (hi : s.phase ≠ .idle) (r : Option α) (name : RegName)
    {k : α → State} (hk : ∀ v, r = some v → (k v).Inv) : (Machine.readReg r name s k).Inv := by
  cases r with
  | none => exact h.raise hi _
  | some v => exact hk v rfl

/-- No cause is recorded outside FAULTED. -/
theorem State.Inv.no_cause {s : State} (h : s.Inv) (hf : s.phase ≠ .faulted) : s.cause = none := by
  cases hc : s.cause with
  | none => rfl
  | some f => exact absurd (h.cause.2 (by rw [hc]; rfl)) hf

/-- Changing only the phase, within the operation. -/
theorem State.Inv.goto {s : State} (h : s.Inv) (hi : s.phase ≠ .idle) (hf : s.phase ≠ .faulted) {p : Phase} (hpi : p ≠ .idle)
    (hpf : p ≠ .faulted) (hps : p ≠ .crcShift)
    (hv : ∀ op, s.opsel = some op → op.visits s.phase = true → op.visits p = true) : (s.goto p).Inv :=
  h.move hi [] (by simp [State.goto]) (by cases p <;> first | exact absurd rfl hpi | rfl)
    (by simp [State.goto, h.no_cause hf, hpf]) rfl id hv (.inl rfl) (.inl ⟨rfl, hps⟩)
    (.inl rfl) (.inl ⟨rfl, rfl, rfl⟩) (.inl rfl) (.inl rfl)

/-- Emitting events that stay inside the operation. -/
theorem State.Inv.emits {s : State} (h : s.Inv) (hi : s.phase ≠ .idle) {es : List Event}
    (hrun : TraceMode.run .inside es = some .inside) : (s.emits es).Inv := by
  have hm : s.phase.traceMode = .inside := by cases hp : s.phase <;> first | exact absurd hp hi | rfl
  exact ⟨by rw [State.emits_trace, traceRun_extend h.trace, hm, hrun]; exact congrArg some hm.symm, h.cause, h.opsel, h.n, h.bitn, h.dly, h.raw, h.tnum, h.rhnum⟩

theorem State.Inv.emit {s : State} (h : s.Inv) (hi : s.phase ≠ .idle) {e : Event}
    (hrun : TraceMode.run .inside [e] = some .inside) : (s.emit e).Inv := h.emits hi hrun

theorem State.Inv.doAvail {s : State} (h : s.Inv) (hi : s.phase ≠ .idle) : (doAvail s).Inv :=
  State.Inv.emit (s := s.afterAvails 1) ⟨h.trace, h.cause, h.opsel, h.n, h.bitn, h.dly, h.raw, h.tnum, h.rhnum⟩ hi rfl

theorem State.Inv.doRead {s : State} (h : s.Inv) (hi : s.phase ≠ .idle) : (doRead s).Inv :=
  State.Inv.emit (s := s.afterReads 1) ⟨h.trace, h.cause, h.opsel, h.n, h.bitn, h.dly, h.raw, h.tnum, h.rhnum⟩ hi rfl

/-- The end of an operation. -/
theorem State.Inv.endOp {s : State} (h : s.Inv) (hi : s.phase ≠ .idle) (hf : s.phase ≠ .faulted) (v : RetVal) : (endOp v s).Inv :=
  h.move hi [.ret v] rfl rfl (by simp [endOp_eq, h.no_cause hf]) rfl id (fun _ _ _ => rfl) (.inl rfl)
    (.inl ⟨rfl, Phase.noConfusion⟩) (.inl rfl) (.inl ⟨rfl, rfl, rfl⟩) (.inl rfl) (.inl rfl)

/-- Writing a register that the invariant says nothing of. -/
theorem State.Inv.congr {s t : State} (h : s.Inv) (h1 : t.trace = s.trace) (h2 : t.phase = s.phase) (h3 : t.cause = s.cause)
    (h4 : t.opsel = s.opsel) (h5 : t.begun = s.begun) (h6 : t.n = s.n) (h7 : t.bitn = s.bitn) (h8 : t.dly = s.dly)
    (h9 : t.raw = s.raw) (h10 : t.d0 = s.d0) (h11 : t.d1 = s.d1) (h12 : t.tnum = s.tnum) (h13 : t.rhnum = s.rhnum) : t.Inv := by
  constructor
  · rw [h1, h2]; exact h.trace
  · rw [h2, h3]; exact h.cause
  · rw [h2, h4, h5]; exact h.opsel
  · rw [h6]; exact h.n
  · rw [h7, h2]; exact h.bitn
  · rw [h8]; exact h.dly
  · rw [h9, h10, h11]; exact h.raw
  · rw [h12]; exact h.tnum
  · rw [h13]; exact h.rhnum

/-- The three exits of READ_HM. -/
theorem State.Inv.finishReadHm {s : State} (h : s.Inv) (hi : s.phase ≠ .idle) (hf : s.phase ≠ .faulted) (v : RawCode) :
    (finishReadHm v s).Inv := by
  have ht : ({ s with ret16 := some v } : State).Inv := h.congr rfl rfl rfl rfl rfl rfl rfl rfl rfl rfl rfl rfl rfl
  have hconv : ∀ op, s.opsel = some op → (op = .getTemperature ∨ op = .getHumidity) →
      (({ s with ret16 := some v } : State).goto .convert).Inv := fun op ho hop =>
    ht.goto hi hf Phase.noConfusion Phase.noConfusion Phase.noConfusion fun op' ho' _ => by
      cases ho.symm.trans ho'; rcases hop with rfl | rfl <;> rfl
  rcases finishReadHm_cases v s with ⟨-, he⟩ | ⟨ho | ho, he⟩ | ⟨-, f, he⟩
  · rw [he]; exact ht.endOp hi hf _
  · rw [he]; exact hconv _ ho (.inl rfl)
  · rw [he]; exact hconv _ ho (.inr rfl)
  · rw [he]; exact ht.raise hi f

theorem State.Inv.pollLoop (left : Nat) {s : State} (h : s.Inv) (hp : s.phase = .rdPoll) : (pollLoop left s).Inv := by
  have hi : s.phase ≠ .idle := by rw [hp]; exact Phase.noConfusion
  have hf : s.phase ≠ .faulted := by rw [hp]; exact Phase.noConfusion
  induction left generalizing s with
  | zero =>
    unfold Machine.pollLoop
    split
    · exact (h.doAvail hi).goto hi hf Phase.noConfusion Phase.noConfusion Phase.noConfusion fun op _ hv => by
        rw [show (Machine.doAvail s).phase = .rdPoll from hp] at hv; cases op <;> exact hv
    · exact (h.doAvail hi).finishReadHm hi hf _
  | succ l ih =>
    unfold Machine.pollLoop
    split
    · exact (h.doAvail hi).goto hi hf Phase.noConfusion Phase.noConfusion Phase.noConfusion fun op _ hv => by
        rw [show (Machine.doAvail s).phase = .rdPoll from hp] at hv; cases op <;> exact hv
    · refine ih ?_ hp hi hf
      have h1 : (doWait tPollMs (Machine.doAvail s)).Inv := (h.doAvail hi).emit hi rfl
      refine ⟨h1.trace, h1.cause, h1.opsel, ?_, h1.bitn, h1.dly, h1.raw, h1.tnum, h1.rhnum⟩
      rintro v ⟨⟩
      simp only [BitVec.toNat_ofNat, pollMax]
      omega

theorem State.Inv.readMapped (ds : List (Option (Fin 8))) {s : State} (h : s.Inv) (hi : s.phase ≠ .idle) :
    (readMapped ds s).Inv := by
  rw [readMapped_eq]
  have h1 := h.emits hi (es := readEvents s ds.length) (traceRun_reads _ _)
  exact h1.congr rfl rfl rfl rfl rfl rfl rfl rfl rfl rfl rfl rfl rfl

/-- A move to another phase of the operation, with these events and no write that the invariant speaks of. -/
theorem State.Inv.advance {s t : State} (h : s.Inv) (hi : s.phase ≠ .idle) (hf : s.phase ≠ .faulted) (es : List Event)
    (htr : t.trace = s.trace ++ es) (hrun : TraceMode.run .inside es = some .inside) (hpi : t.phase ≠ .idle)
    (hpf : t.phase ≠ .faulted) (hps : t.phase ≠ .crcShift) (hc : t.cause = s.cause) (ho : t.opsel = s.opsel) (hb : t.begun = s.begun)
    (hv : ∀ op, s.opsel = some op → op.visits s.phase = true → op.visits t.phase = true)
    (hbit : t.bitn = s.bitn) (hn : t.n = s.n) (hd : t.dly = s.dly ∨ ∀ d, t.dly = some d → d = 30 ∨ d = 85)
    (hraw : (t.raw = s.raw ∧ t.d0 = s.d0 ∧ t.d1 = s.d1) ∨ t.raw = rawOf t.d0 t.d1) (htn : t.tnum = s.tnum)
    (hrh : t.rhnum = s.rhnum) : t.Inv :=
  h.move hi es htr (hrun.trans (by cases hp : t.phase <;> first | exact absurd hp hpi | rfl))
    (by rw [hc, h.no_cause hf]; simp [hpf]) ho (by rw [hb]; exact id) hv (.inl hn) (.inl ⟨hbit, hps⟩) hd hraw (.inl htn) (.inl hrh)

/-- Every visit keeps the invariant. -/
theorem State.Inv.tick {s : State} (h : s.Inv) : (tick s).Inv := by
  have go : ∀ (p q : Phase), s.phase = p → (∀ op : HostOp, op.visits p = true → op.visits q = true) →
      ∀ op, s.opsel = some op → op.visits s.phase = true → op.visits q = true := fun p q hp hpq op _ hv =>
    hpq op (hp ▸ hv)
  cases hp : s.phase with
  | idle => rw [tick_idle hp]; exact h
  | faulted => rw [tick_faulted hp]; exact h
  | beginSession =>
    have hi : s.phase ≠ .idle := by rw [hp]; exact Phase.noConfusion
    have hf : s.phase ≠ .faulted := by rw [hp]; exact Phase.noConfusion
    rw [tick_beginSession hp]
    exact h.move hi [.beginSession, .ret .unit] (by simp [phaseBeginSession, endOp_eq, doBeginSession_eq]) rfl
      (by simp [phaseBeginSession, endOp_eq, doBeginSession_eq, h.no_cause hf]) rfl (fun _ => rfl) (fun _ _ _ => rfl) (.inl rfl)
      (.inl ⟨rfl, Phase.noConfusion⟩) (.inl rfl) (.inl ⟨rfl, rfl, rfl⟩) (.inl rfl) (.inl rfl)
  | rstSend =>
    have hi : s.phase ≠ .idle := by rw [hp]; exact Phase.noConfusion
    have hf : s.phase ≠ .faulted := by rw [hp]; exact Phase.noConfusion
    rw [tick_rstSend hp]
    exact h.advance hi hf [.beginTx 0x40, .write 0xFE, .endTx] rfl rfl Phase.noConfusion Phase.noConfusion Phase.noConfusion rfl rfl rfl
      (go _ _ hp fun op hv => by cases op <;> exact hv) rfl rfl (.inl rfl) (.inl ⟨rfl, rfl, rfl⟩) rfl rfl
  | rstWait =>
    have hi : s.phase ≠ .idle := by rw [hp]; exact Phase.noConfusion
    have hf : s.phase ≠ .faulted := by rw [hp]; exact Phase.noConfusion
    rw [tick_rstWait hp]
    exact State.Inv.endOp (s := doWait tResetMs s) (h.emit hi rfl) hi hf _
  | rdSelect =>
    have hi : s.phase ≠ .idle := by rw [hp]; exact Phase.noConfusion
    have hf : s.phase ≠ .faulted := by rw [hp]; exact Phase.noConfusion
    rw [tick_rdSelect hp]
    exact h.readReg hi _ _ fun c _ => h.advance hi hf [] (by simp) rfl Phase.noConfusion Phase.noConfusion Phase.noConfusion rfl rfl rfl
      (go _ _ hp fun op hv => by cases op <;> exact hv) rfl rfl (.inr fun d hd => selectDelay_values hd) (.inl ⟨rfl, rfl, rfl⟩) rfl rfl
  | rdSend =>
    have hi : s.phase ≠ .idle := by rw [hp]; exact Phase.noConfusion
    have hf : s.phase ≠ .faulted := by rw [hp]; exact Phase.noConfusion
    rw [tick_rdSend hp]
    exact h.readReg hi _ _ fun c _ => h.advance hi hf [.beginTx 0x40, .write c, .endTx] rfl rfl Phase.noConfusion Phase.noConfusion
      Phase.noConfusion rfl rfl rfl (go _ _ hp fun op hv => by cases op <;> exact hv) rfl rfl (.inl rfl) (.inl ⟨rfl, rfl, rfl⟩) rfl rfl
  | rdWait =>
    have hi : s.phase ≠ .idle := by rw [hp]; exact Phase.noConfusion
    have hf : s.phase ≠ .faulted := by rw [hp]; exact Phase.noConfusion
    rw [tick_rdWait hp, phaseRdWait]
    split
    · rename_i d hd
      refine h.advance hi hf [.wait d.toNat] rfl ?_ Phase.noConfusion Phase.noConfusion Phase.noConfusion rfl rfl rfl
        (go _ _ hp fun op hv => by cases op <;> exact hv) rfl rfl (.inl rfl) (.inl ⟨rfl, rfl, rfl⟩) rfl rfl
      rcases h.dly d hd with rfl | rfl <;> rfl
    · exact h.readReg hi _ _ fun c _ => h.raise hi _
  | rdRequest =>
    have hi : s.phase ≠ .idle := by rw [hp]; exact Phase.noConfusion
    have hf : s.phase ≠ .faulted := by rw [hp]; exact Phase.noConfusion
    rw [tick_rdRequest hp]
    exact h.advance hi hf [.request 0x40 3] rfl rfl Phase.noConfusion Phase.noConfusion Phase.noConfusion rfl rfl rfl
      (go _ _ hp fun op hv => by cases op <;> exact hv) rfl rfl (.inl rfl) (.inl ⟨rfl, rfl, rfl⟩) rfl rfl
  | rdPoll =>
    rw [tick_rdPoll hp]
    refine State.Inv.pollLoop _ ⟨h.trace, h.cause, h.opsel, ?_, h.bitn, h.dly, h.raw, h.tnum, h.rhnum⟩ hp
    rintro v ⟨⟩
    decide
  | rdRead =>
    have hi : s.phase ≠ .idle := by rw [hp]; exact Phase.noConfusion
    have hf : s.phase ≠ .faulted := by rw [hp]; exact Phase.noConfusion
    rw [tick_rdRead hp, phaseRdRead_eq]
    exact h.advance hi hf (readEvents s 3) rfl (traceRun_reads _ _) Phase.noConfusion Phase.noConfusion Phase.noConfusion rfl rfl rfl
      (go _ _ hp fun op hv => by cases op <;> exact hv) rfl rfl (.inl rfl) (.inr rfl) rfl rfl
  | rdCheck =>
    have hi : s.phase ≠ .idle := by rw [hp]; exact Phase.noConfusion
    have hf : s.phase ≠ .faulted := by rw [hp]; exact Phase.noConfusion
    rw [tick_rdCheck hp]
    exact h.readReg hi _ _ fun a _ => h.readReg hi _ _ fun b _ => h.readReg hi _ _ fun c _ =>
      h.advance hi hf [] (by simp [startCrc]) rfl Phase.noConfusion Phase.noConfusion Phase.noConfusion rfl rfl rfl
        (go _ _ hp fun op hv => by cases op <;> first | exact hv | rfl) rfl rfl (.inl rfl) (.inl ⟨rfl, rfl, rfl⟩) rfl rfl
  | rdRecover =>
    have hi : s.phase ≠ .idle := by rw [hp]; exact Phase.noConfusion
    have hf : s.phase ≠ .faulted := by rw [hp]; exact Phase.noConfusion
    rw [tick_rdRecover hp]
    exact State.Inv.finishReadHm (s := doWait tResetMs (doTx [cmdSoftReset] s))
      (State.Inv.emit (s := doTx [cmdSoftReset] s) (h.emits hi rfl) hi rfl) hi hf _
  | convert =>
    have hi : s.phase ≠ .idle := by rw [hp]; exact Phase.noConfusion
    have hf : s.phase ≠ .faulted := by rw [hp]; exact Phase.noConfusion
    have hT : ∀ r, (finishT r s).Inv := fun r => State.Inv.endOp (s := { s with tnum := some (tNum r) })
      ⟨h.trace, h.cause, h.opsel, h.n, h.bitn, h.dly, h.raw, by rintro v ⟨⟩; exact ⟨r, rfl⟩, h.rhnum⟩ hi hf _
    have hRh : ∀ r, (finishRh r s).Inv := fun r => State.Inv.endOp (s := { s with rhnum := some (rhNum r) })
      ⟨h.trace, h.cause, h.opsel, h.n, h.bitn, h.dly, h.raw, h.tnum, by rintro v ⟨⟩; exact ⟨r, rfl⟩⟩ hi hf _
    rw [tick_convert hp, phaseConvert]
    refine h.readReg hi _ _ fun op _ => ?_
    split
    · exact h.readReg hi _ _ fun r _ => hT r
    · exact h.readReg hi _ _ fun r _ => hRh r
    · exact h.readReg hi _ _ fun r _ => hT r
    · exact h.readReg hi _ _ fun r _ => hRh r
    · exact h.raise hi _
  | snAddr1 =>
    have hi : s.phase ≠ .idle := by rw [hp]; exact Phase.noConfusion
    have hf : s.phase ≠ .faulted := by rw [hp]; exact Phase.noConfusion
    rw [tick_snAddr1 hp, phaseSnAddr1_eq]
    exact h.advance hi hf [.beginTx 0x40, .write 0xFA, .write 0x0F, .endTx, .request 0x40 8] rfl rfl Phase.noConfusion
      Phase.noConfusion Phase.noConfusion rfl rfl rfl (go _ _ hp fun op hv => by cases op <;> exact hv) rfl rfl (.inl rfl) (.inl ⟨rfl, rfl, rfl⟩) rfl rfl
  | snAddr2 =>
    have hi : s.phase ≠ .idle := by rw [hp]; exact Phase.noConfusion
    have hf : s.phase ≠ .faulted := by rw [hp]; exact Phase.noConfusion
    rw [tick_snAddr2 hp, phaseSnAddr2_eq]
    exact h.advance hi hf [.beginTx 0x40, .write 0xFC, .write 0xC9, .endTx, .request 0x40 6] rfl rfl Phase.noConfusion
      Phase.noConfusion Phase.noConfusion rfl rfl rfl (go _ _ hp fun op hv => by cases op <;> exact hv) rfl rfl (.inl rfl) (.inl ⟨rfl, rfl, rfl⟩) rfl rfl
  | snReq1 =>
    have hi : s.phase ≠ .idle := by rw [hp]; exact Phase.noConfusion
    have hf : s.phase ≠ .faulted := by rw [hp]; exact Phase.noConfusion
    rw [tick_snReq1 hp, phaseSnReq1, awaitBytes]
    split
    · exact (h.doAvail hi).goto hi hf Phase.noConfusion Phase.noConfusion Phase.noConfusion (go _ _ hp fun op hv => by cases op <;> exact hv)
    · exact h.doAvail hi
  | snReq2 =>
    have hi : s.phase ≠ .idle := by rw [hp]; exact Phase.noConfusion
    have hf : s.phase ≠ .faulted := by rw [hp]; exact Phase.noConfusion
    rw [tick_snReq2 hp, phaseSnReq2, awaitBytes]
    split
    · exact (h.doAvail hi).goto hi hf Phase.noConfusion Phase.noConfusion Phase.noConfusion (go _ _ hp fun op hv => by cases op <;> exact hv)
    · exact h.doAvail hi
  | snRead1 =>
    have hi : s.phase ≠ .idle := by rw [hp]; exact Phase.noConfusion
    have hf : s.phase ≠ .faulted := by rw [hp]; exact Phase.noConfusion
    rw [tick_snRead1 hp, phaseSnRead1_eq]
    exact h.advance hi hf (readEvents s 8) rfl (traceRun_reads _ _) Phase.noConfusion Phase.noConfusion Phase.noConfusion rfl rfl rfl
      (go _ _ hp fun op hv => by cases op <;> exact hv) rfl rfl (.inl rfl) (.inl ⟨rfl, rfl, rfl⟩) rfl rfl
  | snRead2 =>
    have hi : s.phase ≠ .idle := by rw [hp]; exact Phase.noConfusion
    have hf : s.phase ≠ .faulted := by rw [hp]; exact Phase.noConfusion
    rw [tick_snRead2 hp, phaseSnRead2_eq]
    exact h.advance hi hf (readEvents s 6) rfl (traceRun_reads _ _) Phase.noConfusion Phase.noConfusion Phase.noConfusion rfl rfl rfl
      (go _ _ hp fun op hv => by cases op <;> exact hv) rfl rfl (.inl rfl) (.inl ⟨rfl, rfl, rfl⟩) rfl rfl
  | snSelect =>
    have hi : s.phase ≠ .idle := by rw [hp]; exact Phase.noConfusion
    have hf : s.phase ≠ .faulted := by rw [hp]; exact Phase.noConfusion
    rw [tick_snSelect hp]
    refine h.readReg hi _ _ fun l _ => ?_
    split
    · exact h.readReg hi _ _ fun b _ => h.endOp hi hf _
    · exact h.raise hi _
  | crcXor =>
    have hi : s.phase ≠ .idle := by rw [hp]; exact Phase.noConfusion
    have hf : s.phase ≠ .faulted := by rw [hp]; exact Phase.noConfusion
    rw [tick_crcXor hp]
    exact h.readReg hi _ _ fun a _ => h.readReg hi _ _ fun i _ => h.readReg hi _ _ fun b _ =>
      h.move hi [] (by simp) rfl (by simp [h.no_cause hf]) rfl id (go _ _ hp fun op hv => by cases op <;> exact hv) (.inl rfl)
        (.inr ⟨0, rfl, by decide, fun _ => by decide⟩) (.inl rfl) (.inl ⟨rfl, rfl, rfl⟩) (.inl rfl) (.inl rfl)
  | crcShift =>
    have hi : s.phase ≠ .idle := by rw [hp]; exact Phase.noConfusion
    have hf : s.phase ≠ .faulted := by rw [hp]; exact Phase.noConfusion
    rw [tick_crcShift hp]
    refine h.readReg hi _ _ fun a _ => h.readReg hi _ _ fun k hk => h.readReg hi _ _ fun i _ => h.readReg hi _ _ fun len _ => ?_
    have hlt := (h.bitn k hk).2 hp
    have hsucc : (k + 1).toNat = k.toNat + 1 := by
      rw [BitVec.toNat_add]; change (k.toNat + 1) % 16 = _; omega
    split
    · have hq : afterByte (i + 1) len = .crcCompare ∨ afterByte (i + 1) len = .crcXor := by
        unfold afterByte; split
        · exact .inl rfl
        · exact .inr rfl
      refine h.move hi [] (by simp) ?_ ?_ rfl id ?_ (.inl rfl) (.inr ⟨k + 1, rfl, by omega, ?_⟩) (.inl rfl)
        (.inl ⟨rfl, rfl, rfl⟩) (.inl rfl) (.inl rfl)
      · rcases hq with hq | hq <;> simp only [hq] <;> rfl
      · refine ⟨fun he => ?_, fun he => ?_⟩
        · rcases hq with hq | hq <;> cases hq.symm.trans he
        · cases (congrArg Option.isSome (h.no_cause hf)).symm.trans he
      · rcases hq with hq | hq <;> simp only [hq] <;> exact go _ _ hp fun op hv => by cases op <;> exact hv
      · intro he; rcases hq with hq | hq <;> cases hq.symm.trans he
    · rename_i h8
      refine h.move hi [] (by simp) (by simp [hp]; rfl) (by simp [hp, h.no_cause hf]) rfl id (fun _ _ hv => hv) (.inl rfl)
        (.inr ⟨k + 1, rfl, by omega, fun _ => ?_⟩) (.inl rfl) (.inl ⟨rfl, rfl, rfl⟩) (.inl rfl) (.inl rfl)
      have : (k + 1).toNat ≠ 8 := fun he => h8 (BitVec.eq_of_toNat_eq he)
      omega
  | crcCompare =>
    have hi : s.phase ≠ .idle := by rw [hp]; exact Phase.noConfusion
    have hf : s.phase ≠ .faulted := by rw [hp]; exact Phase.noConfusion
    rw [tick_crcCompare hp]
    refine h.readReg hi _ _ fun a _ => h.readReg hi _ _ fun e _ => ?_
    have ht : ({ s with mismatch := some (mismatchFlag a e) } : State).Inv :=
      h.congr rfl rfl rfl rfl rfl rfl rfl rfl rfl rfl rfl rfl rfl
    have hm : ∀ op : HostOp, s.opsel = some op → op.measures = true →
        (if mismatchFlag a e then enterRecovery { s with mismatch := some (mismatchFlag a e) }
          else Machine.readReg s.raw .raw { s with mismatch := some (mismatchFlag a e) } fun r =>
            Machine.finishReadHm r { s with mismatch := some (mismatchFlag a e) }).Inv := fun op ho hop => by
      split
      · exact ht.goto hi hf Phase.noConfusion Phase.noConfusion Phase.noConfusion fun op' ho' _ => by
          cases ho.symm.trans ho'; exact hop
      · exact ht.readReg hi _ _ fun r _ => ht.finishReadHm hi hf r
    unfold afterCompare
    refine ht.readReg hi _ _ fun op ho => ?_
    split
    · exact ht.endOp hi hf _
    · exact hm _ ho rfl
    · exact hm _ ho rfl
    · exact hm _ ho rfl
    · exact ht.raise hi _

end Sys2Proof.Machine
end

