-- ==== Sys2Proof/Laws/PerInstr.lean ====
section
/-! SUPPORT. Per instruction: its row of the opcode table, its encoding and its decoding name one instruction (R81 to R83). -/

namespace Sys2Proof.Laws.Coding

/-- The rows of a word's format. -/
def rows : CodeWord → List TableRow
  | .hostop _ _ => hostOpRows
  | .cmd8 _ => cmd8Rows
  | .addr16 _ _ => addr16Rows

/-- The bits of a word that its row's mask is laid over. -/
def bits : CodeWord → Nat
  | .hostop op _ => op.toNat
  | .cmd8 c => c.toNat
  | .addr16 a1 a0 => a1.toNat * 256 + a0.toNat

/-- The instruction's row is in the table under its mnemonic, its encoding matches that row's mask and pattern, and the decoder
reads the row's pattern as an instruction of that mnemonic. -/
def Statement (i : Instr) : Prop :=
  ∃ r ∈ rows (encode i), r.mnemonic = i.mnemonic ∧ bits (encode i) &&& r.mask = r.pattern ∧
    (decodeTableWord r.width r.pattern).map Instr.mnemonic = some i.mnemonic

theorem beginOp : Statement .beginOp := ⟨⟨"BEGIN", 4, 0x0, 0xF⟩, by decide, rfl, rfl, rfl⟩

theorem resetOp : Statement .resetOp := ⟨⟨"RESET", 4, 0x1, 0xF⟩, by decide, rfl, rfl, rfl⟩

theorem getTemperature : Statement .getTemperature := ⟨⟨"GET_TEMPERATURE", 4, 0x2, 0xF⟩, by decide, rfl, rfl, rfl⟩

theorem getHumidity : Statement .getHumidity := ⟨⟨"GET_HUMIDITY", 4, 0x3, 0xF⟩, by decide, rfl, rfl, rfl⟩

theorem getSerialNumber (l : Byte) : Statement (.getSerialNumber l) :=
  ⟨⟨"GET_SERIAL_NUMBER", 4, 0x4, 0xF⟩, by simp [encode, rows, hostOpRows], rfl, by simp [encode, bits], rfl⟩

theorem readHm (c : Byte) : Statement (.readHm c) :=
  ⟨⟨"READ_HM", 4, 0x8, 0xF⟩, by simp [encode, rows, hostOpRows], rfl, by simp [encode, bits], rfl⟩

theorem calcRh (r : RawCode) : Statement (.calcRh r) :=
  ⟨⟨"CALC_RH", 4, 0x9, 0xF⟩, by simp [encode, rows, hostOpRows], rfl, by simp [encode, bits], rfl⟩

theorem calcT (r : RawCode) : Statement (.calcT r) :=
  ⟨⟨"CALC_T", 4, 0xA, 0xF⟩, by simp [encode, rows, hostOpRows], rfl, by simp [encode, bits], rfl⟩

theorem crcCheck (d : List Byte) (l e : Byte) : Statement (.crcCheck d l e) :=
  ⟨⟨"CRC_CHECK", 4, 0xB, 0xF⟩, by simp [encode, rows, hostOpRows], rfl, by simp [encode, bits], rfl⟩

theorem trigTHm : Statement .trigTHm := ⟨⟨"TRIG_T_HM", 8, 0xE3, 0xFF⟩, by decide, rfl, rfl, rfl⟩

theorem trigRhHm : Statement .trigRhHm := ⟨⟨"TRIG_RH_HM", 8, 0xE5, 0xFF⟩, by decide, rfl, rfl, rfl⟩

theorem trigTNhm : Statement .trigTNhm := ⟨⟨"TRIG_T_NHM", 8, 0xF3, 0xFF⟩, by decide, rfl, rfl, rfl⟩

theorem trigRhNhm : Statement .trigRhNhm := ⟨⟨"TRIG_RH_NHM", 8, 0xF5, 0xFF⟩, by decide, rfl, rfl, rfl⟩

theorem writeUserReg : Statement .writeUserReg := ⟨⟨"WRITE_USER_REG", 8, 0xE6, 0xFF⟩, by decide, rfl, rfl, rfl⟩

theorem readUserReg : Statement .readUserReg := ⟨⟨"READ_USER_REG", 8, 0xE7, 0xFF⟩, by decide, rfl, rfl, rfl⟩

theorem softReset : Statement .softReset := ⟨⟨"SOFT_RESET", 8, 0xFE, 0xFF⟩, by decide, rfl, rfl, rfl⟩

theorem snAddr1 : Statement .snAddr1 := ⟨⟨"SN_ADDR1", 16, 0xFA0F, 0xFFFF⟩, by decide, rfl, rfl, rfl⟩

theorem snAddr2 : Statement .snAddr2 := ⟨⟨"SN_ADDR2", 16, 0xFCC9, 0xFFFF⟩, by decide, rfl, rfl, rfl⟩

end Sys2Proof.Laws.Coding
end

