-- ==== Sys2Proof/Laws/Rest.lean ====
section
/-! SUPPORT. Every run of the sequencer comes to rest within `opFuel` visits: at IDLE with a `Ret`, in FAULTED, or at a count of the
unbounded wait that was too low (R46, R142, R213, R240). -/

namespace Sys2Proof.Machine

/-- The bytes of a CRC_CHECK still to shift, the one at BYTEI included, by the comparison that ends the byte loop. -/
def bytesLeft (i len : Byte) : Nat := (len.toNat + 255 - i.toNat) % 256 + 1

/-- The shifts of the present byte still to come. -/
def shiftsLeft (k : BitVec 4) : Nat := (23 - k.toNat) % 16 + 1

/-- A bound on the visits until the sequencer rests, by phase; inside the two loops of CRC_CHECK it is `c`. -/
def Phase.rank (c : Nat) : Phase → Nat
  | .idle => 0
  | .faulted => 0
  | .beginSession => 1
  | .rstWait => 1
  | .rstSend => 2
  | .convert => 1
  | .rdRecover => 2
  | .crcCompare => 3
  | .crcXor => c
  | .crcShift => c
  | .rdCheck => 22
  | .rdRead => 23
  | .rdPoll => 24
  | .rdRequest => 25
  | .rdWait => 26
  | .rdSend => 27
  | .rdSelect => 28
  | .snSelect => 1
  | .snRead2 => 2
  | .snReq2 => 3
  | .snAddr2 => 4
  | .snRead1 => 5
  | .snReq1 => 6
  | .snAddr1 => 7

/-- The visits of CRC_CHECK still to come, nine a byte. -/
def State.crcVisits (s : State) : Nat :=
  if s.phase = .crcXor then 9 * bytesLeft (s.bytei.getD 0) (s.len.getD 0) + 3
  else shiftsLeft (s.bitn.getD 0) + 9 * (bytesLeft (s.bytei.getD 0) (s.len.getD 0) - 1) + 3

theorem crcVisits_xor {s : State} (h : s.phase = .crcXor) :
    s.crcVisits = 9 * bytesLeft (s.bytei.getD 0) (s.len.getD 0) + 3 := if_pos h

theorem crcVisits_shift {s : State} (h : s.phase = .crcShift) :
    s.crcVisits = shiftsLeft (s.bitn.getD 0) + 9 * (bytesLeft (s.bytei.getD 0) (s.len.getD 0) - 1) + 3 :=
  if_neg (by rw [h]; exact Phase.noConfusion)

/-- A bound on the visits until the sequencer rests. -/
def State.rank (s : State) : Nat := s.phase.rank s.crcVisits

theorem rank_lt_opFuel (s : State) : s.rank < opFuel := by
  have hc : s.crcVisits < 2400 := by
    unfold State.crcVisits bytesLeft shiftsLeft
    split <;> omega
  unfold State.rank opFuel
  cases s.phase <;> simp only [Phase.rank] <;> omega

/-- The sequencer is at rest: returned, faulted, or at a count of the unbounded wait that was too low. -/
def State.AtRest (t : State) : Prop :=
  (t.phase = .idle ∧ ∃ v, t.trace.getLast? = some (.ret v)) ∨ t.phase = .faulted ∨
    (t.phase = .snReq1 ∧ ∃ k < 8, t.trace.getLast? = some (.avail k)) ∨
    (t.phase = .snReq2 ∧ ∃ k < 6, t.trace.getLast? = some (.avail k))

/-- What one visit comes to: a rest, or a phase nearer to one. -/
def State.Nearer (s t : State) : Prop :=
  (t.phase.settled = true ∧ t.AtRest) ∨ (t.phase.settled = false ∧ t.rank < s.rank)

/-- A visit that goes from one phase to another of a smaller bound. -/
theorem State.Nearer.to {s t : State} (p q : Phase) (hs : s.phase = p) (ht : t.phase = q) (hq : q.settled = false)
    (h : q.rank t.crcVisits < p.rank s.crcVisits) : s.Nearer t :=
  .inr ⟨by rw [ht]; exact hq, by unfold State.rank; rw [hs, ht]; exact h⟩

theorem State.Nearer.raise (s x : State) (f : Fault) : s.Nearer (x.raise f) := .inl ⟨rfl, .inr (.inl rfl)⟩

theorem State.Nearer.endOp (s x : State) (v : RetVal) : s.Nearer (Machine.endOp v x) :=
  .inl ⟨rfl, .inl ⟨rfl, v, by simp [endOp_eq]⟩⟩

theorem State.Nearer.readReg {α : Type} {s x : State} (r : Option α) (name : RegName) {k : α → State}
    (hk : ∀ v, r = some v → s.Nearer (k v)) : s.Nearer (Machine.readReg r name x k) := by
  cases r with
  | none => exact .raise _ _ _
  | some v => exact hk v rfl

theorem State.Nearer.finishReadHm {s x : State} (h : 1 < s.rank) (v : RawCode) : s.Nearer (Machine.finishReadHm v x) := by
  rcases finishReadHm_cases v x with ⟨-, he⟩ | ⟨-, he⟩ | ⟨-, f, he⟩ <;> rw [he]
  · exact .inl ⟨rfl, .inl ⟨rfl, .raw v, by simp⟩⟩
  · exact .inr ⟨rfl, h⟩
  · exact .inl ⟨rfl, .inr (.inl rfl)⟩

theorem State.Nearer.pollLoop {s : State} (h : 23 < s.rank) (left : Nat) (x : State) : s.Nearer (Machine.pollLoop left x) := by
  induction left generalizing x with
  | zero =>
    unfold Machine.pollLoop
    split
    · exact .inr ⟨rfl, h⟩
    · exact .finishReadHm (by omega) _
  | succ l ih =>
    unfold Machine.pollLoop
    split
    · exact .inr ⟨rfl, h⟩
    · exact ih _

theorem State.Nearer.afterCompare {s x : State} (h : 2 < s.rank) (m : Bool) : s.Nearer (Machine.afterCompare m x) := by
  have hm : s.Nearer (if m then enterRecovery x else Machine.readReg x.raw .raw x fun r => Machine.finishReadHm r x) := by
    split
    · exact .inr ⟨rfl, h⟩
    · exact .readReg _ _ fun r _ => .finishReadHm (by omega) r
  unfold Machine.afterCompare
  refine .readReg _ _ fun op _ => ?_
  split
  · exact .endOp _ _ _
  · exact hm
  · exact hm
  · exact hm
  · exact .raise _ _ _

/-- One visit of a phase of an operation: it rests, or comes nearer to a rest, or is a count that was too low. -/
theorem tick_nearer {s : State} (h : s.phase.settled = false) :
    s.Nearer (tick s) ∨ (s.phase.waitsForBytes = true ∧ (tick s).phase = s.phase ∧ (tick s).AtRest) := by
  have hr : ∀ p, s.phase = p → s.rank = p.rank s.crcVisits := fun p hp => by unfold State.rank; rw [hp]
  cases hp : s.phase with
  | idle => rw [hp] at h; cases h
  | faulted => rw [hp] at h; cases h
  | beginSession => rw [tick_beginSession hp]; exact .inl (.endOp _ _ _)
  | rstSend => rw [tick_rstSend hp]; exact .inl (.to _ _ hp rfl rfl (Nat.le_refl _))
  | rstWait => rw [tick_rstWait hp]; exact .inl (.endOp _ _ _)
  | rdSelect => rw [tick_rdSelect hp]; exact .inl (.readReg _ _ fun c _ => .to _ _ hp rfl rfl (Nat.le_refl _))
  | rdSend => rw [tick_rdSend hp]; exact .inl (.readReg _ _ fun c _ => .to _ _ hp rfl rfl (Nat.le_refl _))
  | rdWait =>
    rw [tick_rdWait hp, phaseRdWait]
    split
    · exact .inl (.to _ _ hp rfl rfl (Nat.le_refl _))
    · exact .inl (.readReg _ _ fun c _ => .raise _ _ _)
  | rdRequest => rw [tick_rdRequest hp]; exact .inl (.to _ _ hp rfl rfl (Nat.le_refl _))
  | rdPoll => rw [tick_rdPoll hp]; exact .inl (.pollLoop (by rw [hr _ hp]; simp only [Phase.rank]; omega) _ _)
  | rdRead => rw [tick_rdRead hp]; exact .inl (.to _ _ hp rfl rfl (Nat.le_refl _))
  | rdCheck =>
    rw [tick_rdCheck hp]
    refine .inl (.readReg _ _ fun a _ => .readReg _ _ fun b _ => .readReg _ _ fun c _ => .to _ .crcXor hp rfl rfl ?_)
    rw [crcVisits_xor rfl]
    exact (by decide : 9 * bytesLeft 0 2 + 3 < 22)
  | rdRecover => rw [tick_rdRecover hp]; exact .inl (.finishReadHm (by rw [hr _ hp]; simp only [Phase.rank]; omega) _)
  | convert =>
    rw [tick_convert hp, phaseConvert]
    refine .inl (.readReg _ _ fun op _ => ?_)
    split
    · exact .readReg _ _ fun r _ => .endOp _ _ _
    · exact .readReg _ _ fun r _ => .endOp _ _ _
    · exact .readReg _ _ fun r _ => .endOp _ _ _
    · exact .readReg _ _ fun r _ => .endOp _ _ _
    · exact .raise _ _ _
  | snAddr1 => rw [tick_snAddr1 hp]; exact .inl (.to _ _ hp rfl rfl (Nat.le_refl _))
  | snAddr2 => rw [tick_snAddr2 hp]; exact .inl (.to _ _ hp rfl rfl (Nat.le_refl _))
  | snReq1 =>
    rw [tick_snReq1 hp, phaseSnReq1]
    by_cases hk : snLen1 ≤ s.availAnswer 0
    · rw [awaitBytes_ready hk]; exact .inl (.to _ _ hp rfl rfl (Nat.le_refl _))
    · rw [awaitBytes_low (Nat.not_le.1 hk)]
      exact .inr ⟨rfl, hp, .inr (.inr (.inl ⟨hp, _, Nat.not_le.1 hk, by simp [doAvail_eq]⟩))⟩
  | snReq2 =>
    rw [tick_snReq2 hp, phaseSnReq2]
    by_cases hk : snLen2 ≤ s.availAnswer 0
    · rw [awaitBytes_ready hk]; exact .inl (.to _ _ hp rfl rfl (Nat.le_refl _))
    · rw [awaitBytes_low (Nat.not_le.1 hk)]
      exact .inr ⟨rfl, hp, .inr (.inr (.inr ⟨hp, _, Nat.not_le.1 hk, by simp [doAvail_eq]⟩))⟩
  | snRead1 => rw [tick_snRead1 hp]; exact .inl (.to _ _ hp rfl rfl (Nat.le_refl _))
  | snRead2 => rw [tick_snRead2 hp]; exact .inl (.to _ _ hp rfl rfl (Nat.le_refl _))
  | snSelect =>
    rw [tick_snSelect hp]
    refine .inl (.readReg _ _ fun l _ => ?_)
    split
    · exact .readReg _ _ fun b _ => .endOp _ _ _
    · exact .raise _ _ _
  | crcXor =>
    rw [tick_crcXor hp]
    refine .inl (.readReg _ _ fun a _ => .readReg _ _ fun i _ => .readReg _ _ fun b _ => .to _ .crcShift hp rfl rfl ?_)
    rw [crcVisits_shift rfl, crcVisits_xor hp]
    have h8 : shiftsLeft ((some (0 : BitVec 4)).getD 0) = 8 := by decide
    simp only [Phase.rank, h8, bytesLeft]
    omega
  | crcShift =>
    rw [tick_crcShift hp]
    refine .inl (.readReg _ _ fun a _ => .readReg _ _ fun k hk => .readReg _ _ fun i hi => .readReg _ _ fun len hl => ?_)
    have hk16 := k.isLt
    have hi256 := i.isLt
    have hl256 := len.isLt
    have hk1 : (k + 1).toNat = (k.toNat + 1) % 16 := by simp [BitVec.toNat_add]
    have hi1 : (i + 1).toNat = (i.toNat + 1) % 256 := by simp [BitVec.toNat_add]
    have hs : s.crcVisits = shiftsLeft k + 9 * (bytesLeft i len - 1) + 3 := by
      rw [crcVisits_shift hp, hk, hi, hl]; rfl
    split
    · rename_i h8
      have hk7 : k.toNat = 7 := by have := congrArg BitVec.toNat h8; rw [hk1] at this; simp at this; omega
      by_cases he : i + 1 = len
      · refine .to _ .crcCompare hp (if_pos he) rfl ?_
        simp only [Phase.rank, hs, shiftsLeft]
        omega
      · have hne : (i.toNat + 1) % 256 ≠ len.toNat := fun hq => he (BitVec.eq_of_toNat_eq (hi1.trans hq))
        refine .to _ .crcXor hp (if_neg he) rfl ?_
        rw [hs, crcVisits_xor (if_neg he)]
        simp only [Phase.rank, shiftsLeft, bytesLeft, hl, Option.getD_some, hi1, hk7]
        omega
    · rename_i h8
      have hk7 : k.toNat ≠ 7 := fun hq => h8 (BitVec.eq_of_toNat_eq (by rw [hk1, hq]; rfl))
      refine .to _ .crcShift hp hp rfl ?_
      rw [hs, crcVisits_shift (by exact hp)]
      simp only [Phase.rank, shiftsLeft, bytesLeft, hi, hl, Option.getD_some, hk1]
      omega
  | crcCompare =>
    rw [tick_crcCompare hp]
    exact .inl (.readReg _ _ fun a _ => .readReg _ _ fun e _ => .afterCompare (by rw [hr _ hp]; simp only [Phase.rank]; omega) _)

/-- A run of the sequencer from a phase of an operation comes to rest, given visits enough. -/
theorem runOp_atRest (k : Nat) (s : State) (h : s.phase.settled = false) (hk : s.rank < k) : (runOp k s).AtRest := by
  induction k generalizing s with
  | zero => omega
  | succ k ih =>
    rcases tick_nearer h with hn | ⟨hw, hs, hr⟩
    · have hrest : (runOp k (tick s)).AtRest := by
        rcases hn with ⟨hset, hr⟩ | ⟨hset, hlt⟩
        · rw [runOp_settled hset]; exact hr
        · exact ih _ hset (by omega)
      cases hw : s.phase.waitsForBytes
      · rw [runOp_tick h hw]; exact hrest
      · have hs : (tick s).phase ≠ s.phase := fun hs => by
          rcases hn with ⟨hset, -⟩ | ⟨-, hlt⟩
          · rw [hs, h] at hset; cases hset
          · cases hp : s.phase <;> rw [hp] at hw <;> first | exact absurd hw (by decide) | skip
            all_goals rw [hp] at hs; simp [State.rank, hs, hp, Phase.rank] at hlt
        rw [runOp_waited hw hs]; exact hrest
    · rw [runOp_waits hw hs]; exact hr

/-- An operation in progress comes to rest. -/
theorem runOp_opFuel_atRest (s : State) (h : s.phase.settled = false) : (runOp opFuel s).AtRest :=
  runOp_atRest opFuel s h (rank_lt_opFuel s)

end Sys2Proof.Machine
end

