-- ==== Sys2Proof/Tests/Slice0.lean ====
section
/-! SUPPORT. The model's own tests. Expected values are the spec's: the tables of spec/30_encoding.md and the vectors of
spec/95_test_vectors.md, named at each test. Witnesses of the statements' hypotheses stand at the end. -/

namespace Sys2Proof.Tests

open Sys2Proof.Machine

/-! ## WellFormed (R89) -/

/-- Ill-formed: two bytes given, the length operand says three. -/
theorem test_wellFormed_refuses_short_data : (Instr.crcCheck [0x68, 0x3A] 3 0x7C).wellFormed = false := by decide

/-- Ill-formed: two bytes given, the length operand says one. -/
theorem test_wellFormed_refuses_long_data : (Instr.crcCheck [0x68, 0x3A] 1 0x7C).wellFormed = false := by decide

theorem test_wellFormed_accepts_empty_data : (Instr.crcCheck [] 0 0x00).wellFormed = true := by decide

/-! ## Words written out bit by bit from the tables (R81, R82, R83), one for every constructor -/

theorem test_decode_begin : decode (.hostop 0b0000 Ports.zero) = .ok .beginOp := by rfl
theorem test_decode_reset : decode (.hostop 0b0001 Ports.zero) = .ok .resetOp := by rfl
theorem test_decode_getTemperature : decode (.hostop 0b0010 Ports.zero) = .ok .getTemperature := by rfl
theorem test_decode_getHumidity : decode (.hostop 0b0011 Ports.zero) = .ok .getHumidity := by rfl
theorem test_decode_getSerialNumber :
    decode (.hostop 0b0100 { Ports.zero with loc := 0b00000111 }) = .ok (.getSerialNumber 7) := by rfl
theorem test_decode_readHm : decode (.hostop 0b1000 { Ports.zero with cmd := 0b11110011 }) = .ok (.readHm 0xF3) := by rfl
theorem test_decode_calcRh :
    decode (.hostop 0b1001 { Ports.zero with raw := 0b0110100000111010 }) = .ok (.calcRh 0x683A) := by rfl
theorem test_decode_calcT :
    decode (.hostop 0b1010 { Ports.zero with raw := 0b1111111111111100 }) = .ok (.calcT 0xFFFC) := by rfl
theorem test_decode_crcCheck :
    decode (.hostop 0b1011 { Ports.zero with data := [0b11011100], len := 1, exp := 0b01111001 }) =
      .ok (.crcCheck [0xDC] 1 0x79) := by rfl
theorem test_decode_trigTHm : decode (.cmd8 0b11100011) = .ok .trigTHm := by rfl
theorem test_decode_trigRhHm : decode (.cmd8 0b11100101) = .ok .trigRhHm := by rfl
theorem test_decode_trigTNhm : decode (.cmd8 0b11110011) = .ok .trigTNhm := by rfl
theorem test_decode_trigRhNhm : decode (.cmd8 0b11110101) = .ok .trigRhNhm := by rfl
theorem test_decode_writeUserReg : decode (.cmd8 0b11100110) = .ok .writeUserReg := by rfl
theorem test_decode_readUserReg : decode (.cmd8 0b11100111) = .ok .readUserReg := by rfl
theorem test_decode_softReset : decode (.cmd8 0b11111110) = .ok .softReset := by rfl
theorem test_decode_snAddr1 : decode (.addr16 0b11111010 0b00001111) = .ok .snAddr1 := by rfl
theorem test_decode_snAddr2 : decode (.addr16 0b11111100 0b11001001) = .ok .snAddr2 := by rfl

/-- The pair in the other order is no address sequence (R83). -/
theorem test_decode_refuses_swapped_address : decode (.addr16 0x0F 0xFA) = .error (.unlistedAddress 0x0F 0xFA) := by rfl
/-- A reserved select code, next to the last accepted one (R91, V10). -/
theorem test_decode_refuses_reserved : decode (.hostop 0xC Ports.zero) = .error (.reservedHostOp 0xC) := by rfl
/-- A byte one bit away from a trigger (V10). -/
theorem test_decode_refuses_unlisted : decode (.cmd8 0xE4) = .error (.unlistedCommand 0xE4) := by rfl
theorem test_decodeTableWord_snAddr1 : decodeTableWord 16 0xFA0F = some .snAddr1 := by rfl
theorem test_decodeTableWord_calcT : decodeTableWord 8 0xA = some (.calcT 0) := by rfl

/-! ## Small states -/

/-- A block after `begin()`, the oracle's answers listed. -/
def begun (avail : List Nat) (read : List Byte) : State :=
  { State.reset with begun := true, availIn := avail, readIn := read }

/-- A block at a phase inside an operation. -/
def busy (op : HostOp) (p : Phase) (c : Byte) : State :=
  { State.reset with begun := true, phase := p, opsel := some op, cmd := some c, trace := [.call (.readHm c)] }

/-- A block with one `Call` waiting at the HOST channel. -/
def called (op : BitVec 4) (p : Ports) (s : State) : State :=
  { s with host := [.call { op := op, ports := p, early := false, waiting := [] }] }

/-- The state that an outcome goes on to, for the tests: the reset state where it stops. -/
def after : Host.Outcome State Fault Refusal → State
  | .next s => s
  | .fault _ => State.reset
  | .refused _ => State.reset

/-- The reason of a refusal. -/
def refusal : Host.Outcome State Fault Refusal → Option Refusal
  | .next _ => none
  | .fault _ => none
  | .refused r => some r

/-! ## Vectors (spec/95_test_vectors.md) -/

/-- V8. -/
theorem test_begin : (after (exec .beginOp State.reset)).trace = [.call .beginOp, .beginSession, .ret .unit] := by decide

/-- V8, V11: refused before BEGIN. -/
theorem test_reset_needs_begin : refusal (exec .resetOp State.reset) = some .uNotBegun := by decide

/-- V8. -/
theorem test_reset : (after (exec .resetOp (begun [] []))).trace =
    [.call .resetOp, .beginTx 0x40, .write 0xFE, .endTx, .wait 15, .ret .unit] := by decide

/-- P1. -/
theorem test_getTemperature : (after (exec .getTemperature (begun [3] [0x63, 0x50, 0x06]))).trace =
    [.call .getTemperature, .beginTx 0x40, .write 0xE3, .endTx, .wait 85, .request 0x40 3, .avail 3,
     .read 0x63, .read 0x50, .read 0x06, .ret (.tnum 139714368)] := by decide +kernel

/-- P2: the recovery reset comes before the return. -/
theorem test_getHumidity_bad_crc : (after (exec .getHumidity (begun [3] [0x7C, 0x80, 0xF4]))).trace =
    [.call .getHumidity, .beginTx 0x40, .write 0xE5, .endTx, .wait 30, .request 0x40 3, .avail 3,
     .read 0x7C, .read 0x80, .read 0xF4, .beginTx 0x40, .write 0xFE, .endTx, .wait 15,
     .ret (.rhnum (BitVec.ofInt 32 (-393216)))] := by decide +kernel

/-- V7 c: checks of 0, 1 and 2 are not ready. -/
theorem test_readHm_retries : (after (exec (.readHm 0xE5) (begun [0, 1, 2, 3] [0x68, 0x3A, 0x7C]))).trace =
    [.call (.readHm 0xE5), .beginTx 0x40, .write 0xE5, .endTx, .wait 30, .request 0x40 3, .avail 0, .wait 10, .avail 1, .wait 10,
     .avail 2, .wait 10, .avail 3, .read 0x68, .read 0x3A, .read 0x7C, .ret (.raw 0x683A)] := by decide +kernel

/-- V7 e: N ends at 10, nothing is read, D0 stays unwritten (P3). -/
theorem test_readHm_timeout :
    let t := after (exec (.readHm 0xE3) (begun (List.replicate 11 0) []))
    t.ret16 = some 0 ∧ t.n = some 10 ∧ t.d0 = none ∧ waitSum t.trace = 185 := by decide

/-- V7 f: success on the last permitted check. -/
theorem test_readHm_last_check :
    (after (exec (.readHm 0xE3) (begun [0, 0, 0, 0, 0, 0, 0, 0, 0, 0, 3] [0x4E, 0x85, 0x6B]))).ret16 = some 0x4E85 := by
  decide +kernel

/-- V7 g: two bytes stay in the transport. -/
theorem test_readHm_reads_three :
    (after (exec (.readHm 0xE5) (begun [5] [0, 0, 0, 0xAA, 0xBB]))).readIn = [0xAA, 0xBB] := by decide +kernel

/-- V7 k. -/
theorem test_readHm_unknown :
    let t := after (exec (.readHm 0xE7) (begun [3] [0, 0, 0]))
    t.cause = some (.uCmd 0xE7) ∧ t.trace = [.call (.readHm 0xE7), .beginTx 0x40, .write 0xE7, .endTx] := by decide

/-- V9: location 6, the last but one of the default map's second response. -/
theorem test_getSerialNumber :
    (after (exec (.getSerialNumber 6) (begun [8, 6]
      [0xA5, 0x11, 0xB6, 0x22, 0xC7, 0x33, 0xD8, 0x44, 0xE9, 0xFA, 0x55, 0x0B, 0x1C, 0x66]))).sn =
      #v[some 0xFA, some 0xE9, some 0xD8, some 0xC7, some 0xB6, some 0xA5, some 0x1C, some 0x0B] := by decide

/-- V9: location 8. -/
theorem test_getSerialNumber_out_of_range :
    (after (exec (.getSerialNumber 8) (begun [8, 6] (List.replicate 14 0)))).cause = some (.uLoc 8) := by decide

/-- V6. -/
theorem test_calcRh : (after (exec (.calcRh 0x683B) State.reset)).rhnum = some 2941784 := by decide

/-- V5, S3 as corrected by 90_conflicts.md C1. -/
theorem test_calcT : (after (exec (.calcT 0xFFFF) State.reset)).tnum = some 844492144 := by decide

/-- V4: a match. -/
theorem test_crcCheck : (after (exec (.crcCheck [0x68, 0x3A] 2 0x7C) State.reset)).mismatch = some false := by decide +kernel

/-- R43: a caller that lists one byte and says two: the operation ends, no register was read unwritten. -/
theorem test_crcCheck_unlisted : (after (exec (.crcCheck [0x68] 2 0x7C) State.reset)).phase = .idle := by decide +kernel

/-- V4: LEN = 0 and a wrong checksum. -/
theorem test_crcCheck_empty : (after (exec (.crcCheck [] 0 0x01) State.reset)).mismatch = some true := by decide

/-- V1, V2: eight bytes, and one. -/
theorem test_crc8 : crc8 0 [1, 2, 3, 4, 5, 6, 7, 8] = 0x6B ∧ crc8 0 [0xDC] = 0x79 := by decide +kernel

/-- V3: four entries of the table. -/
theorem test_crcTable : crcByte 0 0x38 = 0x7C ∧ crcByte 0 0x80 = 0x7A ∧ crcByte 0 0xFF = 0xAC ∧ crcByte 0 0xB8 = 0x06 := by
  decide

/-- V10: the delay of a no-hold-master humidity trigger, at RD_SELECT. -/
theorem test_trigRhNhm : (after (exec .trigRhNhm (busy .readHm .rdSelect 0xF5))).dly = some 30 := by decide

/-- V10: the delay of a temperature trigger. -/
theorem test_trigTHm : (after (exec .trigTHm (busy .readHm .rdSelect 0xE3))).dly = some 85 := by decide

/-- R93, R189: the user-register write is emitted where CMD holds it, and nowhere else. -/
theorem test_writeUserReg_elsewhere : refusal (exec .writeUserReg (busy .readHm .rdSelect 0xE7)) = some .notEmitted := by
  decide

/-- R129: the soft reset of the recovery ends READ_HM with 1. -/
theorem test_softReset_recovers : (after (exec .softReset (busy .readHm .rdRecover 0xE5))).ret16 = some 1 := by decide

/-- V10: 0xFA0F, then request 8. -/
theorem test_snAddr1 : (after (exec .snAddr1 (busy .getSerialNumber .snAddr1 0))).trace.drop 1 =
    [.beginTx 0x40, .write 0xFA, .write 0x0F, .endTx, .request 0x40 8] := by decide

/-- V10: 0xFCC9, then request 6. -/
theorem test_snAddr2 : (after (exec .snAddr2 (busy .getSerialNumber .snAddr2 0))).trace.drop 1 =
    [.beginTx 0x40, .write 0xFC, .write 0xC9, .endTx, .request 0x40 6] := by decide

/-- V11: a `Call` while PHASE is RD_WAIT. -/
theorem test_busy_refused : refusal (exec (.calcRh 0) (busy .readHm .rdWait 0xE5)) = some .uBusy := by decide

/-- V11: OP = 5, next to OP = 4. -/
theorem test_reserved_refused : refusal (step (called 5 Ports.zero (begun [] []))) = some (.reservedOp 5) := by decide

/-- A table row's word, placed, is what the next step runs. -/
theorem test_withFetchWord :
    (after (step (State.reset.withFetchWord 16 0xFCC9))).phase = .snReq2 ∧
      (after (step (State.reset.withFetchWord 8 0x0))).begun = true := by decide

/-- R207, R236 (b): the operation before it has returned in one step, and the `Call` that did not wait for its `Ret` still gets no
value. -/
theorem test_unserialised_call_refused :
    let s := { State.reset with
      host := [.call { op := 0, ports := Ports.zero, early := false, waiting := [] }, .call { op := 0xA, ports := Ports.zero, early := true, waiting := [] }] }
    (after (step s)).phase = .idle ∧ refusal (step (after (step s))) = some .uBusy := by decide

/-- P4: the first count was 0; at the second, 8, the operation goes on and returns SN[0], the second byte of the second
response. -/
theorem test_serial_resumes :
    (after (step { busy .getSerialNumber .snReq1 0 with
      loc := some 0, availIn := [8, 6]
      readIn := [0xA5, 0x11, 0xB6, 0x22, 0xC7, 0x33, 0xD8, 0x44, 0xE9, 0xFA, 0x55, 0x0B, 0x1C, 0x66] })).trace.getLast? =
      some (.ret (.serial 0xFA)) := by decide

/-! ## Witnesses: for every statement with hypotheses, a state and operands that meet them all, one for each clause, at the ends
of its range -/

/-- An idle block with a `Call` waiting whose caller does not wait, for the refusals. -/
def early (s : State) : State := { s with host := [.call { op := 0, ports := Ports.zero, early := true, waiting := [] }] }

/-- A block that a fault has stopped. -/
def stopped : State := { State.reset with phase := .faulted, cause := some (.uLoc 8), opsel := some .getSerialNumber }

theorem witness_PowerOnResetStep : ({ stopped with host := [.powerOn] } : State).host = .powerOn :: [] := rfl

theorem witness_IdleBlockWithoutCallStays : (begun [] []).pIdle ∧ (begun [] []).host = [] := by decide

theorem witness_PhaseAndOperationCodes :
    encode (.crcCheck [] 0 0) = .hostop 0xB Ports.zero ∧ ∃ t, exec (.crcCheck [] 0 0) State.reset = .next t := ⟨rfl, _, rfl⟩

theorem witness_PhaseAndOperationCodes_table :
    (Phase.idle, (0 : BitVec 5)) ∈ phaseCodes ∧ (Phase.faulted, (23 : BitVec 5)) ∈ phaseCodes := by decide

/-- A block in the first phase of RESET, the call in its trace. -/
def sending : State := { State.reset with begun := true, phase := .rstSend, opsel := some .resetOp, trace := [.call .resetOp] }

theorem witness_StepKeepsInvariant : sending.Inv ∧ ∃ t, step sending = .next t :=
  ⟨⟨rfl, by decide, fun _ => ⟨.resetOp, rfl, rfl, fun _ => rfl⟩, nofun, nofun, nofun, rfl, nofun, nofun⟩, _, rfl⟩

theorem witness_StepKeepsInvariant_idle :
    (called 0 Ports.zero State.reset).Inv ∧ ∃ t, step (called 0 Ports.zero State.reset) = .next t :=
  ⟨⟨rfl, by decide, fun h => absurd rfl h, nofun, nofun, nofun, rfl, nofun, nofun⟩, _, rfl⟩

/-- READ_HM of 0x00 waiting at the channel. -/
def unknownCalled : State := called 8 Ports.zero (begun [] [])

theorem witness_StepKeepsWriteBeforeRead :
    unknownCalled.Disciplined ∧ step unknownCalled = .next (after (step unknownCalled)) ∧
      (after (step unknownCalled)).phase = .faulted := by
  exact ⟨⟨by decide, fun h => absurd rfl h, trivial, fun h => absurd h (by decide)⟩, rfl, by decide⟩

theorem witness_OnlyPowerOnClearsBegunAndFaulted :
    (called 2 Ports.zero (begun [] [])).host.head? ≠ some .powerOn ∧
      (∃ t, step (called 2 Ports.zero (begun [] [])) = .next t) ∧ (called 2 Ports.zero (begun [] [])).begun = true :=
  ⟨by decide, ⟨_, rfl⟩, rfl⟩

theorem witness_OnlyTableRowsDecode :
    (0x5 : BitVec 4).toNat ∈ [0x5, 0x6, 0x7, 0xC, 0xD, 0xE, 0xF] ∧ (0xF : BitVec 4).toNat ∈ [0x5, 0x6, 0x7, 0xC, 0xD, 0xE, 0xF] ∧
    (0x4 : BitVec 4).toNat ∉ [0x5, 0x6, 0x7, 0xC, 0xD, 0xE, 0xF] ∧ (0xB : BitVec 4).toNat ∉ [0x5, 0x6, 0x7, 0xC, 0xD, 0xE, 0xF] ∧
    (0xFE : Byte).toNat ∈ [0xE3, 0xE5, 0xF3, 0xF5, 0xE6, 0xE7, 0xFE] ∧ (0xFF : Byte).toNat ∉ [0xE3, 0xE5, 0xF3, 0xF5, 0xE6, 0xE7, 0xFE] ∧
    ((0xFA, 0xC9) : Byte × Byte) ≠ (0xFA, 0x0F) ∧ ((0xFA, 0xC9) : Byte × Byte) ≠ (0xFC, 0xC9) := by decide

theorem witness_ReservedSelectCodesAreRefused :
    let s := called 0xF Ports.zero (begun [] [])
    s.pIdle ∧ s.host = .call { op := 0xF, ports := Ports.zero, early := false, waiting := [] } :: [] ∧
      ({ op := 0xF, ports := Ports.zero, early := false, waiting := [] } : HostCall).early = false ∧
      (0xF : BitVec 4).toNat ∈ [0x5, 0x6, 0x7, 0xC, 0xD, 0xE, 0xF] := by decide

theorem witness_StepRunsTheDecodedInstruction_call :
    let s := called 4 { Ports.zero with loc := 7 } (begun [] [])
    s.pIdle ∧ s.host = .call { op := 4, ports := { Ports.zero with loc := 7 }, early := false, waiting := [] } :: [] ∧
      ({ op := 4, ports := { Ports.zero with loc := 7 }, early := false, waiting := [] } : HostCall).early = false ∧
      decode (.hostop 4 { Ports.zero with loc := 7 }) = .ok (.getSerialNumber 7) := ⟨rfl, rfl, rfl, rfl⟩

theorem witness_StepRunsTheDecodedInstruction_device :
    let s := busy .readHm .rdSelect 0xF3
    s.phase ≠ .idle ∧ s.pNoFault ∧ s.quiet = true ∧ s.commandWord = some (.cmd8 0xF3) ∧ decode (.cmd8 0xF3) = .ok .trigTNhm :=
  ⟨by decide, by decide, by decide, rfl, rfl⟩

theorem witness_StepResumesAnOperation_no_word :
    let s := busy .readHm .rdPoll 0xF3
    s.phase ≠ .idle ∧ s.pNoFault ∧ s.quiet = true ∧ s.commandWord = none := by decide

theorem witness_StepResumesAnOperation_unlisted :
    let s := busy .readHm .rdSelect 0xE4
    s.phase ≠ .idle ∧ s.pNoFault ∧ s.quiet = true ∧ s.commandWord = some (.cmd8 0xE4) ∧
      decode (.cmd8 0xE4) = .error (.unlistedCommand 0xE4) := ⟨by decide, by decide, by decide, rfl, rfl⟩

theorem witness_BusyBlockRefusesCalls :
    encode .beginOp = .hostop 0 Ports.zero ∧ (busy .readHm .rdWait 0xE5).phase ≠ .idle ∧
      (early (busy .readHm .rdWait 0xE5)).host = .call { op := 0, ports := Ports.zero, early := true, waiting := [] } :: [] ∧
      (early (begun [] [])).phase = .idle ∧
      (early (begun [] [])).host = .call { op := 0, ports := Ports.zero, early := true, waiting := [] } :: [] ∧
      ({ op := 0, ports := Ports.zero, early := true, waiting := [] } : HostCall).early = true := by decide

theorem witness_BusOperationsNeedBegin : State.reset.pIdle ∧ State.reset.begun = false := by decide

theorem witness_FaultedBlockStops :
    stopped.phase = .faulted ∧ encode (.calcT 0) = .hostop 0xA Ports.zero ∧ stopped.cause = some (.uLoc 8) ∧ stopped.quiet = true ∧
      stopped.host.head? ≠ some .powerOn := by decide

theorem witness_BeginOpensTheSession : State.reset.pIdle ∧ (begun [] []).pIdle := by decide

theorem witness_ResetSendsSoftResetAndWaits : (begun [] []).pIdle ∧ (begun [] []).pBegun := by decide

/-- V7 a: j = 0, a humidity command. -/
theorem witness_ReadHmReturnsAGoodFrame_first :
    let s := begun [3] [0x68, 0x3A, 0x7C]
    s.pIdle ∧ s.pBegun ∧ (((0xE5 : Byte) = 0xE5 ∨ (0xE5 : Byte) = 0xF5) ∧ (30 : Byte) = 30) ∧ 0 ≤ 10 ∧ s.oReady 3 0 ∧
      s.oFrame 0x68 0x3A 0x7C ∧ crc8 s.params.crcInit [0x68, 0x3A] = 0x7C := by decide +kernel

/-- V7 f: j = 10, a temperature command. -/
theorem witness_ReadHmReturnsAGoodFrame_last :
    let s := begun [0, 0, 0, 0, 0, 0, 0, 0, 0, 0, 3] [0x4E, 0x85, 0x6B]
    s.pIdle ∧ s.pBegun ∧ (((0xF3 : Byte) = 0xE3 ∨ (0xF3 : Byte) = 0xF3) ∧ (85 : Byte) = 85) ∧ 10 ≤ 10 ∧ s.oReady 3 10 ∧
      s.oFrame 0x4E 0x85 0x6B ∧ crc8 s.params.crcInit [0x4E, 0x85] = 0x6B := by decide +kernel

/-- V7 d. -/
theorem witness_ReadHmRecoversFromABadFrame :
    let s := begun [0, 0, 0, 0, 0, 0, 0, 0, 0, 2, 3] [0x7C, 0x80, 0xF4]
    s.pIdle ∧ s.pBegun ∧ (((0xF5 : Byte) = 0xE5 ∨ (0xF5 : Byte) = 0xF5) ∧ (30 : Byte) = 30) ∧ 10 ≤ 10 ∧ s.oReady 3 10 ∧
      s.oFrame 0x7C 0x80 0xF4 ∧ crc8 s.params.crcInit [0x7C, 0x80] ≠ 0xF4 := by decide +kernel

/-- V7 e, with answers of 2, just below ready. -/
theorem witness_ReadHmTimesOut :
    let s := begun (List.replicate 11 2) []
    s.pIdle ∧ s.pBegun ∧ (((0xE3 : Byte) = 0xE3 ∨ (0xE3 : Byte) = 0xF3) ∧ (85 : Byte) = 85) ∧ ∀ i ≤ 10, s.availAnswer i < 3 := by
  decide

theorem witness_ReadHmOfAnUnknownCommandFaults :
    (begun [] []).pIdle ∧ (begun [] []).pBegun ∧ (0x00 : Byte) ∉ ([0xE5, 0xF5, 0xE3, 0xF3] : List Byte) ∧
      (0xE4 : Byte) ∉ ([0xE5, 0xF5, 0xE3, 0xF3] : List Byte) := by decide

/-- P1 and P5: j = 0, and j = 2. -/
theorem witness_GetTemperatureOfAGoodFrame :
    let s := begun [3] [0x63, 0x50, 0x06]
    s.pIdle ∧ s.pBegun ∧ 0 ≤ 10 ∧ s.oReady 3 0 ∧ s.oFrame 0x63 0x50 0x06 ∧ crc8 s.params.crcInit [0x63, 0x50] = 0x06 := by
  decide +kernel

theorem witness_GetHumidityOfAGoodFrame :
    let s := begun [0, 2, 3] [0x68, 0x3A, 0x7C]
    s.pIdle ∧ s.pBegun ∧ 2 ≤ 10 ∧ s.oReady 3 2 ∧ s.oFrame 0x68 0x3A 0x7C ∧ crc8 s.params.crcInit [0x68, 0x3A] = 0x7C := by
  decide +kernel

theorem witness_GetIsConversionOfReadHm : (begun [] []).pIdle ∧ (begun [] []).pBegun := by decide

theorem witness_ReadHmIsBounded :
    (∃ t, exec (.readHm 0xE3) (begun (List.replicate 11 0) []) = .next t) ∧ (0xE3 : Byte) ∈ ([0xE3, 0xF3, 0xE5, 0xF5] : List Byte) ∧
      (∃ t, exec (.readHm 0xF5) (begun [3] [0, 0, 1]) = .next t) ∧ (0xF5 : Byte) ∈ ([0xE3, 0xF3, 0xE5, 0xF5] : List Byte) :=
  ⟨⟨_, rfl⟩, by decide, ⟨_, rfl⟩, by decide⟩

/-- A timeout. -/
theorem witness_ErrorsLookLikeData_timeout :
    let s := begun (List.replicate 11 2) []
    s.pIdle ∧ s.pBegun ∧ ∀ i ≤ 10, s.availAnswer i < 3 := by decide

/-- A bad frame, and a genuine raw value of 3 (0x0003 has the CRC 0x53, V1). -/
theorem witness_ErrorsLookLikeData_frames :
    let s := begun [3] [0x7C, 0x80, 0xF4]
    let u := begun [3] [0x00, 0x03, 0x53]
    (s.pIdle ∧ s.pBegun ∧ 0 ≤ 10 ∧ s.oReady 3 0 ∧ s.oFrame 0x7C 0x80 0xF4 ∧ crc8 s.params.crcInit [0x7C, 0x80] ≠ 0xF4) ∧
    (u.pIdle ∧ u.pBegun ∧ u.oReady 3 0 ∧ u.oFrame 0x00 0x03 0x53 ∧ crc8 u.params.crcInit [0x00, 0x03] = 0x53 ∧
      ((0x00 : Byte) ++ (0x03 : Byte) : RawCode).toNat ≤ 3) := by decide +kernel

theorem witness_GetSerialNumberReturnsTheByteAtLocation :
    let s := begun [8, 6] [0xA5, 0x11, 0xB6, 0x22, 0xC7, 0x33, 0xD8, 0x44, 0xE9, 0xFA, 0x55, 0x0B, 0x1C, 0x66]
    s.pIdle ∧ s.pBegun ∧ (0 : Byte).toNat ≤ 7 ∧ (7 : Byte).toNat ≤ 7 ∧ s.params.snMap.valid = true ∧
      8 ≤ s.availAnswer 0 ∧ 6 ≤ s.availAnswer 1 := by decide

theorem witness_GetSerialNumberOutOfRangeFaults :
    let s := begun [8, 6] []
    s.pIdle ∧ s.pBegun ∧ 7 < (8 : Byte).toNat ∧ 7 < (255 : Byte).toNat ∧ 8 ≤ s.availAnswer 0 ∧ 6 ≤ s.availAnswer 1 := by
  decide

theorem witness_SerialNumberWaitsWithoutBound :
    let s := { busy .getSerialNumber .snReq1 0 with availIn := [7, 7, 0] }
    let u := { busy .getSerialNumber .snReq2 0 with availIn := [5, 0, 5] }
    (s.phase = .snReq1 ∧ s.quiet = true ∧ ∀ i < 3, s.availAnswer i < 8) ∧
      (u.phase = .snReq2 ∧ u.quiet = true ∧ ∀ i < 3, u.availAnswer i < 6) := by decide

theorem witness_GetSerialNumberWaitsForBytes :
    (begun [7] []).pIdle ∧ (begun [7] []).pBegun ∧ (begun [7] []).availAnswer 0 < 8 ∧
      (begun [8, 5] []).pIdle ∧ (begun [8, 5] []).pBegun ∧ 8 ≤ (begun [8, 5] []).availAnswer 0 ∧
      (begun [8, 5] []).availAnswer 1 < 6 ∧ (begun [8, 5] []).params.snMap.valid = true := by decide

/-- V9's responses, with other discarded bytes; one run waits in both phases, the other in none. -/
theorem witness_DiscardedSerialBytesDoNotMatter :
    let s := called 4 { Ports.zero with loc := 7 } (begun [0, 8, 5, 6]
      [0xA5, 0x11, 0xB6, 0x22, 0xC7, 0x33, 0xD8, 0x44, 0xE9, 0xFA, 0x55, 0x0B, 0x1C, 0x66])
    let u := called 4 { Ports.zero with loc := 7 } (begun [9, 7]
      [0xA5, 0x00, 0xB6, 0x00, 0xC7, 0x00, 0xD8, 0x00, 0xE9, 0xFA, 0x00, 0x0B, 0x1C, 0x00])
    (s.pIdle ∧ u.pIdle ∧ s.params.snMap = u.params.snMap) ∧
    (∀ p : Fin 8, (s.params.snMap.store1[p]).isSome = true → s.readAnswer p = u.readAnswer p) ∧
    (∀ q : Fin 6, (s.params.snMap.store2[q]).isSome = true → s.readAnswer (8 + q) = u.readAnswer (8 + q)) ∧
    decode (.hostop 4 { Ports.zero with loc := 7 }) = .ok (.getSerialNumber 7) ∧
    Sys2Proof.core.run 3 s = .next (after (Sys2Proof.core.run 3 s)) ∧
    Sys2Proof.core.run 1 u = .next (after (Sys2Proof.core.run 1 u)) ∧
    (after (Sys2Proof.core.run 3 s)).trace.getLast? = some (.ret (.serial 0x0B)) ∧
    (after (Sys2Proof.core.run 1 u)).trace.getLast? = some (.ret (.serial 0x0B)) :=
  ⟨by decide, by decide +kernel, by decide +kernel, rfl, rfl, rfl, by decide +kernel, by decide +kernel⟩

theorem witness_CalcRhIsExact : State.reset.pIdle ∧ (begun [] []).pIdle := by decide

theorem witness_CalcTIsExact : State.reset.pIdle ∧ (begun [] []).pIdle := by decide

theorem witness_ConversionRangesAndSteps :
    (maskRaw 0x0007).toNat = (maskRaw 0x0003).toNat + 4 ∧ (maskRaw 0xFFFF).toNat = (maskRaw 0xFFF8).toNat + 4 ∧
      (maskRaw 0x0000).toNat < (maskRaw 0xFFFC).toNat := by decide

theorem witness_SentinelsCollapse : (0 : RawCode).toNat ≤ 3 ∧ (3 : RawCode).toNat ≤ 3 := by decide

theorem witness_CrcCheckFoldsTheBytes :
    State.reset.pIdle ∧ (2 : Byte).toNat - ([0x68, 0x3A] : List Byte).length = 0 ∧
      (255 : Byte).toNat - ([0x68] : List Byte).length = 254 := by decide

/-- A block that stands, as no run does, in a phase some of whose registers were not written. -/
def lacking (op : HostOp) (p : Phase) : State := { busy op p 0 with cmd := none }

/-- The reads of READ_HM and of the conversions: one state a line of the statement. -/
theorem witness_UnwrittenRegisterReadFaults_measurement :
    (∀ p ∈ [Phase.rdSelect, .rdSend, .rdCheck], (lacking .readHm p).quiet = true ∧ (lacking .readHm p).phase = p ∧
      (lacking .readHm p).cmd = none ∧ (lacking .readHm p).d0 = none) ∧
    (let s := { lacking .readHm .rdCheck with d0 := some 1 }
     s.quiet = true ∧ s.phase = .rdCheck ∧ s.d0.isSome = true ∧ s.d1 = none) ∧
    (let s := { lacking .readHm .rdCheck with d0 := some 1, d1 := some 2 }
     s.quiet = true ∧ s.phase = .rdCheck ∧ s.d0.isSome = true ∧ s.d1.isSome = true ∧ s.ck = none) ∧
    (let s := { lacking .calcT .convert with opsel := none }
     s.quiet = true ∧ s.phase = .convert ∧ s.opsel = none) ∧
    (∀ op ∈ [HostOp.getTemperature, .getHumidity, .calcT, .calcRh], (lacking op .convert).quiet = true ∧
      (lacking op .convert).phase = .convert ∧ (lacking op .convert).opsel = some op ∧ (lacking op .convert).ret16 = none ∧
      (lacking op .convert).rawPort = none) := by decide

/-- The reads of GET_SERIAL_NUMBER and of CRC_CHECK: SN at both ends of its range, DATA at both ends of BYTEI's. -/
theorem witness_UnwrittenRegisterReadFaults_serialAndCrc :
    (let s := lacking .getSerialNumber .snSelect
     s.quiet = true ∧ s.phase = .snSelect ∧ s.loc = none) ∧
    (∀ i ∈ [(0 : Fin 8), 7], let s := { lacking .getSerialNumber .snSelect with loc := some (BitVec.ofNat 8 i) }
     s.quiet = true ∧ s.phase = .snSelect ∧ s.loc = some (BitVec.ofNat 8 i) ∧ s.sn[i] = none) ∧
    (∀ p ∈ [Phase.crcXor, .crcShift, .crcCompare], (lacking .crcCheck p).quiet = true ∧ (lacking .crcCheck p).phase = p ∧
      (lacking .crcCheck p).acc = none) ∧
    (∀ p ∈ [Phase.crcXor, .crcShift, .crcCompare], let s := { lacking .crcCheck p with acc := some 0 }
     s.quiet = true ∧ s.phase = p ∧ s.acc.isSome = true ∧ s.bytei = none ∧ s.bitn = none ∧ s.exp = none) ∧
    (∀ i ∈ [(0 : Byte), 255], let s := { lacking .crcCheck .crcXor with acc := some 0, bytei := some i }
     s.quiet = true ∧ s.phase = .crcXor ∧ s.acc.isSome = true ∧ s.bytei = some i ∧ s.data.length ≤ i.toNat) ∧
    (let s := { lacking .crcCheck .crcShift with acc := some 0, bitn := some 7 }
     s.quiet = true ∧ s.phase = .crcShift ∧ s.acc.isSome = true ∧ s.bitn.isSome = true ∧ s.bytei = none) ∧
    (let s := { lacking .crcCheck .crcShift with acc := some 0, bitn := some 7, bytei := some 0 }
     s.quiet = true ∧ s.phase = .crcShift ∧ s.acc.isSome = true ∧ s.bitn.isSome = true ∧ s.bytei.isSome = true ∧
       s.len = none) := by decide

theorem witness_CrcCheckIsPure :
    State.reset.pIdle ∧ (begun [] []).pIdle ∧ (2 : Byte).toNat ≤ ([0x68, 0x3A] : List Byte).length ∧
      State.reset.params.crcInit = (begun [] []).params.crcInit := by decide

theorem witness_CrcIsLinear : ([0x80, 0x00] : List Byte).length = ([0x00, 0x01] : List Byte).length := rfl

theorem witness_OneCorruptedByteIsDetected : (0x01 : Byte) ≠ 0 ∧ crc8 0 ([0x68] ++ 0x3A :: []) = 0x7C := by decide +kernel

theorem witness_FrameErrorsUpToThreeBitsAreDetected :
    crc8 0 [0x68, 0x3A] = 0x7C ∧ 1 ≤ bitsSet 0x00 + bitsSet 0x00 + bitsSet 0x01 ∧ bitsSet 0x80 + bitsSet 0x01 + bitsSet 0x80 ≤ 3 := by
  decide +kernel

theorem witness_TriggersSelectSendWaitRequest :
    (busy .readHm .rdSelect 0xE3).phase = .rdSelect ∧ (busy .readHm .rdSelect 0xE3).cmd = some 0xE3 ∧
      (busy .readHm .rdSelect 0xF5).phase = .rdSelect ∧ (busy .readHm .rdSelect 0xF5).cmd = some 0xF5 := by decide

theorem witness_OtherCommandsFaultAsOperands :
    (busy .readHm .rdSelect 0xE6).phase = .rdSelect ∧ (busy .readHm .rdSelect 0xE6).cmd = some 0xE6 ∧
      (busy .readHm .rdSelect 0xFE).phase = .rdSelect ∧ (busy .readHm .rdSelect 0xFE).cmd = some 0xFE := by decide

theorem witness_SoftResetSendsAndWaits :
    sending.phase = .rstSend ∧
      ((busy .readHm .rdRecover 0xE5).phase = .rdRecover ∧ (busy .readHm .rdRecover 0xE5).opsel = some .readHm) ∧
      ((busy .getHumidity .rdRecover 0xE5).phase = .rdRecover ∧ (busy .getHumidity .rdRecover 0xE5).opsel = some .getHumidity) := by
  decide

theorem witness_AddressSequencesSendAndRequest :
    (busy .getSerialNumber .snAddr1 0).phase = .snAddr1 ∧ (busy .getSerialNumber .snAddr2 0).phase = .snAddr2 := by decide

theorem witness_DeviceWordsOnlyWhereEmitted :
    (busy .readHm .rdSelect 0xE3).commandWord ≠ some (encode .trigTNhm) ∧ ∀ op p, encode .trigTNhm ≠ .hostop op p :=
  ⟨by decide, nofun⟩

/-- A serial-number operation at a wait, for the two statements that resume one. -/
def waiting (p : Phase) (l : Byte) (avail : List Nat) (sn : Vector (Option Byte) 8) : State :=
  { busy .getSerialNumber p 0 with loc := some l, availIn := avail, sn := sn }

theorem witness_SerialNumberResumesFromFirstWait :
    let s := waiting .snReq1 7 [8, 5] (Vector.replicate 8 none)
    let u := waiting .snReq1 8 [8, 6] (Vector.replicate 8 none)
    (s.phase = .snReq1 ∧ s.quiet = true ∧ s.loc = some 7 ∧ s.params.snMap.valid = true ∧ 8 ≤ s.availAnswer 0 ∧
      s.availAnswer 1 < 6 ∧ (7 : Byte).toNat < 8) ∧
    (u.phase = .snReq1 ∧ u.quiet = true ∧ u.loc = some 8 ∧ u.params.snMap.valid = true ∧ 8 ≤ u.availAnswer 0 ∧
      6 ≤ u.availAnswer 1 ∧ 7 < (8 : Byte).toNat) := by decide

theorem witness_SerialNumberResumesFromSecondWait :
    let s := waiting .snReq2 7 [6] #v[none, none, some 4, some 3, some 2, some 1, none, none]
    s.phase = .snReq2 ∧ s.quiet = true ∧ s.loc = some 7 ∧ s.params.snMap.valid = true ∧
      (∀ (p i : Fin 8), s.params.snMap.store1[p] = some i → s.sn[i].isSome = true) ∧ 6 ≤ s.availAnswer 0 ∧
      (7 : Byte).toNat < 8 ∧ 7 < (8 : Byte).toNat := by decide

/-- A block with READ_HM of 0xE5 called while some bytes wait in the transport's buffer. -/
def readCalled (waiting : List Byte) (avail : List Nat) (read : List Byte) : State :=
  { begun avail read with
    host := [.call { op := 8, ports := { Ports.zero with cmd := 0xE5 }, early := false, waiting := waiting }] }

/-- The premises of the statement with some bytes waiting and some fresh ones. -/
abbrev readPremises (s : State) (waiting fresh : List Byte) : Prop :=
  let c : HostCall := { op := 8, ports := { Ports.zero with cmd := 0xE5 }, early := false, waiting := waiting }
  s.pIdle ∧ s.pBegun ∧ s.host = [.call c] ∧ c.early = false ∧ s.oBuffer c fresh

/-- The frame 68 3A 7C of V1: its three bytes waiting; two of them waiting and one fresh; and none waiting (O_CLEAN), the first check
finding two. -/
theorem witness_StaleBytesAreReadFirst_frames :
    readPremises (readCalled [0x68, 0x3A, 0x7C] [3] [0x68, 0x3A, 0x7C]) [0x68, 0x3A, 0x7C] [] ∧
    (readPremises (readCalled [0x68, 0x3A] [2, 3] [0x68, 0x3A, 0x7C]) [0x68, 0x3A] [0x7C] ∧
      (readCalled [0x68, 0x3A] [2, 3] [0x68, 0x3A, 0x7C]).oReady 3 1) ∧
    (readPremises (readCalled [] [2, 3] [0x68, 0x3A, 0x7C]) [] [0x68, 0x3A, 0x7C] ∧
      (readCalled [] [2, 3] [0x68, 0x3A, 0x7C]).oReady 3 1) ∧
    decode (.hostop 8 { Ports.zero with cmd := 0xE5 }) = .ok (.readHm 0xE5) ∧ crc8 0 [0x68, 0x3A] = 0x7C := by
  refine ⟨⟨rfl, rfl, rfl, rfl, ?_, by decide⟩, ⟨⟨rfl, rfl, rfl, rfl, ?_, by decide⟩, by decide⟩,
    ⟨⟨rfl, rfl, rfl, rfl, ?_, by decide⟩, by decide⟩, rfl, by decide +kernel⟩
  · intro j _ h
    rcases j with _ | j
    · decide
    · exact absurd (h 0 (by omega)) (by decide)
  · intro j _ h
    rcases j with _ | _ | j
    · decide
    · decide
    · exact absurd (h 1 (by omega)) (by decide)
  · intro j _ h
    rcases j with _ | _ | j
    · decide
    · decide
    · exact absurd (h 1 (by omega)) (by decide)

/-- O_CLEAN and two fresh bytes only. -/
theorem witness_StaleBytesAreReadFirst_timeout :
    readPremises (readCalled [] [0, 0, 1, 1, 2, 2, 2, 2, 2, 2, 2] [0x68, 0x3A]) [] [0x68, 0x3A] ∧
      ([0x68, 0x3A] : List Byte).length < 3 :=
  ⟨⟨rfl, rfl, rfl, rfl, by decide, by decide⟩, by decide⟩

/-- With three bytes waiting the premise O_CLEAN fails. -/
theorem test_oClean_excludes_waiting :
    ¬ ({ op := 8, ports := Ports.zero, early := false, waiting := [0x68, 0x3A, 0x7C] } : HostCall).oClean := by decide

/-- All three outcomes: returned, faulted, left waiting. -/
theorem witness_AcceptedOperationsEnd :
    encode .beginOp = .hostop 0 Ports.zero ∧ (∃ t, exec .beginOp State.reset = .next t) ∧
      (∃ t, exec (.readHm 0) (begun [] []) = .next t) ∧ ∃ t, exec (.getSerialNumber 0) (begun [0] []) = .next t :=
  ⟨rfl, ⟨_, rfl⟩, ⟨_, rfl⟩, _, rfl⟩

end Sys2Proof.Tests
end

/-! Scope (spec/00_scope.md R8, R11): every step keeps the block's invariant, and an accepted operation returns, faults, or is
GET_SERIAL_NUMBER waiting for bytes. -/

namespace Sys2Proof.Machine

/-! ## The start of a called operation -/

/-- What the start of an operation does (R46 a, R81): nothing but operand registers, CRC_CHECK's counters and the first phase
is written, and the first phase is a busy one that the operation visits. -/
structure State.StartedBy (op : HostOp) (s t : State) : Prop where
  frame : t = { s with
    phase := t.phase, cmd := t.cmd, loc := t.loc, sn := t.sn, rawPort := t.rawPort, data := t.data, len := t.len
    exp := t.exp, acc := t.acc, bytei := t.bytei, dataDrawn := t.dataDrawn }
  unsettled : t.phase.settled = false
  visits : op.visits t.phase = true
  notShift : t.phase ≠ .crcShift

theorem startedBy_loadCrc (data : List Byte) (len exp : Byte) (x : State) :
    x.StartedBy .crcCheck (loadCrc data len exp x) := by
  have hp : (loadCrc data len exp x).phase = if len = 0 then .crcCompare else .crcXor := rfl
  by_cases h : len = 0
  · rw [if_pos h] at hp
    exact ⟨rfl, by rw [hp]; rfl, by rw [hp]; rfl, by rw [hp]; exact Phase.noConfusion⟩
  · rw [if_neg h] at hp
    exact ⟨rfl, by rw [hp]; rfl, by rw [hp]; rfl, by rw [hp]; exact Phase.noConfusion⟩

/-- Every host operation starts so. -/
theorem startedBy_of_hostStart {i : Instr} {op : HostOp} {load : State → State} (h : hostStart i = some (op, load))
    (x : State) : x.StartedBy op (load x) := by
  cases i
  case crcCheck data len exp => cases h; exact startedBy_loadCrc data len exp x
  case beginOp | resetOp | getTemperature | getHumidity | getSerialNumber | readHm | calcRh | calcT =>
    cases h; exact ⟨rfl, rfl, rfl, Phase.noConfusion⟩
  all_goals cases h

/-- A device word is no `HOSTOP` word (R82, R83). -/
theorem encode_ne_hostop {i : Instr} (h : hostStart i = none) (c : BitVec 4) (p : Ports) : encode i ≠ .hostop c p := by
  cases i
  case trigTHm | trigRhHm | trigTNhm | trigRhNhm | writeUserReg | readUserReg | softReset | snAddr1 | snAddr2 =>
    exact CodeWord.noConfusion
  all_goals cases h

theorem eq_getSerialNumber_of_hostStart {i : Instr} {load : State → State}
    (h : hostStart i = some (.getSerialNumber, load)) : ∃ l, i = .getSerialNumber l := by
  cases i
  case getSerialNumber l => exact ⟨l, rfl⟩
  all_goals cases h

/-! ## The invariant over a whole step -/

/-- Power-on reset leaves every register unwritten and the trace empty, so nothing is left to violate it. -/
theorem State.Inv.powerOnReset (s : State) : (powerOnReset s).Inv where
  trace := rfl
  cause := ⟨Phase.noConfusion, Bool.noConfusion⟩
  opsel := fun h => absurd rfl h
  n := nofun
  bitn := nofun
  dly := nofun
  raw := rfl
  tnum := nofun
  rhnum := nofun

theorem Phase.traceMode_of_unsettled {p : Phase} (h : p.settled = false) : p.traceMode = .inside := by
  cases p
  case idle => cases h
  all_goals rfl

/-- An accepted `Call` opens the bracket of the trace and latches the operation that visits the first phase. -/
theorem State.Inv.accept {s t : State} (h : s.Inv) (hi : s.phase = .idle) (i : Instr) {op : HostOp}
    (hb : op.usesBus = true → s.begun = true) (ht : { s.emit (.call i) with opsel := some op }.StartedBy op t) : t.Inv := by
  obtain ⟨hframe, hset, hvis, hshift⟩ := ht
  have same {α : Type} (f : State → α) := congrArg f hframe
  have hfaulted : t.phase ≠ .faulted := fun hp => by rw [hp] at hset; cases hset
  have hcause : t.cause = none := (same State.cause).trans (h.no_cause (by rw [hi]; exact Phase.noConfusion))
  constructor
  case trace =>
    rw [Phase.traceMode_of_unsettled hset, same State.trace]
    exact (traceRun_extend h.trace _).trans (by rw [hi]; rfl)
  case cause => simp [hfaulted, hcause]
  case opsel => exact fun _ => ⟨op, same State.opsel, hvis, fun hu => (same State.begun).trans (hb hu)⟩
  case n => rw [same State.n]; exact h.n
  case bitn => rw [same State.bitn]; exact fun v hv => ⟨(h.bitn v hv).1, fun hp => absurd hp hshift⟩
  case dly => rw [same State.dly]; exact h.dly
  case raw => rw [same State.raw, same State.d0, same State.d1]; exact h.raw
  case tnum => rw [same State.tnum]; exact h.tnum
  case rhnum => rw [same State.rhnum]; exact h.rhnum

theorem State.Inv.runOp {s : State} (h : s.Inv) (k : Nat) : (runOp k s).Inv := runOp_keeps (fun _ hs => hs.tick) k s h

theorem State.Inv.ticks {s : State} (h : s.Inv) (n : Nat) : (ticks n s).Inv := ticks_keeps (fun _ hs => hs.tick) n s h

/-- Every instruction keeps the invariant. -/
theorem State.Inv.exec {s t : State} (h : s.Inv) {i : Instr} (he : exec i s = .next t) : t.Inv := by
  rcases exec_next he with ⟨op, load, hst, hi, hb, rfl⟩ | ⟨-, -, -, n, rfl⟩
  · exact (h.accept hi i hb (startedBy_of_hostStart hst _)).runOp opFuel
  · exact h.ticks n

/-- Settles O6: by the four things a step can do, each visit of the sequencer keeping the invariant. -/
theorem stepKeepsInvariant : Obligations.StepKeepsInvariant := by
  intro s t h hstep
  rcases step_next hstep with ⟨rest, -, rfl⟩ | ⟨-, -, rfl⟩ | ⟨c, rest, i, -, -, -, -, he⟩ | ⟨-, -, rfl | ⟨n, rfl⟩⟩
  · exact .powerOnReset _
  · exact h
  · have hrest : ({ s with host := rest } : State).Inv := h.congr rfl rfl rfl rfl rfl rfl rfl rfl rfl rfl rfl rfl rfl
    exact hrest.exec he
  · exact h.runOp opFuel
  · exact h.ticks n

/-! ## The phases one visit can lead to -/

/-- The phases that can follow a phase in the sequencer (R21, R46), FAULTED where a visit reads a register or needs a
continuation. -/
def Phase.successors : Phase → List Phase
  | .idle => [.idle]
  | .beginSession => [.idle]
  | .rstSend => [.rstWait]
  | .rstWait => [.idle]
  | .rdSelect => [.rdSend, .faulted]
  | .rdSend => [.rdWait, .faulted]
  | .rdWait => [.rdRequest, .faulted]
  | .rdRequest => [.rdPoll]
  | .rdPoll => [.rdRead, .idle, .convert, .faulted]
  | .rdRead => [.rdCheck]
  | .rdCheck => [.crcXor, .faulted]
  | .rdRecover => [.idle, .convert, .faulted]
  | .convert => [.idle, .faulted]
  | .snAddr1 => [.snReq1]
  | .snReq1 => [.snReq1, .snRead1]
  | .snRead1 => [.snAddr2]
  | .snAddr2 => [.snReq2]
  | .snReq2 => [.snReq2, .snRead2]
  | .snRead2 => [.snSelect]
  | .snSelect => [.idle, .faulted]
  | .crcXor => [.crcShift, .faulted]
  | .crcShift => [.crcShift, .crcXor, .crcCompare, .faulted]
  | .crcCompare => [.rdRecover, .idle, .convert, .faulted]
  | .faulted => [.faulted]

theorem readReg_phase_mem {α : Type} {ps : List Phase} (hf : .faulted ∈ ps) (r : Option α) (name : RegName) (s : State)
    {k : α → State} (hk : ∀ v, (k v).phase ∈ ps) : (readReg r name s k).phase ∈ ps := by
  cases r with
  | none => exact hf
  | some v => exact hk v

theorem finishReadHm_phase_mem (v : RawCode) (s : State) : (finishReadHm v s).phase ∈ [Phase.idle, .convert, .faulted] := by
  rcases finishReadHm_cases v s with ⟨-, he⟩ | ⟨-, he⟩ | ⟨-, f, he⟩ <;> rw [he]
  · exact .head _
  · exact .tail _ (.head _)
  · exact .tail _ (.tail _ (.head _))

theorem pollLoop_phase_mem (left : Nat) (s : State) : (pollLoop left s).phase ∈ Phase.successors .rdPoll := by
  induction left generalizing s with
  | zero =>
    unfold pollLoop
    split
    · exact .head _
    · exact .tail _ (finishReadHm_phase_mem _ _)
  | succ l ih =>
    unfold pollLoop
    split
    · exact .head _
    · exact ih _

theorem afterCompare_phase_mem (m : Bool) (s : State) : (afterCompare m s).phase ∈ Phase.successors .crcCompare := by
  have hm : (if m then enterRecovery s else readReg s.raw .raw s fun r => finishReadHm r s).phase ∈
      Phase.successors .crcCompare := by
    split
    · exact .head _
    · exact readReg_phase_mem (by decide) _ _ _ fun r => .tail _ (finishReadHm_phase_mem r s)
  refine readReg_phase_mem (by decide) _ _ _ fun op => ?_
  split
  · exact (by decide : Phase.idle ∈ Phase.successors .crcCompare)
  · exact hm
  · exact hm
  · exact hm
  · exact (by decide : Phase.faulted ∈ Phase.successors .crcCompare)

theorem awaitBytes_phase (n : Nat) (next : Phase) (s : State) :
    (awaitBytes n next s).phase = s.phase ∨ (awaitBytes n next s).phase = next := by
  unfold awaitBytes
  split
  · exact .inr rfl
  · exact .inl rfl

theorem phaseConvert_phase_mem (s : State) : (phaseConvert s).phase ∈ Phase.successors .convert := by
  refine readReg_phase_mem (by decide) _ _ _ fun op => ?_
  split
  · exact readReg_phase_mem (by decide) _ _ _ fun r => .head _
  · exact readReg_phase_mem (by decide) _ _ _ fun r => .head _
  · exact readReg_phase_mem (by decide) _ _ _ fun r => .head _
  · exact readReg_phase_mem (by decide) _ _ _ fun r => .head _
  · exact .tail _ (.head _)

theorem phaseSnSelect_phase_mem (s : State) : (phaseSnSelect s).phase ∈ Phase.successors .snSelect := by
  refine readReg_phase_mem (by decide) _ _ _ fun l => ?_
  split
  · exact readReg_phase_mem (by decide) _ _ _ fun b => .head _
  · exact .tail _ (.head _)

theorem phaseCrcShift_phase_mem {s : State} (hp : s.phase = .crcShift) :
    (phaseCrcShift s).phase ∈ Phase.successors .crcShift := by
  refine readReg_phase_mem (by decide) _ _ _ fun a => readReg_phase_mem (by decide) _ _ _ fun k =>
    readReg_phase_mem (by decide) _ _ _ fun i => readReg_phase_mem (by decide) _ _ _ fun len => ?_
  split
  · unfold afterByte
    split
    · exact (by decide : Phase.crcCompare ∈ Phase.successors .crcShift)
    · exact (by decide : Phase.crcXor ∈ Phase.successors .crcShift)
  · exact List.mem_cons.2 (.inl hp)

/-- One visit leads to a successor of the phase. -/
theorem tick_phase_mem_successors (s : State) : (tick s).phase ∈ s.phase.successors := by
  cases hp : s.phase with
  | idle => rw [tick_idle hp, hp]; exact .head _
  | faulted => rw [tick_faulted hp, hp]; exact .head _
  | beginSession => rw [tick_beginSession hp]; exact .head _
  | rstSend => rw [tick_rstSend hp]; exact .head _
  | rstWait => rw [tick_rstWait hp]; exact .head _
  | rdSelect => rw [tick_rdSelect hp]; exact readReg_phase_mem (by decide) _ _ _ fun c => .head _
  | rdSend => rw [tick_rdSend hp]; exact readReg_phase_mem (by decide) _ _ _ fun c => .head _
  | rdWait =>
    rw [tick_rdWait hp, phaseRdWait]
    split
    · exact .head _
    · exact readReg_phase_mem (by decide) _ _ _ fun c => .tail _ (.head _)
  | rdRequest => rw [tick_rdRequest hp]; exact .head _
  | rdPoll => rw [tick_rdPoll hp]; exact pollLoop_phase_mem _ _
  | rdRead => rw [tick_rdRead hp]; exact .head _
  | rdCheck =>
    rw [tick_rdCheck hp]
    exact readReg_phase_mem (by decide) _ _ _ fun a => readReg_phase_mem (by decide) _ _ _ fun b =>
      readReg_phase_mem (by decide) _ _ _ fun c => .head _
  | rdRecover => rw [tick_rdRecover hp]; exact finishReadHm_phase_mem _ _
  | convert => rw [tick_convert hp]; exact phaseConvert_phase_mem s
  | snAddr1 => rw [tick_snAddr1 hp]; exact .head _
  | snReq1 =>
    rw [tick_snReq1 hp]
    rcases awaitBytes_phase snLen1 .snRead1 s with h | h
    · rw [phaseSnReq1, h, hp]; exact .head _
    · rw [phaseSnReq1, h]; exact .tail _ (.head _)
  | snRead1 => rw [tick_snRead1 hp]; exact .head _
  | snAddr2 => rw [tick_snAddr2 hp]; exact .head _
  | snReq2 =>
    rw [tick_snReq2 hp]
    rcases awaitBytes_phase snLen2 .snRead2 s with h | h
    · rw [phaseSnReq2, h, hp]; exact .head _
    · rw [phaseSnReq2, h]; exact .tail _ (.head _)
  | snRead2 => rw [tick_snRead2 hp]; exact .head _
  | snSelect => rw [tick_snSelect hp]; exact phaseSnSelect_phase_mem s
  | crcXor =>
    rw [tick_crcXor hp]
    exact readReg_phase_mem (by decide) _ _ _ fun a => readReg_phase_mem (by decide) _ _ _ fun i =>
      readReg_phase_mem (by decide) _ _ _ fun b => .head _
  | crcShift => rw [tick_crcShift hp]; exact phaseCrcShift_phase_mem hp
  | crcCompare =>
    rw [tick_crcCompare hp]
    exact readReg_phase_mem (by decide) _ _ _ fun a => readReg_phase_mem (by decide) _ _ _ fun e =>
      afterCompare_phase_mem _ _

/-! ## Only GET_SERIAL_NUMBER reaches its phases -/

/-- A busy phase of GET_SERIAL_NUMBER (R21, column "operation"). -/
def Phase.serial (p : Phase) : Bool := !p.settled && HostOp.getSerialNumber.visits p

/-- The phases of GET_SERIAL_NUMBER are entered from one another only. -/
theorem Phase.serial_of_successor (p : Phase) : ∀ q ∈ p.successors, p.serial = false → q.serial = false := by
  cases p <;> decide

theorem HostOp.eq_getSerialNumber_of_visits {op : HostOp} {p : Phase} (hv : op.visits p = true) (hs : p.serial = true) :
    op = .getSerialNumber := by
  cases p
  case snAddr1 | snReq1 | snRead1 | snAddr2 | snReq2 | snRead2 | snSelect => exact eq_of_beq hv
  all_goals cases hs

/-- A run that starts outside those phases stays outside them. -/
theorem runOp_outside_serial (k : Nat) {s : State} (h : s.phase.serial = false) : (runOp k s).phase.serial = false :=
  runOp_keeps (P := fun t => t.phase.serial = false)
    (fun t => Phase.serial_of_successor t.phase _ (tick_phase_mem_successors t)) k s h

/-- A run that rests in a phase of GET_SERIAL_NUMBER was started by it. -/
theorem State.StartedBy.eq_getSerialNumber {op : HostOp} {s t : State} (h : s.StartedBy op t) {k : Nat}
    (hs : (runOp k t).phase.serial = true) : op = .getSerialNumber := by
  refine HostOp.eq_getSerialNumber_of_visits h.visits (Bool.eq_true_of_not_eq_false fun hn => ?_)
  rw [runOp_outside_serial k hn] at hs
  cases hs

/-- Settles O57: every accepted operation comes to rest, and a rest in one of the two waits is GET_SERIAL_NUMBER's. -/
theorem acceptedOperationsEnd : Obligations.AcceptedOperationsEnd := by
  intro i s t c p henc he
  rcases exec_next he with ⟨op, load, hst, -, -, rfl⟩ | ⟨hnone, -⟩
  · have hload := startedBy_of_hostStart hst { s.emit (.call i) with opsel := some op }
    have hserial : ∀ q : Phase, q.serial = true →
        (runOp opFuel (load { s.emit (.call i) with opsel := some op })).phase = q → ∃ l, i = .getSerialNumber l :=
      fun q hq hp => eq_getSerialNumber_of_hostStart (hload.eq_getSerialNumber (hp ▸ hq) ▸ hst)
    rcases runOp_opFuel_atRest _ hload.unsettled with hret | hfault | ⟨hp, -⟩ | ⟨hp, -⟩
    · exact .inl hret
    · exact .inr (.inl hfault)
    · exact .inr (.inr ⟨.inl hp, hserial _ rfl hp⟩)
    · exact .inr (.inr ⟨.inr hp, hserial _ rfl hp⟩)
  · exact absurd henc (encode_ne_hostop hnone c p)

end Sys2Proof.Machine

/-! State and reset (spec/10_state.md): what power-on reset leaves, the codes of phases and operations, what a step decodes and where
it rests, what it never takes back, and the write-before-read discipline. -/

namespace Sys2Proof.Machine

/-! ## An accepted call and one step -/

/-- The start of an operation leaves OPSEL as it was latched, BEGUN, the parameters, the trace and the HOST channel (R46 a). -/
theorem State.StartedBy.keeps {op : HostOp} {s t : State} (h : s.StartedBy op t) : s.Keeps t := by
  have same {α : Type} (f : State → α) := congrArg f h.frame
  exact .of [] (same State.host) (same State.params) (same State.opsel) ((same State.trace).trans (List.append_nil _).symm)
    (same State.begun)

/-- From an accepted `Call`, with its event emitted and OPSEL latched, to the rest of its operation. -/
theorem keeps_run_of_hostStart {i : Instr} {op : HostOp} {load : State → State} (h : hostStart i = some (op, load))
    (x : State) : x.Keeps (runOp opFuel (load x)) :=
  (startedBy_of_hostStart h x).keeps.trans (.runOp _ _)

/-- No instruction clears BEGUN, changes a parameter or takes an event back (R22, R8, R41). -/
theorem exec_extends {i : Instr} {s t : State} (he : exec i s = .next t) :
    (s.begun = true → t.begun = true) ∧ t.params = s.params ∧ s.trace <+: t.trace := by
  rcases exec_next he with ⟨op, load, hst, -, -, rfl⟩ | ⟨-, -, -, n, rfl⟩
  · have hk := keeps_run_of_hostStart hst { s.emit (.call i) with opsel := some op }
    exact ⟨hk.begun, hk.params, (List.prefix_append _ _).trans hk.trace⟩
  · have hk := State.Keeps.ticks n s
    exact ⟨hk.begun, hk.params, hk.trace⟩

/-- An idle block takes the next `Call` of a caller that waited (R46, R236). -/
theorem step_call {s : State} {c : HostCall} {rest : List HostInput} (hi : s.phase = .idle) (hh : s.host = .call c :: rest)
    (he : c.early = false) : step s = stepCall c s := by
  simp [step, hh, he, hi]

/-- A listed command word at the present phase runs as its instruction (log 11). -/
theorem stepBusy_word {s : State} {w : CodeWord} {i : Instr} (hnf : s.phase ≠ .faulted) (hw : s.commandWord = some w)
    (hd : decode w = .ok i) : stepBusy s = exec i s := by
  simp [stepBusy, hnf, hw, hd]

/-- A phase that emits no listed command word, no word at all or one of neither table, is run on (log 8). -/
theorem stepBusy_no_listed_word {s : State} (hnf : s.phase ≠ .faulted)
    (hw : ∀ w i, s.commandWord = some w → decode w ≠ .ok i) : stepBusy s = .next (runOp opFuel s) := by
  cases hc : s.commandWord with
  | none => exact stepBusy_no_word hnf hc
  | some w =>
    cases hd : decode w with
    | ok i => exact absurd hd (hw w i hc)
    | error e => simp [stepBusy, hnf, hc, hd]

theorem Phase.settled_eq_false {p : Phase} (hi : p ≠ .idle) (hf : p ≠ .faulted) : p.settled = false := by
  cases p
  case idle => exact absurd rfl hi
  case faulted => exact absurd rfl hf
  all_goals rfl

/-! ## Write-before-read over a whole step -/

/-- Every host operation writes, before its first phase, the operand registers that phase reads (R43, R46 a). -/
theorem readable_of_hostStart {i : Instr} {op : HostOp} {load : State → State} (h : hostStart i = some (op, load))
    {x : State} (ho : x.opsel = some op) : (load x).readable (load x).phase := by
  cases i
  case beginOp | resetOp => cases h; trivial
  case getTemperature | getHumidity | readHm | getSerialNumber => cases h; rfl
  case calcRh | calcT =>
    cases h
    refine ⟨fun hg => ?_, fun _ => rfl⟩
    rcases hg with hg | hg <;> cases ho.symm.trans hg
  case crcCheck data len exp =>
    cases h
    have hready : (loadCrc data len exp x).checkReady := ⟨rfl, rfl, fun hne => absurd ho hne⟩
    have hp : (loadCrc data len exp x).phase = if len = 0 then .crcCompare else .crcXor := rfl
    by_cases hl : len = 0
    · rw [hp, if_pos hl]
      exact hready
    · rw [hp, if_neg hl]
      have hpos : 0 < len.toNat := Nat.pos_of_ne_zero fun hz => hl (BitVec.eq_of_toNat_eq hz)
      exact ⟨hready, 0, len, rfl, rfl, dataPort_length _ _ _, hpos⟩
  all_goals cases h

/-- An operation starts disciplined, whatever the registers held before. -/
theorem State.StartedBy.disciplined {op : HostOp} {s t : State} (h : s.StartedBy op t) (hv : s.params.snMap.valid = true)
    (ho : s.opsel = some op) (hr : t.readable t.phase) : t.Disciplined where
  snMap := h.keeps.params ▸ hv
  opsel := fun _ => ⟨op, h.keeps.opsel.trans ho, h.visits⟩
  readable := hr
  cause := fun hf => by
    have hset := h.unsettled
    rw [hf] at hset
    cases hset

theorem State.Disciplined.runOp {s : State} (h : s.Disciplined) (k : Nat) : (runOp k s).Disciplined :=
  runOp_keeps (fun _ hs => hs.tick) k s h

theorem State.Disciplined.ticks {s : State} (h : s.Disciplined) (n : Nat) : (ticks n s).Disciplined :=
  ticks_keeps (fun _ hs => hs.tick) n s h

/-- Every instruction keeps the discipline. -/
theorem State.Disciplined.exec {s t : State} (h : s.Disciplined) {i : Instr} (he : exec i s = .next t) : t.Disciplined := by
  rcases exec_next he with ⟨op, load, hst, -, -, rfl⟩ | ⟨-, -, -, n, rfl⟩
  · have hload := startedBy_of_hostStart hst { s.emit (.call i) with opsel := some op }
    exact (hload.disciplined h.snMap rfl (readable_of_hostStart hst rfl)).runOp opFuel
  · exact h.ticks n

/-- Every step keeps the discipline. -/
theorem State.Disciplined.step {s t : State} (h : s.Disciplined) (hstep : step s = .next t) : t.Disciplined := by
  rcases step_next hstep with ⟨rest, -, rfl⟩ | ⟨-, -, rfl⟩ | ⟨c, rest, i, hi, -, -, -, he⟩ | ⟨-, -, rfl | ⟨n, rfl⟩⟩
  · exact .idle h.snMap rfl
  · exact h
  · have hrest : ({ s with host := rest } : State).Disciplined := .idle h.snMap hi
    exact hrest.exec he
  · exact h.runOp opFuel
  · exact h.ticks n

/-- Settles O8: by the four things a step can do, each visit of the sequencer keeping the discipline, and each operation writing
its operand registers at its start. -/
theorem stepKeepsWriteBeforeRead : Obligations.StepKeepsWriteBeforeRead := fun _ _ h hstep =>
  ⟨h.step hstep, (h.step hstep).cause⟩

/-! ## The codes of phases and operations -/

/-- R21's table has every phase, under its code. -/
theorem Phase.mem_phaseCodes (p : Phase) : (p, p.code) ∈ phaseCodes := by
  cases p <;> decide

theorem Phase.code_of_mem_phaseCodes : ∀ x ∈ phaseCodes, x.1.code = x.2 := by decide

/-- R21's table gives no code twice. -/
theorem Phase.code_injective {p q : Phase} (h : p.code = q.code) : p = q := by
  have hnodup : (phaseCodes.map Prod.snd).Nodup := by decide
  exact congrArg Prod.fst (List.inj_on_of_nodup_map hnodup p.mem_phaseCodes q.mem_phaseCodes h)

theorem Phase.code_le (p : Phase) : p.code.toNat ≤ 23 := by
  have hle : ∀ x ∈ phaseCodes, x.2.toNat ≤ 23 := by decide
  exact hle _ p.mem_phaseCodes

/-- The nine host operations, in the order of R81's table. -/
def hostOps : List HostOp :=
  [.beginOp, .resetOp, .getTemperature, .getHumidity, .getSerialNumber, .readHm, .calcRh, .calcT, .crcCheck]

theorem HostOp.mem_hostOps (op : HostOp) : op ∈ hostOps := by
  cases op <;> decide

/-- R81's table gives no select code twice. -/
theorem HostOp.code_injective {p q : HostOp} (h : p.code = q.code) : p = q := by
  have hnodup : (hostOps.map HostOp.code).Nodup := by decide
  exact List.inj_on_of_nodup_map hnodup p.mem_hostOps q.mem_hostOps h

/-- A host operation is encoded with its select code (R81). -/
theorem encode_of_hostStart {i : Instr} {op : HostOp} {load : State → State} (h : hostStart i = some (op, load)) :
    ∃ p, encode i = .hostop op.code p := by
  cases i
  case beginOp | resetOp | getTemperature | getHumidity | getSerialNumber | readHm | calcRh | calcT | crcCheck =>
    cases h; exact ⟨_, rfl⟩
  all_goals cases h

/-- After an accepted host operation OPSEL still holds what the `Call` latched (R45). -/
theorem opsel_of_exec {i : Instr} {s t : State} {c : BitVec 4} {p : Ports} (henc : encode i = .hostop c p)
    (he : exec i s = .next t) : ∃ o, t.opsel = some o ∧ o.code = c := by
  rcases exec_next he with ⟨op, load, hst, -, -, rfl⟩ | ⟨hnone, -⟩
  · obtain ⟨p', hcode⟩ := encode_of_hostStart hst
    cases hcode.symm.trans henc
    exact ⟨op, (keeps_run_of_hostStart hst _).opsel, rfl⟩
  · exact absurd henc (encode_ne_hostop hnone c p)

/-- Settles O4: the codes by R21's and R81's tables, OPSEL since the run of an operation does not write it. -/
theorem phaseAndOperationCodes : Obligations.PhaseAndOperationCodes :=
  ⟨fun p code h => Phase.code_of_mem_phaseCodes (p, code) h, fun p => ⟨p.code, p.mem_phaseCodes⟩,
    fun _ _ h => Phase.code_injective h, Phase.code_le, fun _ _ h => HostOp.code_injective h,
    fun _ _ _ _ _ henc he => opsel_of_exec henc he⟩

/-! ## What a step never takes back, what it decodes, and where it rests -/

/-- Settles O9: by the four things a step can do, power-on reset excluded. -/
theorem onlyPowerOnClearsBegunAndFaulted : Obligations.OnlyPowerOnClearsBegunAndFaulted := by
  intro s t hpow hstep
  have hidle : s.phase = .idle → s.phase ≠ .faulted := fun hi hf => Phase.noConfusion (hi.symm.trans hf)
  have hkept (hnf : s.phase ≠ .faulted) (hk : s.Keeps t) :
      (s.begun = true → t.begun = true) ∧ s.phase ≠ .faulted ∧ t.params = s.params ∧ s.trace <+: t.trace :=
    ⟨hk.begun, hnf, hk.params, hk.trace⟩
  rcases step_next hstep with ⟨rest, hh, -⟩ | ⟨hi, -, rfl⟩ | ⟨c, rest, i, hi, -, -, -, he⟩ | ⟨-, hnf, rfl | ⟨n, rfl⟩⟩
  · exact absurd (by rw [hh]; rfl) hpow
  · exact hkept (hidle hi) (.refl _)
  · obtain ⟨hbegun, hparams, htrace⟩ := exec_extends he
    exact ⟨hbegun, hidle hi, hparams, htrace⟩
  · exact hkept hnf (.runOp _ _)
  · exact hkept hnf (.ticks _ _)

/-- Settles O17: the step is a run of the sequencer, which comes to rest within its visits. -/
theorem stepResumesAnOperation : Obligations.StepResumesAnOperation := by
  intro s hni hnf hq hw
  have hk := State.Keeps.runOp opFuel s
  exact ⟨runOp opFuel s, (step_busy hni hq).trans (stepBusy_no_listed_word hnf hw), hk.host, hk.trace,
    runOp_opFuel_atRest s (Phase.settled_eq_false hni hnf)⟩

/-- Settles O16: an idle block decodes the `Call`, a busy one the word of its phase. -/
theorem stepRunsTheDecodedInstruction : Obligations.StepRunsTheDecodedInstruction := by
  constructor
  · intro s c rest i hi hh he hd
    rw [step_call hi hh he]
    simp [stepCall, hd, State.popHost, hh]
  · intro s w i hni hnf hq hw hd
    exact (step_busy hni hq).trans (stepBusy_word hnf hw hd)

/-! ## Reset -/

/-- Settles O1: the reset state read off register by register. -/
theorem powerOnResetLeavesAllUnwritten : Obligations.PowerOnResetLeavesAllUnwritten := by
  have hsn : ∀ i : Fin 8, State.reset.sn[i] = none := by decide
  exact ⟨rfl, rfl, rfl, rfl, rfl, rfl, rfl, rfl, rfl, rfl, rfl, rfl, rfl, rfl, rfl, rfl, rfl, rfl, rfl, hsn, rfl, rfl⟩

/-- Settles O3: nothing is taken from the HOST channel and no operation is in progress. -/
theorem idleBlockWithoutCallStays : Obligations.IdleBlockWithoutCallStays := by
  intro s hi hh
  unfold step
  rw [hh]
  exact if_pos hi

/-- Settles O5: the reset state is its own power-on reset. -/
theorem resetMeetsInvariant : Obligations.ResetMeetsInvariant := State.Inv.powerOnReset State.reset

/-- Settles O7: the block is idle, and the default SN_MAP has the source's properties (R143). -/
theorem resetIsDisciplined : Obligations.ResetIsDisciplined := .idle (by decide) rfl

end Sys2Proof.Machine

/-! Encodings (spec/30_encoding.md): which words decode and to what, the delay sets by their masks, and the GET operations as the
conversions of READ_HM that they expand to. -/

namespace Sys2Proof.Machine

/-! ## The GET operations expand to READ_HM (R97) -/

/-- The registers of READ_HM when its frame has been read and its CRC checked (R127 to R129, R160): the j-th check of the poll loop
found the frame, the accumulator ended at `a` and MISMATCH at `m`. -/
def State.frameChecked (s : State) (c d : Byte) (j : Nat) (a : Byte) (m : Bool) : State :=
  { s with
    cmd := some c, dly := some d, n := some (BitVec.ofNat 4 j)
    d0 := some (s.readAnswer 0), d1 := some (s.readAnswer 1), ck := some (s.readAnswer 2)
    raw := some (s.readAnswer 0 ++ s.readAnswer 1)
    data := [s.readAnswer 0, s.readAnswer 1], len := some 2, exp := some (s.readAnswer 2)
    acc := some a, bytei := some 2, bitn := some 8, mismatch := some m
    availIn := s.availIn.drop (j + 1), availDrawn := s.availDrawn + (j + 1 - s.availIn.length)
    readIn := s.readIn.drop 3, readDrawn := s.readDrawn + (3 - s.readIn.length) }

/-- READ_HM does not see who called it (R46, R97): on one oracle it comes to its end with the same value, the same events and the
same registers, whichever of the three measuring operations OPSEL names and whatever the trace held before. Its three exits
are a good frame, a CRC failure and a timeout, and `k + 1` visits of `opFuel` are left at each. -/
theorem runOp_readHm_of_any_caller (s : State) {c d : Byte} (hd : selectDelay c = some d) :
    ∃ (x : State) (v : RawCode) (es : List Event) (k : Nat), ∀ (op : HostOp) (tr : List Event), op.measures = true →
      runOp opFuel (loadCommand c { s with opsel := some op, trace := tr }) =
        runOp (k + 1) (finishReadHm v { x with opsel := some op, trace := tr ++ es }) := by
  rcases poll_cases s with ⟨j, hj, hready⟩ | hlow
  · by_cases hcrc : crc8 s.params.crcInit [s.readAnswer 0, s.readAnswer 1] = s.readAnswer 2
    · exact ⟨{ s.frameChecked c d j (s.readAnswer 2) false with phase := .crcCompare }, s.readAnswer 0 ++ s.readAnswer 1,
        frameEvents c d.toNat s j ++ readEvents s 3, 2373,
        fun op tr hop => runOp_good 2374 _ op c d j rfl rfl rfl hop hd hj hready hcrc⟩
    · exact ⟨{ s.frameChecked c d j (crc8 s.params.crcInit [s.readAnswer 0, s.readAnswer 1]) true with phase := .rdRecover },
        sentinelCrc, frameEvents c d.toNat s j ++ readEvents s 3 ++ softResetEvents, 2372,
        fun op tr hop => runOp_bad 2373 _ op c d j rfl rfl rfl hop hd hj hready hcrc⟩
  · exact ⟨{ s.afterAvails 11 with phase := .rdPoll, cmd := some c, dly := some d, n := some 10 }, sentinelTimeout,
      frameEvents c d.toNat s 10, 2394, fun op tr _ => runOp_toTimeout 2395 _ c d rfl rfl hd hlow⟩

/-- The same of an accepted `Call` (R46 a): up to the end of READ_HM the three measuring operations are one run, apart from the
`Call` event and OPSEL. -/
theorem invoke_readHm_of_any_caller {s : State} (hi : s.pIdle) (hb : s.pBegun) {c d : Byte} (hd : selectDelay c = some d) :
    ∃ (x : State) (v : RawCode) (es : List Event) (k : Nat), ∀ (op : HostOp) (i : Instr), op.measures = true →
      invoke op i (loadCommand c) s =
        .next (runOp (k + 1) (finishReadHm v { x with opsel := some op, trace := s.trace ++ [.call i] ++ es })) := by
  obtain ⟨x, v, es, k, hrun⟩ := runOp_readHm_of_any_caller s hd
  exact ⟨x, v, es, k, fun op i hop => (invoke_eq i _ hi fun _ => hb).trans (congrArg _ (hrun op _ hop))⟩

/-- Settles O29: the GET operation and READ_HM reach the same end of READ_HM, from which the one returns to the host and the other
converts first. -/
theorem getIsConversionOfReadHm : Obligations.GetIsConversionOfReadHm := by
  intro s hi hb
  constructor
  · obtain ⟨x, v, es, k, hrun⟩ := invoke_readHm_of_any_caller hi hb (c := cmdTHm) (d := tTMs) rfl
    exact ⟨_, v, es, (hrun .readHm _ rfl).trans (congrArg _ (finish_readHm _ _ v rfl)), rfl, rfl, rfl,
      (hrun .getTemperature _ rfl).trans (congrArg _ (finish_getTemperature k _ v rfl))⟩
  · obtain ⟨x, v, es, k, hrun⟩ := invoke_readHm_of_any_caller hi hb (c := cmdRhHm) (d := tRhMs) rfl
    exact ⟨_, v, es, (hrun .readHm _ rfl).trans (congrArg _ (finish_readHm _ _ v rfl)), rfl, rfl, rfl,
      (hrun .getHumidity _ rfl).trans (congrArg _ (finish_getHumidity k _ v rfl))⟩

/-! ## Encoding and decoding (R81 to R83) -/

/-- Settles O11: instruction by instruction, an encoded operand is the port that the decoder reads. -/
theorem decodeOfEncode : Obligations.DecodeOfEncode := by
  intro i
  cases i <;> rfl

/-- Settles O10: each of the ten words is the encoding of its row's instruction. -/
theorem tableWordsDecode : Obligations.TableWordsDecode :=
  ⟨decodeOfEncode .beginOp, decodeOfEncode (.getSerialNumber 0x07), decodeOfEncode (.readHm 0xF5),
    decodeOfEncode (.calcRh 0x683A), decodeOfEncode (.crcCheck [0x68, 0x3A] 2 0x7C), decodeOfEncode .trigTHm,
    decodeOfEncode .writeUserReg, decodeOfEncode .softReset, decodeOfEncode .snAddr1, decodeOfEncode .snAddr2⟩

/-- A reserved select code is refused under its own name, whatever the ports hold (R91). -/
theorem decode_hostop_reserved {op : BitVec 4} (p : Ports) (h : op.toNat ∈ [0x5, 0x6, 0x7, 0xC, 0xD, 0xE, 0xF]) :
    decode (.hostop op p) = .error (.reservedHostOp op) := by
  change decodeHostOp op p = _
  unfold decodeHostOp
  split
  case h_10 => rfl
  all_goals rename_i hop; rw [hop] at h; exact absurd h (by decide)

/-- A select code that is not reserved is an operation's (R81, R91). -/
theorem exists_code_of_not_reserved :
    ∀ op : BitVec 4, op.toNat ∉ [0x5, 0x6, 0x7, 0xC, 0xD, 0xE, 0xF] → ∃ o ∈ hostOps, o.code = op := by
  decide

/-- An operation's select code decodes, whatever the ports hold (R81). -/
theorem decode_hostop_code (o : HostOp) (p : Ports) : ∃ i, decode (.hostop o.code p) = .ok i := by
  cases o <;> exact ⟨_, rfl⟩

/-- The seven bytes of the `CMD8` table name a device command (R82). -/
theorem decode_cmd8_listed {c : Byte} (h : c.toNat ∈ [0xE3, 0xE5, 0xF3, 0xF5, 0xE6, 0xE7, 0xFE]) :
    ∃ i, decode (.cmd8 c) = .ok i := by
  have hrow : c ∈ [cmdTHm, cmdRhHm, cmdTNhm, cmdRhNhm, cmdWriteUser, cmdReadUser, cmdSoftReset] :=
    (List.mem_map_of_injective (f := BitVec.toNat) fun _ _ => BitVec.eq_of_toNat_eq).1 h
  simp only [List.mem_cons, List.not_mem_nil, or_false] at hrow
  rcases hrow with rfl | rfl | rfl | rfl | rfl | rfl | rfl <;> exact ⟨_, rfl⟩

/-- Every other byte is refused under its own name (R92). -/
theorem decode_cmd8_unlisted {c : Byte} (h : c.toNat ∉ [0xE3, 0xE5, 0xF3, 0xF5, 0xE6, 0xE7, 0xFE]) :
    decode (.cmd8 c) = .error (.unlistedCommand c) := by
  change decodeCmd8 c = _
  unfold decodeCmd8
  split_ifs
  case neg => rfl
  all_goals subst c; exact absurd (by decide) h

/-- A pair that is neither of the `ADDR16` table's two is refused under its own name (R83). -/
theorem decode_addr16_unlisted {a1 a0 : Byte} (h1 : (a1, a0) ≠ (0xFA, 0x0F)) (h2 : (a1, a0) ≠ (0xFC, 0xC9)) :
    decode (.addr16 a1 a0) = .error (.unlistedAddress a1 a0) :=
  (if_neg h1).trans (if_neg h2)

/-- Settles O12: format by format, the rows of the table and the words outside it. -/
theorem onlyTableRowsDecode : Obligations.OnlyTableRowsDecode := by
  refine ⟨fun _ p h => decode_hostop_reserved p h, fun op p h => ?_, fun _ h => decode_cmd8_listed h,
    fun _ h => decode_cmd8_unlisted h, decodeOfEncode .snAddr1, decodeOfEncode .snAddr2,
    fun _ _ h1 h2 => decode_addr16_unlisted h1 h2⟩
  obtain ⟨o, -, rfl⟩ := exists_code_of_not_reserved op h
  exact decode_hostop_code o p

/-- Settles O13: the idle block takes the `Call`, and its word does not decode. -/
theorem reservedSelectCodesAreRefused : Obligations.ReservedSelectCodesAreRefused := by
  intro s c rest hi hh he hop
  have hdec : decode c.word = .error (.reservedHostOp c.op) := decode_hostop_reserved c.ports hop
  rw [step_call hi hh he, stepCall, hdec]

/-- Settles O14: every mask is the whole word, so two rows would have to have one pattern. -/
theorem tableRowsDoNotOverlap : Obligations.TableRowsDoNotOverlap := ⟨by decide, by decide, by decide⟩

/-! ## The delay sets (R84, R123) -/

/-- The mask 0xEF of R84 leaves bit 4 out of a byte, and nothing else. -/
theorem and_mask_or_bit4 (c : Byte) : c &&& 0xEF ||| c &&& 0x10 = c := by
  rw [← BitVec.and_or_distrib_left]
  exact BitVec.and_allOnes

/-- So of two bytes that differ in bit 4 alone it admits both, and no other byte. -/
theorem and_mask_eq_iff {b : Byte} (hb : b &&& 0xEF = b) (c : Byte) : c &&& 0xEF = b ↔ c = b ∨ c = b ||| 0x10 := by
  constructor
  · intro h
    have hc := and_mask_or_bit4 c
    have hbit := BitVec.and_twoPow c 4
    rw [h] at hc
    split at hbit
    · exact .inr (hc.symm.trans (congrArg (b ||| ·) hbit))
    · exact .inl (hc.symm.trans ((congrArg (b ||| ·) hbit).trans BitVec.or_zero))
  · rintro (rfl | rfl)
    · exact hb
    · rw [BitVec.and_comm, BitVec.and_or_distrib_left, BitVec.and_comm _ b, hb]
      exact BitVec.or_zero

theorem inTSet_iff_mask (c : Byte) : inTSet c = true ↔ c &&& 0xEF = 0xE3 := by
  rw [and_mask_eq_iff (by decide)]
  simp [inTSet, cmdTHm, cmdTNhm]

theorem inRhSet_iff_mask (c : Byte) : inRhSet c = true ↔ c &&& 0xEF = 0xE5 := by
  rw [and_mask_eq_iff (by decide)]
  simp [inRhSet, cmdRhHm, cmdRhNhm]

/-- No byte is in both delay sets, since the mask gives one value (R84, R123). -/
theorem not_inTSet_and_inRhSet (c : Byte) : ¬ (inTSet c = true ∧ inRhSet c = true) := by
  rintro ⟨ht, hrh⟩
  exact absurd (((inTSet_iff_mask c).1 ht).symm.trans ((inRhSet_iff_mask c).1 hrh)) (by decide)

/-- Settles O15: the sets by their masks, so that the order of step 1's two tests makes no difference. -/
theorem delaySetsByMask : Obligations.DelaySetsByMask := by
  refine ⟨inTSet_iff_mask, inRhSet_iff_mask, not_inTSet_and_inRhSet, fun c => ?_⟩
  have hdisjoint := not_inTSet_and_inRhSet c
  cases ht : inTSet c
  · simp [selectDelay, ht, tRhMs]
  · have hrh : inRhSet c = false := by simpa [ht] using hdisjoint
    simp [selectDelay, ht, hrh, tTMs]

end Sys2Proof.Machine

/-! Bus control (spec/40_bus_control.md): BEGIN and RESET from the `Call` to the `Ret`. -/

namespace Sys2Proof.Machine

/-! ## The phases of BEGIN and RESET as record updates -/

/-- The one visit of BEGIN (R110). -/
theorem phaseBeginSession_eq (s : State) :
    phaseBeginSession s =
      { s with phase := .idle, begun := true, trace := s.trace ++ [.beginSession, .ret .unit] } := by
  simp only [phaseBeginSession, doBeginSession_eq, endOp_eq, List.append_assoc, List.cons_append, List.nil_append]

/-- The two visits of RESET, the sending and the wait (R111). -/
theorem phaseRstWait_phaseRstSend (s : State) :
    phaseRstWait (phaseRstSend s) =
      { s with phase := .idle, trace := s.trace ++ softResetEvents ++ [.ret .unit] } := by
  simp only [phaseRstWait, phaseRstSend, State.goto, doTx_eq, doWait_eq, endOp_eq, softResetEvents, List.append_assoc]
  rfl

/-! ## Their runs -/

/-- A run from BEGIN_SESSION takes one visit and rests (R110). -/
theorem runOp_beginSession (k : Nat) {s : State} (hp : s.phase = .beginSession) :
    runOp (k + 1) s =
      { s with phase := .idle, begun := true, trace := s.trace ++ [.beginSession, .ret .unit] } := by
  rw [runOp_tick (by rw [hp]; rfl) (by rw [hp]; rfl), tick_beginSession hp, phaseBeginSession_eq, runOp_settled rfl]

/-- A run from RST_SEND takes two visits and rests (R111). -/
theorem runOp_rstSend (k : Nat) {s : State} (hp : s.phase = .rstSend) :
    runOp (k + 2) s = { s with phase := .idle, trace := s.trace ++ softResetEvents ++ [.ret .unit] } := by
  rw [runOp_tick (by rw [hp]; rfl) (by rw [hp]; rfl), tick_rstSend hp, runOp_tick rfl rfl, tick_rstWait rfl,
    phaseRstWait_phaseRstSend, runOp_settled rfl]

/-! ## The operations -/

/-- Settles O21: the accepted `Call` and the run from BEGIN_SESSION, which ends in the phase it found. -/
theorem beginOpensTheSession : Obligations.BeginOpensTheSession := by
  intro s hi
  change invoke .beginOp .beginOp (State.goto .beginSession) s = _
  rw [invoke_eq _ _ hi (by simp [HostOp.usesBus]), opFuel, runOp_beginSession 2399 rfl]
  simp [State.emit, State.goto, hi]

/-- Settles O22: the accepted `Call` and the run from RST_SEND, which ends in the phase it found. -/
theorem resetSendsSoftResetAndWaits : Obligations.ResetSendsSoftResetAndWaits := by
  intro s hi hb
  change invoke .resetOp .resetOp (State.goto .rstSend) s = _
  rw [invoke_eq _ _ hi fun _ => hb, opFuel, runOp_rstSend 2398 rfl]
  simp [State.emit, State.goto, softResetEvents, hi]

end Sys2Proof.Machine

/-! Measurement (spec/41_measurement.md): READ_HM through its three exits, the GET operations of a good frame, the bound on
READ_HM's events and waits, and what the sentinels convert to. -/

namespace Sys2Proof.Machine

/-! ## The three exits of READ_HM, from the `Call` on and for any of its callers (R46) -/

section
variable {s : State} {op : HostOp} {c d : Byte} {j : Nat}

/-- A good frame at the check after j retries (R122 to R129). -/
theorem invoke_readHm_good (i : Instr) (hi : s.pIdle) (hb : s.pBegun) (hop : op.measures = true) (hd : selectDelay c = some d)
    (hj : j ≤ 10) (hr : s.oReady 3 j) (hk : crc8 s.params.crcInit [s.readAnswer 0, s.readAnswer 1] = s.readAnswer 2) :
    invoke op i (loadCommand c) s = .next (runOp 2374 (finishReadHm (s.readAnswer 0 ++ s.readAnswer 1)
      { s.frameChecked c d j (s.readAnswer 2) false with
        phase := .crcCompare, opsel := some op
        trace := s.trace ++ [.call i] ++ (frameEvents c d.toNat s j ++ readEvents s 3) })) :=
  (invoke_eq i _ hi fun _ => hb).trans (congrArg _ (runOp_good 2374 _ op c d j rfl rfl rfl hop hd hj hr hk))

/-- A bad frame at the check after j retries: the recovery action comes before the end (R129, R202, R212). -/
theorem invoke_readHm_bad (i : Instr) (hi : s.pIdle) (hb : s.pBegun) (hop : op.measures = true) (hd : selectDelay c = some d)
    (hj : j ≤ 10) (hr : s.oReady 3 j) (hk : crc8 s.params.crcInit [s.readAnswer 0, s.readAnswer 1] ≠ s.readAnswer 2) :
    invoke op i (loadCommand c) s = .next (runOp 2373 (finishReadHm sentinelCrc
      { s.frameChecked c d j (crc8 s.params.crcInit [s.readAnswer 0, s.readAnswer 1]) true with
        phase := .rdRecover, opsel := some op
        trace := s.trace ++ [.call i] ++ (frameEvents c d.toNat s j ++ readEvents s 3 ++ softResetEvents) })) :=
  (invoke_eq i _ hi fun _ => hb).trans (congrArg _ (runOp_bad 2373 _ op c d j rfl rfl rfl hop hd hj hr hk))

/-- Eleven checks that find too few bytes (R127, R201). -/
theorem invoke_readHm_timeout (i : Instr) (hi : s.pIdle) (hb : s.pBegun) (hd : selectDelay c = some d)
    (hlow : ∀ k ≤ 10, s.availAnswer k < 3) :
    invoke op i (loadCommand c) s = .next (runOp 2395 (finishReadHm sentinelTimeout
      { s.afterAvails 11 with
        phase := .rdPoll, opsel := some op, cmd := some c, dly := some d, n := some 10
        trace := s.trace ++ [.call i] ++ frameEvents c d.toNat s 10 })) :=
  (invoke_eq i _ hi fun _ => hb).trans (congrArg _ (runOp_toTimeout 2395 _ c d rfl rfl hd hlow))

end

/-! ## READ_HM called by the host -/

/-- Settles O23: the good frame's exit, returned to the host. -/
theorem readHmReturnsAGoodFrame : Obligations.ReadHmReturnsAGoodFrame := by
  rintro s c d _ _ _ j hi hb hcd hj hr ⟨rfl, rfl, rfl⟩ hk
  change invoke .readHm (.readHm c) (loadCommand c) s = _
  rw [invoke_readHm_good _ hi hb rfl (selectDelay_of_mem hcd) hj hr hk, finish_readHm _ _ _ rfl]
  simp [State.frameChecked, hi]

/-- Settles O24: the bad frame's exit, returned to the host. -/
theorem readHmRecoversFromABadFrame : Obligations.ReadHmRecoversFromABadFrame := by
  rintro s c d _ _ _ j hi hb hcd hj hr ⟨rfl, rfl, rfl⟩ hk
  change invoke .readHm (.readHm c) (loadCommand c) s = _
  rw [invoke_readHm_bad _ hi hb rfl (selectDelay_of_mem hcd) hj hr hk, finish_readHm _ _ _ rfl]
  simp [State.frameChecked, sentinelCrc, hi]

/-- Settles O25: the timeout's exit, returned to the host. -/
theorem readHmTimesOut : Obligations.ReadHmTimesOut := by
  intro s c d hi hb hcd hlow
  change invoke .readHm (.readHm c) (loadCommand c) s = _
  rw [invoke_readHm_timeout _ hi hb (selectDelay_of_mem hcd) hlow, finish_readHm _ _ _ rfl]
  simp [State.afterAvails, sentinelTimeout, hi]

/-! ## The bound on READ_HM (R130, R240) -/

theorem countP_isBusOrWait_retryEvents (s : State) (j : Nat) : (retryEvents s j).countP Event.isBusOrWait = 2 * j := by
  induction j generalizing s with
  | zero => rfl
  | succ j ih => rw [retryEvents_succ, List.countP_append, ih]; simp [List.countP_cons, Event.isBusOrWait]; omega

theorem countP_isBusOrWait_frameEvents (c : Byte) (d : Nat) (s : State) (j : Nat) :
    (frameEvents c d s j).countP Event.isBusOrWait = 2 * j + 6 := by
  simp [frameEvents, countP_isBusOrWait_retryEvents, List.countP_cons, Event.isBusOrWait]

theorem countP_isBusOrWait_readEvents (s : State) (n : Nat) : (readEvents s n).countP Event.isBusOrWait = n := by
  simp [readEvents, List.countP_map, Function.comp_def, Event.isBusOrWait]

theorem waitSum_frameEvents (c : Byte) (d : Nat) (s : State) (j : Nat) : waitSum (frameEvents c d s j) = d + 10 * j := by
  simp [frameEvents, waitSum_retryEvents, waitSum]

theorem waitSum_reads (f : Nat → Byte) (l : List Nat) : waitSum (l.map fun i => .read (f i)) = 0 := by
  induction l with
  | nil => rfl
  | cons i l ih => exact ih

theorem waitSum_readEvents (s : State) (n : Nat) : waitSum (readEvents s n) = 0 := waitSum_reads _ _

/-- The bound of R130 on a whole operation: at most ten retries, and after the poll loop at most the three reads and the soft
reset. -/
theorem operationEvents_bounded (i : Instr) (c : Byte) (d : Nat) (s : State) {j : Nat} (hj : j ≤ 10) {rest : List Event}
    (hcount : rest.countP Event.isBusOrWait ≤ 7) (hwait : waitSum rest ≤ 15) :
    ([Event.call i] ++ frameEvents c d s j ++ rest).countP Event.isBusOrWait ≤ 33 ∧
      waitSum ([.call i] ++ frameEvents c d s j ++ rest) ≤ d + 115 := by
  have hcall : [Event.call i].countP Event.isBusOrWait = 0 ∧ waitSum [Event.call i] = 0 := ⟨rfl, rfl⟩
  rw [List.countP_append, List.countP_append, countP_isBusOrWait_frameEvents, waitSum_append, waitSum_append, waitSum_frameEvents]
  omega

/-- What READ_HM emits, through whichever exit (R122, R127, R129). -/
theorem exec_readHm_trace {s t : State} {c d : Byte}
    (hcd : (c = 0xE5 ∨ c = 0xF5) ∧ d = 30 ∨ (c = 0xE3 ∨ c = 0xF3) ∧ d = 85) (h : exec (.readHm c) s = .next t) :
    ∃ j ≤ 10, ∃ v, ∃ rest ∈ [readEvents s 3 ++ [.ret v], readEvents s 3 ++ softResetEvents ++ [.ret v], [.ret v]],
      t.trace = s.trace ++ ([.call (.readHm c)] ++ frameEvents c d.toNat s j ++ rest) := by
  obtain ⟨hi, hb, -⟩ := invoke_next (load := loadCommand c) h
  rcases poll_cases s with ⟨j, hj, hr⟩ | hlow
  · by_cases hk : crc8 s.params.crcInit [s.readAnswer 0, s.readAnswer 1] = s.readAnswer 2
    · have he := readHmReturnsAGoodFrame s c d _ _ _ j hi (hb rfl) hcd hj hr ⟨rfl, rfl, rfl⟩ hk
      obtain rfl := Host.Outcome.next.inj (h.symm.trans he)
      exact ⟨j, hj, .raw (s.readAnswer 0 ++ s.readAnswer 1), _, .head _, by simp only [List.append_assoc]⟩
    · have he := readHmRecoversFromABadFrame s c d _ _ _ j hi (hb rfl) hcd hj hr ⟨rfl, rfl, rfl⟩ hk
      obtain rfl := Host.Outcome.next.inj (h.symm.trans he)
      exact ⟨j, hj, .raw 1, _, .tail _ (.head _), by simp only [List.append_assoc]⟩
  · have he := readHmTimesOut s c d hi (hb rfl) hcd hlow
    obtain rfl := Host.Outcome.next.inj (h.symm.trans he)
    exact ⟨10, le_rfl, .raw 0, _, .tail _ (.tail _ (.head _)), by simp only [List.append_assoc]⟩

/-- The bound with the delay of the command's set. -/
theorem readHm_events_bounded {s t : State} {c d : Byte}
    (hcd : (c = 0xE5 ∨ c = 0xF5) ∧ d = 30 ∨ (c = 0xE3 ∨ c = 0xF3) ∧ d = 85) (h : exec (.readHm c) s = .next t) :
    ∃ es, t.trace = s.trace ++ es ∧ es.countP Event.isBusOrWait ≤ 33 ∧ waitSum es ≤ d.toNat + 115 := by
  obtain ⟨j, hj, v, rest, hrest, htrace⟩ := exec_readHm_trace hcd h
  have hrest : rest.countP Event.isBusOrWait ≤ 7 ∧ waitSum rest ≤ 15 := by
    simp only [List.mem_cons, List.not_mem_nil, or_false] at hrest
    rcases hrest with rfl | rfl | rfl <;>
      simp [countP_isBusOrWait_readEvents, waitSum_readEvents, softResetEvents, List.countP_cons, Event.isBusOrWait, waitSum]
  exact ⟨_, htrace, operationEvents_bounded _ _ _ _ hj hrest.1 hrest.2⟩

/-- Settles O30: the common bound on the events, and on the waits 115 ms and the delay of the command's set. -/
theorem readHmIsBounded : Obligations.ReadHmIsBounded := by
  intro s t c h hc
  have hdisjoint : ∀ x ∈ ([0xE3, 0xF3] : List Byte), x ∉ ([0xE5, 0xF5] : List Byte) := by decide
  have hsets : c ∈ ([0xE3, 0xF3] : List Byte) ∨ c ∈ ([0xE5, 0xF5] : List Byte) := List.mem_append.1 hc
  rcases hsets with hT | hRh
  · obtain ⟨es, htrace, hcount, hwait⟩ := readHm_events_bounded (d := 85) (.inr ⟨by simpa using hT, rfl⟩) h
    exact ⟨es, htrace, List.countP_eq_length_filter ▸ hcount, fun _ => hwait, fun hRh => absurd hRh (hdisjoint c hT)⟩
  · obtain ⟨es, htrace, hcount, hwait⟩ := readHm_events_bounded (d := 30) (.inl ⟨by simpa using hRh, rfl⟩) h
    exact ⟨es, htrace, List.countP_eq_length_filter ▸ hcount, fun hT => absurd hRh (hdisjoint c hT), fun _ => hwait⟩

/-! ## The conversions (R150 to R152) -/

/-- The exact numerator fits 32 signed bits (R154). -/
theorem toInt_tNum (raw : RawCode) : (tNum raw).toInt = tNumerator raw := by
  have hlt := (maskRaw raw).isLt
  rw [tNum, BitVec.toInt_ofInt]
  unfold tNumerator
  apply Int.bmod_eq_of_le <;> omega

theorem toInt_rhNum (raw : RawCode) : (rhNum raw).toInt = rhNumerator raw := by
  have hlt := (maskRaw raw).isLt
  rw [rhNum, BitVec.toInt_ofInt]
  unfold rhNumerator
  apply Int.bmod_eq_of_le <;> omega

/-- The raw values that differ from 0 in the status bits only (R152). -/
theorem maskRaw_eq_zero {raw : RawCode} (h : raw.toNat ≤ 3) : maskRaw raw = 0 := by
  have hsmall : ∀ k ≤ 3, maskRaw (BitVec.ofNat 16 k) = 0 := by decide
  simpa using hsmall raw.toNat h

/-- Settles O40: those raw values are 0 once masked. -/
theorem sentinelsCollapse : Obligations.SentinelsCollapse := by
  intro raw h
  rw [toInt_tNum, toInt_rhNum, tNumerator, rhNumerator, maskRaw_eq_zero h]
  exact ⟨rfl, rfl⟩

/-! ## The GET operations of a good frame (R120, R121) -/

/-- Settles O27: the good frame's exit, converted and returned. -/
theorem getTemperatureOfAGoodFrame : Obligations.GetTemperatureOfAGoodFrame := by
  rintro s _ _ _ j hi hb hj hr ⟨rfl, rfl, rfl⟩ hk
  refine ⟨tNum (s.readAnswer 0 ++ s.readAnswer 1), toInt_tNum _, ?_⟩
  change invoke .getTemperature .getTemperature (loadCommand cmdTHm) s = _
  rw [invoke_readHm_good (d := tTMs) _ hi hb rfl rfl hj hr hk, finish_getTemperature 2373 _ _ rfl]
  simp [State.frameChecked, cmdTHm, tTMs, hi]

/-- Settles O28: the good frame's exit, converted and returned. -/
theorem getHumidityOfAGoodFrame : Obligations.GetHumidityOfAGoodFrame := by
  rintro s _ _ _ j hi hb hj hr ⟨rfl, rfl, rfl⟩ hk
  refine ⟨rhNum (s.readAnswer 0 ++ s.readAnswer 1), toInt_rhNum _, ?_⟩
  change invoke .getHumidity .getHumidity (loadCommand cmdRhHm) s = _
  rw [invoke_readHm_good (d := tRhMs) _ hi hb rfl rfl hj hr hk, finish_getHumidity 2373 _ _ rfl]
  simp [State.frameChecked, cmdRhHm, tRhMs, hi]

end Sys2Proof.Machine

/-! Serial number (spec/42_serial_number.md): GET_SERIAL_NUMBER's unbounded waits, how a later step goes on from each, and the
location above 7. -/

namespace Sys2Proof.Machine

/-! ## What a valid SN_MAP makes of a response (R143) -/

section
variable {m : SnMap} {f : Nat → Byte} {sn : Vector (Option Byte) 8}

/-- A destination that a response names at no position is not in its list. -/
theorem not_mem_toList_of_forall_ne {n : Nat} {v : Vector (Option (Fin 8)) n} {i : Fin 8} (h : ∀ q : Fin n, v[q] ≠ some i) :
    some i ∉ v.toList := fun hm => by
  obtain ⟨q, hq, he⟩ := Vector.mem_iff_getElem.1 (Vector.mem_toList_iff.1 hm)
  exact h ⟨q, hq⟩ he

/-- Both responses placed: the bytes of the first. -/
theorem placeSn_snDests_first (h : m.valid = true) {p i : Fin 8} (hp : m.store1[p] = some i) :
    (placeSn (snDests m) f sn)[i] = some (f p) :=
  placeSn_valid h f sn ((snMap_dests_first m p).trans (congrArg some hp))

/-- Both responses placed: the bytes of the second. -/
theorem placeSn_snDests_second (h : m.valid = true) {q : Fin 6} {i : Fin 8} (hq : m.store2[q] = some i) :
    (placeSn (snDests m) f sn)[i] = some (f (8 + q)) :=
  placeSn_valid h f sn ((snMap_dests_second m q).trans (congrArg some hq))

/-- The second response completes the buffer, if the first response's indices have been written. -/
theorem placeSn_second_full (h : m.valid = true) (hw : ∀ p i : Fin 8, m.store1[p] = some i → sn[i].isSome = true) (i : Fin 8) :
    (placeSn m.store2.toList f sn)[i].isSome = true := by
  rcases List.mem_append.1 (snMap_covers h i) with h1 | h2
  · obtain ⟨p, hp, he⟩ := Vector.mem_iff_getElem.1 (Vector.mem_toList_iff.1 h1)
    exact placeSn_keeps (hw ⟨p, hp⟩ i he)
  · exact placeSn_written h2

end

/-! ## The unbounded wait (R142) -/

/-- The phase is a wait for `n` bytes. -/
def Phase.awaits (p : Phase) (n : Nat) : Prop := p = .snReq1 ∧ n = 8 ∨ p = .snReq2 ∧ n = 6

theorem Phase.awaits.waitsForBytes {p : Phase} {n : Nat} (h : p.awaits n) : p.waitsForBytes = true := by
  rcases h with ⟨rfl, -⟩ | ⟨rfl, -⟩ <;> rfl

/-- A count too low: the visit is the `Avail`. -/
theorem tick_awaits_low {s : State} {n : Nat} (h : s.phase.awaits n) (hlow : s.availAnswer 0 < n) : tick s = doAvail s := by
  rcases h with ⟨hp, rfl⟩ | ⟨hp, rfl⟩
  · exact (tick_snReq1 hp).trans (awaitBytes_low hlow)
  · exact (tick_snReq2 hp).trans (awaitBytes_low hlow)

/-- The run rests after it. -/
theorem runOp_awaits_low (k : Nat) {s : State} {n : Nat} (h : s.phase.awaits n) (hlow : s.availAnswer 0 < n) :
    runOp (k + 1) s = doAvail s := by
  have ht := tick_awaits_low h hlow
  rw [runOp_waits h.waitsForBytes (by rw [ht]; rfl), ht]

/-- A step from a wait that no input pre-empts is a run of the sequencer (log 8). -/
theorem step_awaits {s : State} {n : Nat} (h : s.phase.awaits n) (hq : s.quiet = true) : step s = .next (runOp opFuel s) := by
  have hne : ∀ p : Phase, p.waitsForBytes = false → s.phase ≠ p := fun p hp he => by
    simpa [he, hp] using h.waitsForBytes
  have hword : s.commandWord = none := by
    rcases h with ⟨hp, -⟩ | ⟨hp, -⟩ <;> simp only [State.commandWord, hp]
  exact (step_busy (hne _ rfl) hq).trans (stepBusy_no_word (hne _ rfl) hword)

/-- A run whose first step answers a next state goes on from there. -/
theorem run_succ_of_step {M : Host.Core} {s t : M.State} (h : M.step s = .next t) (k : Nat) : M.run (k + 1) s = M.run k t := by
  simp only [Host.Core.run, h]

/-- Settles O34: each step is one `Avail`, which leaves phase and HOST channel as they were. -/
theorem serialNumberWaitsWithoutBound : Obligations.SerialNumberWaitsWithoutBound := by
  intro s n k hp hq hlow
  induction k generalizing s with
  | zero => simp [Host.Core.run]
  | succ k ih =>
    have hstep : step s = .next (doAvail s) :=
      (step_awaits hp hq).trans (congrArg _ (runOp_awaits_low 2399 hp (hlow 0 k.succ_pos)))
    have hrest : ∀ i < k, (doAvail s).availAnswer i < n := fun i hi => by
      rw [availAnswer_doAvail]
      exact hlow (1 + i) (by omega)
    rw [run_succ_of_step (M := Sys2Proof.core) hstep, ih (doAvail s) hp hq hrest]
    simp only [availAnswer_doAvail]
    simp [doAvail_eq, availDrawn_add, List.range_succ_eq_map, Nat.add_comm 1, Function.comp_def]

/-! ## The two responses on the sequencer -/

/-- At SN_ADDR2, the first response read and stored, the events `es` having been emitted on the way (R143). -/
def State.firstStored (s : State) (es : List Event) : State :=
  { (s.afterAvails 1).afterReads 8 with
    phase := .snAddr2, sn := placeSn s.params.snMap.store1.toList s.readAnswer s.sn, trace := s.trace ++ es }

/-- In SN_REQ2, the second request made and its first count too low (R141, R142). -/
def State.secondAwaited (s : State) (es : List Event) : State :=
  { (s.afterAvails 2).afterReads 8 with
    phase := .snReq2, sn := placeSn s.params.snMap.store1.toList s.readAnswer s.sn
    trace := s.trace ++ es ++ secondRequestEvents (s.availAnswer 1) }

/-- At SN_SELECT, both responses read and stored (R143). -/
def State.bothStored (s : State) (es : List Event) : State :=
  { (s.afterAvails 2).afterReads 14 with
    phase := .snSelect, sn := placeSn (snDests s.params.snMap) s.readAnswer s.sn
    trace := s.trace ++ es ++ secondRequestEvents (s.availAnswer 1) ++ (List.range 6).map fun i => .read (s.readAnswer (8 + i)) }

/-- At SN_SELECT from the second wait, the second response read and stored over what the buffer held (R143). -/
def State.secondStored (s : State) : State :=
  { (s.afterAvails 1).afterReads 6 with
    phase := .snSelect, sn := placeSn s.params.snMap.store2.toList s.readAnswer s.sn
    trace := s.trace ++ ([.avail (s.availAnswer 0)] ++ readEvents s 6) }

theorem availAnswer_firstStored (s : State) (es : List Event) (j : Nat) :
    (s.firstStored es).availAnswer j = s.availAnswer (1 + j) := availAnswer_afterAvails s 1 j

theorem readAnswer_firstStored (s : State) (es : List Event) (j : Nat) :
    (s.firstStored es).readAnswer j = s.readAnswer (8 + j) := readAnswer_afterReads s 8 j

/-- The second count too low. -/
theorem runOp_firstStored_low (k : Nat) {s : State} (es : List Event) (h6 : s.availAnswer 1 < 6) :
    runOp (k + 2) (s.firstStored es) = s.secondAwaited es := by
  rw [runOp_secondWait k (s.firstStored es) rfl (by rwa [availAnswer_firstStored]), availAnswer_firstStored]
  simp [State.firstStored, State.secondAwaited, State.afterAvails, State.afterReads, availDrawn_add]

/-- The second count enough. -/
theorem runOp_firstStored_ready (k : Nat) {s : State} (es : List Event) (h6 : 6 ≤ s.availAnswer 1) :
    runOp (k + 3) (s.firstStored es) = runOp k (s.bothStored es) := by
  have hplace : placeSn (s.firstStored es).params.snMap.store2.toList (s.firstStored es).readAnswer (s.firstStored es).sn =
      placeSn (snDests s.params.snMap) s.readAnswer s.sn := by
    rw [snDests, placeSn_append, Vector.length_toList]
    exact placeSn_congr _ (readAnswer_firstStored s es) _
  rw [runOp_serial2 k (s.firstStored es) rfl (by rwa [availAnswer_firstStored]), availAnswer_firstStored, hplace]
  simp only [readEvents, readAnswer_firstStored]
  simp [State.firstStored, State.bothStored, State.afterAvails, State.afterReads, availDrawn_add]

/-! ## From the `Call` on -/

/-- The accepted `Call` at its first phase: LOC written, the buffer cleared (R46 a, R86, R36). -/
def State.serialCalled (l : Byte) (s : State) : State :=
  loadLocation l { s.emit (.call (.getSerialNumber l)) with opsel := some .getSerialNumber }

theorem serialCalled_trace (l : Byte) (s : State) :
    (s.serialCalled l).trace = s.trace ++ [.call (.getSerialNumber l)] := rfl

/-- The first address sequence, its request and the first count after it (R141, R142). -/
def firstRequestEvents (k : Nat) : List Event :=
  [.beginTx 0x40, .write 0xFA, .write 0x0F, .endTx, .request 0x40 8, .avail k]

section
variable {s : State} (l : Byte) (hi : s.pIdle) (hb : s.pBegun)
include hi hb

/-- GET_SERIAL_NUMBER is accepted. -/
theorem exec_getSerialNumber : exec (.getSerialNumber l) s = .next (runOp opFuel (s.serialCalled l)) :=
  invoke_eq _ _ hi fun _ => hb

/-- The first count too low: the run rests in SN_REQ1. -/
theorem exec_getSerialNumber_low (h8 : s.availAnswer 0 < 8) :
    exec (.getSerialNumber l) s = .next { (s.serialCalled l).afterAvails 1 with
      phase := .snReq1, trace := (s.serialCalled l).trace ++ firstRequestEvents (s.availAnswer 0) } := by
  have hp : (phaseSnAddr1 (s.serialCalled l)).phase.awaits 8 := .inl ⟨rfl, rfl⟩
  rw [exec_getSerialNumber l hi hb, opFuel, runOp_tick (k := 2399) rfl rfl, tick_snAddr1 rfl,
    runOp_awaits_low 2398 hp h8, phaseSnAddr1_eq, doAvail_eq, List.append_assoc]
  rfl

/-- The first count enough: the run reaches SN_ADDR2. -/
theorem exec_getSerialNumber_ready (h8 : 8 ≤ s.availAnswer 0) :
    exec (.getSerialNumber l) s = .next (runOp 2397
      ((s.serialCalled l).firstStored (firstRequestEvents (s.availAnswer 0) ++ readEvents s 8))) :=
  (exec_getSerialNumber l hi hb).trans (congrArg _ (runOp_serial1 2397 (s.serialCalled l) rfl h8))

end

/-- Settles O33: both responses are read and stored before LOC is looked at. -/
theorem getSerialNumberOutOfRangeFaults : Obligations.GetSerialNumberOutOfRangeFaults := by
  intro s l hi hb hl h8 h6
  refine ⟨placeSn (snDests s.params.snMap) s.readAnswer (Vector.replicate 8 none), ?_⟩
  rw [exec_getSerialNumber_ready l hi hb h8, runOp_firstStored_ready (s := s.serialCalled l) 2394 _ h6,
    runOp_snSelectFault (s := (s.serialCalled l).bothStored _) 2393 rfl rfl hl]
  simp only [State.bothStored, serialEvents, ← List.append_assoc]
  rfl

/-- Settles O35: the run rests at whichever count is too low. -/
theorem getSerialNumberWaitsForBytes : Obligations.GetSerialNumberWaitsForBytes := by
  intro s l hi hb
  refine ⟨fun h8 => ?_, fun h8 h6 hv => ?_⟩
  · rw [exec_getSerialNumber_low l hi hb h8, serialCalled_trace, List.append_assoc]
    rfl
  · refine ⟨placeSn s.params.snMap.store1.toList s.readAnswer (Vector.replicate 8 none),
      fun _ _ => placeSn_first hv _ _, fun i hn => ?_, ?_⟩
    · rw [placeSn_other _ _ _ _ (not_mem_toList_of_forall_ne hn)]
      simp
    · rw [exec_getSerialNumber_ready l hi hb h8, runOp_firstStored_low (s := s.serialCalled l) 2395 _ h6]
      simp only [State.secondAwaited, serialCalled_trace, List.append_assoc]
      rfl

/-! ## From a wait on -/

/-- Settles O58: the first response is stored at SN_ADDR2, whence the second count decides. -/
theorem serialNumberResumesFromFirstWait : Obligations.SerialNumberResumesFromFirstWait := by
  intro s l hp hq hl hv h8
  have hstep : step s = .next (runOp 2398 (s.firstStored ([.avail (s.availAnswer 0)] ++ readEvents s 8))) :=
    (step_awaits (.inl ⟨hp, rfl⟩) hq).trans (congrArg _ (runOp_firstReads 2398 s hp h8))
  constructor
  · intro h6
    refine ⟨_, fun _ _ => placeSn_first hv _ _, fun i hn => placeSn_other _ _ _ _ (not_mem_toList_of_forall_ne hn), ?_⟩
    rw [hstep, runOp_firstStored_low 2396 _ h6, State.secondAwaited, ← List.append_assoc]
    rfl
  · intro h6
    refine ⟨placeSn (snDests s.params.snMap) s.readAnswer s.sn, fun _ _ => placeSn_snDests_first hv,
      fun _ _ => placeSn_snDests_second hv, fun h => ?_, fun h => ?_⟩
    · obtain ⟨p, -, hb⟩ := placeSn_full hv s.readAnswer s.sn ⟨l.toNat, h⟩
      refine ⟨_, hb, ?_⟩
      rw [hstep, runOp_firstStored_ready 2395 _ h6, runOp_snSelect (s := s.bothStored _) 2394 rfl hl h hb]
      simp only [State.bothStored, ← List.append_assoc]
      rfl
    · rw [hstep, runOp_firstStored_ready 2395 _ h6, runOp_snSelectFault (s := s.bothStored _) 2394 rfl hl h]
      simp only [State.bothStored, ← List.append_assoc]
      rfl

/-- Settles O59: the second response completes the buffer, and LOC selects the byte or faults. -/
theorem serialNumberResumesFromSecondWait : Obligations.SerialNumberResumesFromSecondWait := by
  intro s l hp hq hl hv hw h6
  have hstep : step s = .next (runOp 2398 s.secondStored) :=
    (step_awaits (.inr ⟨hp, rfl⟩) hq).trans (congrArg _ (runOp_secondReads 2398 s hp h6))
  refine ⟨_, fun _ _ => placeSn_second hv _ _, fun i hn => placeSn_other _ _ _ _ (not_mem_toList_of_forall_ne hn),
    fun h => ?_, fun h => ?_⟩
  · obtain ⟨b, hb⟩ := Option.isSome_iff_exists.1 (placeSn_second_full hv hw ⟨l.toNat, h⟩)
    refine ⟨b, hb, ?_⟩
    rw [hstep, runOp_snSelect (s := s.secondStored) 2397 rfl hl h hb]
    simp only [State.secondStored, ← List.append_assoc]
    rfl
  · rw [hstep, runOp_snSelectFault (s := s.secondStored) 2397 rfl hl h, State.secondStored, ← List.append_assoc]
    rfl

end Sys2Proof.Machine

/-! Conversion (spec/43_conversion.md): CALC_RH and CALC_T called directly, the ranges and the steps of the two results, and the
physical values they stand for. -/

namespace Sys2Proof.Machine

/-! ## The results as functions of the masked operand (R152 to R154) -/

/-- The largest operand the mask leaves is the mask itself. -/
theorem maskRaw_toNat_le (raw : RawCode) : (maskRaw raw).toNat ≤ 65532 := by
  rw [maskRaw, BitVec.toNat_and]
  exact Nat.and_le_right

/-- Settles O39: both results are linear in the masked operand, which is at most 65532. -/
theorem conversionRangesAndSteps : Obligations.ConversionRangesAndSteps := by
  simp only [Obligations.ConversionRangesAndSteps, toInt_rhNum, toInt_tNum, rhNumerator, tNumerator]
  refine ⟨fun raw => ?_, by decide, fun a b hstep => ?_, fun a b hlt => ?_⟩
  · have hle := maskRaw_toNat_le raw
    omega
  · omega
  · omega

/-- Settles O41: the numerators over their denominators, term by term. -/
theorem resultsAreTheSourceFormulas : Obligations.ResultsAreTheSourceFormulas := by
  intro raw
  rw [humidityOf, temperatureOf, toInt_rhNum, toInt_tNum, rhNumerator, tNumerator, maskRaw, statusMask]
  push_cast
  constructor <;> ring

/-! ## The operations called directly (R150, R151) -/

/-- A directly called conversion is one visit of CONVERT, after which the block rests. -/
theorem invoke_loadRaw {s t : State} {op : HostOp} (i : Instr) (raw : RawCode) (hi : s.pIdle) (hop : op.usesBus = false)
    (ht : phaseConvert (loadRaw raw { s.emit (.call i) with opsel := some op }) = t) (hrest : t.phase.settled = true) :
    invoke op i (loadRaw raw) s = .next t := by
  rw [invoke_eq i _ hi (by simp [hop]), opFuel, runOp_tick rfl rfl, tick_convert rfl, ht, runOp_settled hrest]

theorem phaseConvert_calcRh {s : State} {raw : RawCode} (ho : s.opsel = some .calcRh) (hr : s.rawPort = some raw) :
    phaseConvert s =
      { s with rhnum := some (rhNum raw), phase := .idle, trace := s.trace ++ [.ret (.rhnum (rhNum raw))] } := by
  simp only [phaseConvert, ho, hr, readReg_some, finishRh, endOp_eq]

theorem phaseConvert_calcT {s : State} {raw : RawCode} (ho : s.opsel = some .calcT) (hr : s.rawPort = some raw) :
    phaseConvert s =
      { s with tnum := some (tNum raw), phase := .idle, trace := s.trace ++ [.ret (.tnum (tNum raw))] } := by
  simp only [phaseConvert, ho, hr, readReg_some, finishT, endOp_eq]

/-- Settles O37: the one visit of CONVERT, which ends in the phase the `Call` found. -/
theorem calcRhIsExact : Obligations.CalcRhIsExact := by
  refine ⟨fun _ => rfl, fun s raw hi => ⟨rhNum raw, toInt_rhNum raw, ?_⟩⟩
  change invoke .calcRh (.calcRh raw) (loadRaw raw) s = _
  rw [invoke_loadRaw _ raw hi rfl (phaseConvert_calcRh rfl rfl) rfl]
  simp [loadRaw, State.emit, hi]

/-- Settles O38: the one visit of CONVERT, which ends in the phase the `Call` found. -/
theorem calcTIsExact : Obligations.CalcTIsExact := by
  refine ⟨fun _ => rfl, fun s raw hi => ⟨tNum raw, toInt_tNum raw, ?_⟩⟩
  change invoke .calcT (.calcT raw) (loadRaw raw) s = _
  rw [invoke_loadRaw _ raw hi rfl (phaseConvert_calcT rfl rfl) rfl]
  simp [loadRaw, State.emit, hi]

end Sys2Proof.Machine

/-! CRC-8 (spec/44_crc8.md): the bit step, the table form, the polynomial remainder, which corrupted frames the check finds,
CRC_CHECK from the `Call` to the `Ret`, and the serial number's bytes that no check looks at. -/

namespace Sys2Proof.Machine

/-! ## The step and the table (R162 to R164, R168) -/

/-- The step shifts, and feeds bit 7 back through the polynomial (R163). -/
theorem crcBit_eq_shift_xor (a : Byte) : crcBit a = a <<< 1 ^^^ (if a.getLsbD 7 then poly8 else 0) := by
  rw [crcBit_eq_crcBit8, crcBit8]
  split
  · rfl
  · exact BitVec.xor_zero.symm

/-- Bit by bit: the bit below, and the feedback where the polynomial has a term (R164). -/
theorem getLsbD_crcBit (a : Byte) (i : Nat) :
    (crcBit a).getLsbD i = ((a <<< 1).getLsbD i ^^ (a.getLsbD 7 && poly8.getLsbD i)) := by
  rw [crcBit_eq_shift_xor, BitVec.getLsbD_xor]
  cases a.getLsbD 7 <;> simp

/-- Settles O42: the bits of the shifted accumulator and of the polynomial. -/
theorem crcBitEquations : Obligations.CrcBitEquations := by
  intro a
  refine ⟨crcBit_eq_crcBit8 a, ?_⟩
  simp only [getLsbD_crcBit]
  simp [poly8]

/-- The table's entries are distinct (R168). -/
theorem crcByte_injective (acc : Byte) : Function.Injective (crcByte acc) := fun _ _ h =>
  BitVec.xor_right_inj acc |>.1 (crcBits_injective 8 h)

/-- The table form: a byte step looks the XOR of its arguments up (R168). -/
theorem crcByte_eq_crcByte_zero (acc b : Byte) : crcByte acc b = crcByte 0 (acc ^^^ b) :=
  congrArg (crcBits 8) BitVec.zero_xor.symm

theorem crcByte_zero_zero : crcByte 0 0 = 0 := crcBits_zero 8

/-- The table's one zero entry is its first (R168). -/
theorem crcByte_zero_eq_zero {b : Byte} : crcByte 0 b = 0 ↔ b = 0 :=
  (crcByte_injective 0).eq_iff' crcByte_zero_zero

/-- Settles O46: distinct entries at as many places as there are values are all the values. -/
theorem crcTableForm : Obligations.CrcTableForm :=
  ⟨crcByte_eq_crcByte_zero, Finite.injective_iff_bijective.1 (crcByte_injective 0), crcByte_zero_zero⟩

/-! ## Linearity (R169) -/

/-- Settles O47: from the linearity of the step, and the zero accumulator that zero bytes leave. -/
theorem crcIsLinear : Obligations.CrcIsLinear := by
  refine ⟨crc8_xor 0 0, fun n => ?_⟩
  induction n with
  | zero => rfl
  | succ n ih => rw [List.replicate_succ, crc8_cons, crcByte_zero_zero, ih]

/-! ## Corrupted sequences and frames (R170, R171) -/

theorem mismatchFlag_eq_decide (acc exp : Byte) : mismatchFlag acc exp = decide (acc ≠ exp) := by
  simp [mismatchFlag, bne, beq_eq_decide]

theorem mismatchFlag_eq_true {acc exp : Byte} : mismatchFlag acc exp = true ↔ acc ≠ exp := bne_iff_ne

theorem mismatchFlag_eq_false {acc exp : Byte} : mismatchFlag acc exp = false ↔ acc = exp := bne_eq_false_iff_eq

/-- A nonzero error pattern changes a byte. -/
theorem xor_ne_self {b e : Byte} (he : e ≠ 0) : b ^^^ e ≠ b := fun h =>
  he (BitVec.xor_right_inj b |>.1 (h.trans BitVec.xor_zero.symm))

/-- Sequences that differ in one byte have different CRCs (R170). -/
theorem crc8_changed_byte (init : Byte) (before after : List Byte) {b c : Byte} (h : b ≠ c) :
    crc8 init (before ++ b :: after) ≠ crc8 init (before ++ c :: after) := by
  rw [crc8_append, crc8_append, crc8_cons, crc8_cons]
  exact (crc8_injective after).ne ((crcByte_injective _).ne h)

/-- Settles O49: the corrupted byte reaches the CRC through injective steps; a corrupted checksum is no longer the CRC. -/
theorem oneCorruptedByteIsDetected : Obligations.OneCorruptedByteIsDetected := by
  rintro init before after b e expected he rfl
  rw [mismatchFlag_eq_true, mismatchFlag_eq_true]
  exact ⟨crc8_changed_byte init before after (xor_ne_self he), (xor_ne_self he).symm⟩

/-- Settles O51: the last byte step ends in zero exactly when the checksum cancels the accumulator. -/
theorem frameMatchesWhenCrcOfAllThreeIsZero : Obligations.FrameMatchesWhenCrcOfAllThreeIsZero := by
  intro init d0 d1 ck
  calc mismatchFlag (crc8 init [d0, d1]) ck = false
    _ ↔ crc8 init [d0, d1] ^^^ ck = 0 := mismatchFlag_eq_false.trans BitVec.xor_eq_zero_iff.symm
    _ ↔ crcByte (crc8 init [d0, d1]) ck = 0 := by rw [crcByte_eq_crcByte_zero, crcByte_zero_eq_zero]
    _ ↔ crc8 init [d0, d1, ck] = 0 := Iff.rfl

/-- Whether a corrupted frame still matches depends on the error pattern alone: it does when the pattern is itself a frame that
matches from zero (R169, R170). -/
theorem mismatchFlag_corrupted_frame {init d0 d1 ck : Byte} (h : crc8 init [d0, d1] = ck) (e0 e1 e2 : Byte) :
    mismatchFlag (crc8 init [d0 ^^^ e0, d1 ^^^ e1]) (ck ^^^ e2) = false ↔ crc8 0 [e0, e1] = e2 := by
  have hx : crc8 init [d0 ^^^ e0, d1 ^^^ e1] = ck ^^^ crc8 0 [e0, e1] := by
    rw [← h, ← crc8_xor init 0 [d0, d1] [e0, e1] rfl, show init ^^^ 0 = init from BitVec.xor_zero]
    rfl
  rw [hx, mismatchFlag_eq_false, BitVec.xor_right_inj]

theorem countP_xor_mod_two (f g : Nat → Bool) (l : List Nat) :
    l.countP (fun i => f i ^^ g i) % 2 = (l.countP f + l.countP g) % 2 := by
  induction l with
  | nil => rfl
  | cons i l ih =>
    rw [List.countP_cons, List.countP_cons, List.countP_cons]
    cases f i <;> cases g i <;> simp <;> omega

/-- The parity of an XOR is the sum of the parities. -/
theorem bitsSet_xor_mod_two (a b : Byte) : bitsSet (a ^^^ b) % 2 = (bitsSet a + bitsSet b) % 2 := by
  rw [bitsSet, funext fun i => BitVec.getLsbD_xor (x := a) (y := b) (i := i)]
  exact countP_xor_mod_two _ _ _

/-- The step keeps the parity, since the generator has an even number of terms (R5, R162). -/
theorem bitsSet_crcBit_mod_two (a : Byte) : bitsSet (crcBit a) % 2 = bitsSet a % 2 := by
  revert a; decide

theorem bitsSet_crcBits_mod_two (n : Nat) (a : Byte) : bitsSet (crcBits n a) % 2 = bitsSet a % 2 := by
  induction n generalizing a with
  | zero => rfl
  | succ n ih => rw [crcBits_succ, ih, bitsSet_crcBit_mod_two]

/-- So the parity of a byte step is that of its two arguments. -/
theorem bitsSet_crcByte_mod_two (acc b : Byte) : bitsSet (crcByte acc b) % 2 = (bitsSet acc + bitsSet b) % 2 := by
  rw [crcByte_eq, bitsSet_crcBits_mod_two, bitsSet_xor_mod_two]

theorem bitsSet_eq_zero {b : Byte} : bitsSet b = 0 ↔ b = 0 := by
  revert b; decide

/-- Neither one byte step nor two make a single bit of a single bit: modulo the generator no power of x from x^8 to x^23 is one
below x^8 (R170). -/
theorem bitsSet_crcByte_ne_one :
    ∀ b : Byte, bitsSet b = 1 → bitsSet (crcByte 0 b) ≠ 1 ∧ bitsSet (crcByte 0 (crcByte 0 b)) ≠ 1 := by
  decide

/-- A nonzero byte and its table entry have more than two bits between them (R170). -/
theorem two_lt_bitsSet_crcByte {b : Byte} (hb : b ≠ 0) : 2 < bitsSet b + bitsSet (crcByte 0 b) := by
  have h1 : bitsSet b ≠ 0 := mt bitsSet_eq_zero.1 hb
  have h2 : bitsSet (crcByte 0 b) ≠ 0 := mt (bitsSet_eq_zero.trans crcByte_zero_eq_zero).1 hb
  have h3 := fun h => (bitsSet_crcByte_ne_one b h).1
  omega

/-- No two corrupted bits of the frame go undetected, the pattern in the checksum then being the CRC of the one in the data
(R170). -/
theorem bitsSet_undetected_ne_two (e0 e1 : Byte) : bitsSet e0 + bitsSet e1 + bitsSet (crc8 0 [e0, e1]) ≠ 2 := by
  have hcrc : crc8 0 [e0, e1] = crcByte 0 (crcByte 0 e0 ^^^ e1) := crcByte_eq_crcByte_zero _ _
  have hzero : bitsSet 0 = 0 := rfl
  by_cases h0 : e0 = 0
  · have h : crc8 0 [e0, e1] = crcByte 0 e1 := by
      rw [hcrc, h0, crcByte_zero_zero]
      exact congrArg (crcByte 0) BitVec.zero_xor
    rw [h, h0, hzero]
    by_cases h1 : e1 = 0
    · rw [h1, crcByte_zero_zero, hzero]
      decide
    · have := two_lt_bitsSet_crcByte h1
      omega
  · have hw0 : bitsSet e0 ≠ 0 := mt bitsSet_eq_zero.1 h0
    by_cases hck : crc8 0 [e0, e1] = 0
    · have he1 : crcByte 0 e0 = e1 := BitVec.xor_eq_zero_iff.1 (crcByte_zero_eq_zero.1 (hcrc.symm.trans hck))
      have := two_lt_bitsSet_crcByte h0
      rw [he1] at this
      omega
    · have hwck : bitsSet (crc8 0 [e0, e1]) ≠ 0 := mt bitsSet_eq_zero.1 hck
      intro htwo
      have h1 : e1 = 0 := bitsSet_eq_zero.1 (by omega)
      have h : crc8 0 [e0, e1] = crcByte 0 (crcByte 0 e0) := by
        rw [hcrc, h1]
        exact congrArg (crcByte 0) BitVec.xor_zero
      refine (bitsSet_crcByte_ne_one e0 (by omega)).2 ?_
      rw [← h]
      omega

/-- An error pattern that leaves the check matching corrupts an even number of bits of the frame (R170). -/
theorem bitsSet_undetected_mod_two (e0 e1 : Byte) : (bitsSet e0 + bitsSet e1 + bitsSet (crc8 0 [e0, e1])) % 2 = 0 := by
  have h0 : bitsSet (crcByte 0 e0) % 2 = (bitsSet 0 + bitsSet e0) % 2 := bitsSet_crcByte_mod_two 0 e0
  have h1 : bitsSet (crc8 0 [e0, e1]) % 2 = (bitsSet (crcByte 0 e0) + bitsSet e1) % 2 := bitsSet_crcByte_mod_two _ e1
  have hzero : bitsSet 0 = 0 := rfl
  omega

/-- Settles O50: what a corrupted frame's check misses has an even number of bits, and not two; the four-bit pattern is a frame that
matches from zero. -/
theorem frameErrorsUpToThreeBitsAreDetected : Obligations.FrameErrorsUpToThreeBitsAreDetected := by
  constructor
  · intro init d0 d1 ck e0 e1 e2 h hlow hhigh
    rw [← Bool.not_eq_false, mismatchFlag_corrupted_frame h]
    rintro rfl
    have heven := bitsSet_undetected_mod_two e0 e1
    have hne := bitsSet_undetected_ne_two e0 e1
    omega
  · intro init d0 d1 ck h
    have hpattern : crc8 0 [0x80, 0] = 0x23 := by decide +kernel
    have := (mismatchFlag_corrupted_frame h 0x80 0 0x23).2 hpattern
    rwa [show d1 ^^^ 0 = d1 from BitVec.xor_zero] at this

end Sys2Proof.Machine

namespace Sys2Proof.Gf2

open Polynomial Sys2Proof.Machine

/-! ## The CRC as a polynomial remainder (R169) -/

/-- XOR of bytes is addition of their polynomials. -/
theorem ofByte_xor (a b : Byte) : ofByte (a ^^^ b) = ofByte a + ofByte b := by
  rw [ofByte, ofByte, ofByte, ← Finset.sum_add_distrib]
  refine Finset.sum_congr rfl fun i _ => ?_
  rw [BitVec.getLsbD_xor]
  cases a.getLsbD i <;> cases b.getLsbD i <;> simp [CharTwo.add_self_eq_zero]

@[simp] theorem ofByte_zero : ofByte 0#8 = 0 := by simp [ofByte]

/-- The polynomial of a shifted byte: the terms below bit 7, each times x. -/
theorem ofByte_shiftLeft_one (a : Byte) :
    ofByte (a <<< 1) = (∑ i ∈ Finset.range 7, if a.getLsbD i then X ^ i else 0) * X := by
  rw [ofByte, Finset.sum_range_succ', Finset.sum_mul]
  have hbit : ∀ i ∈ Finset.range 7, (a <<< 1).getLsbD (i + 1) = a.getLsbD i := fun i hi => by
    have hlt : i + 1 < 8 := Nat.succ_lt_succ (Finset.mem_range.1 hi)
    simp only [BitVec.getLsbD_shiftLeft, hlt]
    simp
  simp only [ite_mul, zero_mul, ← pow_succ]
  rw [Finset.sum_congr rfl fun i hi => by rw [hbit i hi]]
  simp

/-- Multiplication by x is a shift by one, and bit 7 becomes x^8. -/
theorem ofByte_mul_X (a : Byte) : ofByte a * X = ofByte (a <<< 1) + if a.getLsbD 7 then X ^ 8 else 0 := by
  rw [ofByte_shiftLeft_one, ofByte, Finset.sum_range_succ, add_mul, ite_mul, zero_mul, ← pow_succ]

/-- The polynomial is its leading term and POLY8 (R5). -/
theorem generator_eq : generator = X ^ 8 + ofByte poly8 := by
  have hpoly : ofByte poly8 = 1 + X ^ 4 + X ^ 5 := by simp [ofByte, poly8, Finset.sum_range_succ]
  rw [generator, hpoly]
  ring

/-- A bit step is multiplication by x modulo the generator: the feedback subtracts it where bit 7 became x^8 (R162). -/
theorem mk_ofByte_crcBit (a : Byte) :
    AdjoinRoot.mk generator (ofByte (crcBit a)) = AdjoinRoot.mk generator (ofByte a * X) := by
  rw [AdjoinRoot.mk_eq_mk, ofByte_mul_X, crcBit_eq_shift_xor, ofByte_xor]
  cases a.getLsbD 7
  · simp
  · rw [if_pos rfl, if_pos rfl, dvd_sub_comm, add_sub_add_left_eq_sub, CharTwo.sub_eq_add, ← generator_eq]

/-- n steps multiply by x^n. -/
theorem mk_ofByte_crcBits (n : Nat) (a : Byte) :
    AdjoinRoot.mk generator (ofByte (crcBits n a)) = AdjoinRoot.mk generator (ofByte a * X ^ n) := by
  induction n generalizing a with
  | zero => rw [crcBits, pow_zero, mul_one]
  | succ n ih => rw [crcBits_succ, ih, map_mul, mk_ofByte_crcBit, ← map_mul, mul_assoc, ← pow_succ']

theorem ofBytes_append_singleton (data : List Byte) (b : Byte) :
    ofBytes (data ++ [b]) = ofBytes data * X ^ 8 + ofByte b := by
  rw [ofBytes, List.foldl_concat, ← ofBytes]

/-- The CRC and the message times x^8 are one residue (R169). -/
theorem mk_ofByte_crc8 (data : List Byte) :
    AdjoinRoot.mk generator (ofByte (crc8 0 data)) = AdjoinRoot.mk generator (ofBytes data * X ^ 8) := by
  induction data using List.reverseRecOn with
  | nil => simp [crc8, ofBytes]
  | append_singleton data b ih =>
    rw [crc8_append, ofBytes_append_singleton]
    change AdjoinRoot.mk generator (ofByte (crcBits 8 (crc8 0 data ^^^ b))) = _
    rw [mk_ofByte_crcBits, ofByte_xor, map_mul, map_mul, map_add, map_add, ih]

theorem degree_ofByte_lt (b : Byte) : (ofByte b).degree < 8 := by
  refine mem_degreeLT.1 (Submodule.sum_mem _ fun i hi => mem_degreeLT.2 ?_)
  split
  · exact (degree_X_pow_le i).trans_lt (by exact_mod_cast Finset.mem_range.1 hi)
  · exact bot_lt_iff_ne_bot.2 (by simp)

theorem degree_generator : generator.degree = 8 := by
  rw [generator]
  compute_degree!

/-- Settles O48: byte by byte, the message so far times x^8 and its CRC are one residue. -/
theorem crcIsThePolynomialRemainder : Obligations.CrcIsThePolynomialRemainder := fun data =>
  ⟨AdjoinRoot.mk_eq_mk.1 (mk_ofByte_crc8 data).symm, (degree_ofByte_lt _).trans_eq degree_generator.symm⟩

end Sys2Proof.Gf2

namespace Sys2Proof.Machine

/-! ## CRC_CHECK called by the host (R160 to R167) -/

/-- The registers of a CRC_CHECK at the compare, `data` being folded (R160, R161). -/
def State.crcFolded (s : State) (data : List Byte) (len exp : Byte) : State :=
  { s with
    phase := .crcCompare, data := data, len := some len, exp := some exp
    acc := some (crc8 s.params.crcInit data), bytei := some len, bitn := if len = 0 then s.bitn else some 8 }

/-- From its start a check of LEN bytes reaches the compare in nine visits a byte (R160, R46). -/
theorem runOp_startCrc (m : Nat) (s : State) {data : List Byte} {len : Byte} (exp : Byte) (hd : data.length = len.toNat) :
    runOp (m + 9 * len.toNat) (startCrc data len exp s) = runOp m (s.crcFolded data len exp) := by
  by_cases h0 : len = 0
  · obtain rfl := h0
    obtain rfl : data = [] := List.length_eq_zero_iff.1 hd
    rfl
  · have hpos : 0 < len.toNat := Nat.pos_of_ne_zero fun h => h0 (BitVec.eq_of_toNat_eq h)
    rw [runOp_crcBytes len.toNat (startCrc data len exp s) s.params.crcInit 0 len m (Nat.zero_add _) hpos (if_neg h0)
      rfl rfl rfl hd, State.crcFolded, if_neg h0]
    rfl

/-- The compare of a CRC_CHECK that the host called ends it (R166, R46). -/
theorem runOp_crcCompare_crcCheck (m : Nat) {s : State} {a e : Byte} (hp : s.phase = .crcCompare) (ho : s.opsel = some .crcCheck)
    (ha : s.acc = some a) (he : s.exp = some e) :
    runOp (m + 1) s = { s with
      phase := .idle, mismatch := some (decide (a ≠ e)), trace := s.trace ++ [.ret (.mismatch (decide (a ≠ e)))] } := by
  have ht : tick s = endOp (.mismatch (decide (a ≠ e))) { s with mismatch := some (decide (a ≠ e)) } := by
    rw [tick_crcCompare hp, phaseCrcCompare, ha, he, readReg_some, readReg_some, mismatchFlag_eq_decide,
      afterCompare_crcCheck _ (by exact ho)]
  rw [runOp_tick (by rw [hp]; rfl) (by rw [hp]; rfl), ht, runOp_settled rfl, endOp_eq]

/-- Settles O43: nine visits a byte and the compare, within the visits a run has. -/
theorem crcCheckFoldsTheBytes : Obligations.CrcCheckFoldsTheBytes := by
  intro s data len expected hi
  refine ⟨(List.range (len.toNat - data.length)).map fun i => Config.freeData (s.dataDrawn + i), by simp, ?_⟩
  change invoke .crcCheck (.crcCheck data len expected) (loadCrc data len expected) s = _
  have hlen := len.isLt
  have hfuel : opFuel = 2399 - 9 * len.toNat + 1 + 9 * len.toNat := by rw [opFuel]; omega
  rw [invoke_eq _ _ hi (fun h => Bool.noConfusion h), hfuel, loadCrc, runOp_startCrc _ _ _ (dataPort_length _ _ _),
    runOp_crcCompare_crcCheck _ rfl rfl rfl rfl]
  simp [State.crcFolded, State.emit, dataPort, hi]

/-- Settles O45: with all LEN bytes listed no free byte is drawn, and the fold starts from CRC_INIT. -/
theorem crcCheckIsPure : Obligations.CrcCheckIsPure := by
  intro s s' data len expected hi hi' hlen hinit
  obtain ⟨more, hmore, he⟩ := crcCheckFoldsTheBytes s data len expected hi
  obtain ⟨more', hmore', he'⟩ := crcCheckFoldsTheBytes s' data len expected hi'
  rw [Nat.sub_eq_zero_of_le hlen, List.length_eq_zero_iff] at hmore hmore'
  obtain rfl := hmore
  obtain rfl := hmore'
  rw [← hinit] at he'
  exact ⟨_, _, _, he, he', rfl, rfl, by simp, by simp⟩

/-! ## The serial number, its CRC bytes discarded (R172) -/

/-- Settles O32: both responses are stored before LOC selects, and no phase of the run is one of CRC_CHECK. -/
theorem getSerialNumberReturnsTheByteAtLocation : Obligations.GetSerialNumberReturnsTheByteAtLocation := by
  intro s l hi hb hl hv h8 h6
  have hlt : l.toNat < 8 := by omega
  obtain ⟨p, -, hbyte⟩ := placeSn_full hv s.readAnswer (Vector.replicate 8 none) ⟨l.toNat, hlt⟩
  refine ⟨placeSn (snDests s.params.snMap) s.readAnswer (Vector.replicate 8 none), s.readAnswer p,
    fun _ _ => placeSn_snDests_first hv, fun _ _ => placeSn_snDests_second hv, fun _ => hbyte, ?_⟩
  rw [exec_getSerialNumber_ready l hi hb h8, runOp_firstStored_ready (s := s.serialCalled l) 2394 _ h6,
    runOp_snSelect (s := (s.serialCalled l).bothStored _) 2393 rfl rfl hlt hbyte]
  simp only [State.bothStored, serialEvents, ← List.append_assoc, show s.phase = .idle from hi]
  rfl

/-! ## The bytes of the responses that matter (R143, R172) -/

/-- The buffer depends on the bytes of the stored positions only. -/
theorem placeSn_congr_stored {ds : List (Option (Fin 8))} {f g : Nat → Byte}
    (h : ∀ p i, ds[p]? = some (some i) → f p = g p) (sn : Vector (Option Byte) 8) : placeSn ds f sn = placeSn ds g sn := by
  induction ds generalizing f g sn with
  | nil => rfl
  | cons d ds ih =>
    have hrest : ∀ p i, ds[p]? = some (some i) → f (p + 1) = g (p + 1) := fun p i hp => h (p + 1) i hp
    cases d with
    | none => exact ih hrest sn
    | some i => simp only [placeSn, h 0 i rfl, ih hrest]

/-- Two oracles that agree at the stored positions of both responses fill the buffer alike (R172). -/
theorem placeSn_snDests_congr {m : SnMap} {f g : Nat → Byte}
    (h1 : ∀ p : Fin 8, (m.store1[p]).isSome = true → f p = g p)
    (h2 : ∀ q : Fin 6, (m.store2[q]).isSome = true → f (8 + q) = g (8 + q)) (sn : Vector (Option Byte) 8) :
    placeSn (snDests m) f sn = placeSn (snDests m) g sn := by
  refine placeSn_congr_stored (fun p i hp => ?_) sn
  have hlen : p < 8 + 6 := by simpa [snDests] using (List.getElem?_eq_some_iff.1 hp).1
  by_cases h : p < 8
  · have hd := (snMap_dests_first m ⟨p, h⟩).symm.trans hp
    exact h1 ⟨p, h⟩ (by rw [Option.some.inj hd]; rfl)
  · obtain ⟨q, rfl⟩ := Nat.exists_eq_add_of_le (Nat.le_of_not_lt h)
    have hd := (snMap_dests_second m ⟨q, by omega⟩).symm.trans hp
    exact h2 ⟨q, by omega⟩ (by rw [Option.some.inj hd]; rfl)

/-! ## A called GET_SERIAL_NUMBER, wherever it stands -/

/-- The buffer once both responses are read, of an oracle that answers `f` from the `Call` on (R36, R143). -/
def serialBuffer (m : SnMap) (f : Nat → Byte) : Vector (Option Byte) 8 := placeSn (snDests m) f (Vector.replicate 8 none)

/-- What a phase of GET_SERIAL_NUMBER finds in the buffer and in the oracle. -/
def State.serialProgress (m : SnMap) (f : Nat → Byte) (s : State) : Phase → Prop
  | .snAddr1 | .snReq1 | .snRead1 => s.sn = Vector.replicate 8 none ∧ s.readAnswer = f
  | .snAddr2 | .snReq2 | .snRead2 =>
    s.sn = placeSn m.store1.toList f (Vector.replicate 8 none) ∧ s.readAnswer = fun i => f (8 + i)
  | .snSelect => s.sn = serialBuffer m f
  | .idle | .faulted => True
  | _ => False

/-- A block that carries on, or has ended, a GET_SERIAL_NUMBER of `l` called last: if it has returned a byte, then that of the
buffer at `l`. -/
structure State.SerialRun (m : SnMap) (f : Nat → Byte) (l : Byte) (s : State) : Prop where
  snMap : s.params.snMap = m
  host : s.host = []
  loc : s.loc = some l
  progress : s.serialProgress m f s.phase
  returned : ∀ b, s.trace.getLast? = some (.ret (.serial b)) → (serialBuffer m f)[l.toNat]? = some (some b)

section
variable {m : SnMap} {f : Nat → Byte} {l : Byte} {s : State}

/-- A visit whose last event is no `Ret` leaves such a block, if the new phase finds what it needs. -/
theorem State.SerialRun.visit {t : State} (h : s.SerialRun m f l) (es : List Event) (e : Event) (he : ∀ v, e ≠ .ret v)
    (hk : s.Keeps t) (hloc : t.loc = s.loc) (htr : t.trace = s.trace ++ (es ++ [e]))
    (hp : t.serialProgress m f t.phase) : t.SerialRun m f l where
  snMap := hk.params ▸ h.snMap
  host := hk.host.trans h.host
  loc := hloc.trans h.loc
  progress := hp
  returned := fun b hb => by
    rw [htr, ← List.append_assoc, List.getLast?_concat] at hb
    exact absurd (Option.some.inj hb) (he _)

/-- A fault returns nothing (R221). -/
theorem State.SerialRun.raise (h : s.SerialRun m f l) (r : Fault) : (s.raise r).SerialRun m f l :=
  ⟨h.snMap, h.host, h.loc, trivial, h.returned⟩

/-- A count goes on to its phase's reads, or leaves the phase as it is. -/
theorem State.SerialRun.awaitBytes {n : Nat} {p : Phase} (h : s.SerialRun m f l) (hs : s.serialProgress m f p) :
    (awaitBytes n p s).SerialRun m f l := by
  have hk := State.Keeps.doAvail s
  unfold Machine.awaitBytes
  split
  · exact h.visit [] (.avail (s.availAnswer 0)) nofun (hk.trans (.goto _ p)) rfl rfl hs
  · exact h.visit [] (.avail (s.availAnswer 0)) nofun hk rfl rfl h.progress

/-- Every visit leaves such a block. -/
theorem State.SerialRun.tick (h : s.SerialRun m f l) : (tick s).SerialRun m f l := by
  have hprog := h.progress
  have hk := State.Keeps.tick s
  cases hp : s.phase with
  | idle => rw [tick_idle hp]; exact h
  | faulted => rw [tick_faulted hp]; exact h
  | snAddr1 =>
    rw [hp] at hprog
    rw [tick_snAddr1 hp, phaseSnAddr1_eq] at hk ⊢
    exact h.visit [.beginTx 0x40, .write 0xFA, .write 0x0F, .endTx] (.request 0x40 8) nofun hk rfl rfl hprog
  | snAddr2 =>
    rw [hp] at hprog
    rw [tick_snAddr2 hp, phaseSnAddr2_eq] at hk ⊢
    exact h.visit [.beginTx 0x40, .write 0xFC, .write 0xC9, .endTx] (.request 0x40 6) nofun hk rfl rfl hprog
  | snReq1 =>
    rw [hp] at hprog
    rw [tick_snReq1 hp]
    exact h.awaitBytes (p := .snRead1) hprog
  | snReq2 =>
    rw [hp] at hprog
    rw [tick_snReq2 hp]
    exact h.awaitBytes (p := .snRead2) hprog
  | snRead1 =>
    rw [hp] at hprog
    obtain ⟨hsn, hread⟩ := hprog
    rw [tick_snRead1 hp, phaseSnRead1_eq] at hk ⊢
    refine h.visit ((List.range 7).map fun i => .read (s.readAnswer i)) (.read (s.readAnswer 7)) nofun hk rfl rfl ⟨?_, ?_⟩
    · rw [h.snMap, hsn, hread]
    · rw [← hread]
      exact funext (readAnswer_afterReads s 8)
  | snRead2 =>
    rw [hp] at hprog
    obtain ⟨hsn, hread⟩ := hprog
    rw [tick_snRead2 hp, phaseSnRead2_eq] at hk ⊢
    refine h.visit ((List.range 5).map fun i => .read (s.readAnswer i)) (.read (s.readAnswer 5)) nofun hk rfl rfl ?_
    change _ = serialBuffer m f
    rw [h.snMap, hsn, hread, serialBuffer, snDests, placeSn_append, Vector.length_toList]
  | snSelect =>
    rw [hp] at hprog
    rw [tick_snSelect hp, phaseSnSelect, h.loc, readReg_some]
    split
    · rename_i hl
      cases hb : s.sn[l.toNat] with
      | none => exact h.raise _
      | some b =>
        refine ⟨h.snMap, h.host, h.loc, trivial, fun b' hb' => ?_⟩
        have hlast := List.getLast?_concat.symm.trans hb'
        obtain rfl : b = b' := by simpa using hlast
        rw [← show s.sn = serialBuffer m f from hprog, Vector.getElem?_eq_getElem hl, hb]
    · exact h.raise _
  | _ => rw [hp] at hprog; exact hprog.elim

/-- So does every step: no input is left at the HOST channel. -/
theorem State.SerialRun.step {t : State} (h : s.SerialRun m f l) (hstep : step s = .next t) : t.SerialRun m f l := by
  have hnil := h.host
  rcases step_next hstep with ⟨rest, hh, -⟩ | ⟨-, -, rfl⟩ | ⟨c, rest, i, -, hh, -⟩ | ⟨-, -, rfl | ⟨n, rfl⟩⟩
  · rw [hnil] at hh; cases hh
  · exact h
  · rw [hnil] at hh; cases hh
  · exact runOp_keeps (fun _ hs => hs.tick) _ _ h
  · exact ticks_keeps (fun _ hs => hs.tick) n _ h

/-- The step that takes the `Call` makes it one, of the oracle as it stands at the `Call`. -/
theorem serialRun_of_call {t : State} {c : HostCall} (hi : s.pIdle) (hh : s.host = [.call c])
    (hd : decode c.word = .ok (.getSerialNumber l)) (hstep : step s = .next t) :
    t.SerialRun s.params.snMap s.readAnswer l := by
  rcases step_next hstep with ⟨rest, hp, -⟩ | ⟨-, hp, -⟩ | ⟨c', rest, i, -, hp, -, hd', hexec⟩ | ⟨hne, -⟩
  · rw [hh] at hp; cases hp
  · rw [hh] at hp; cases hp
  · rw [hh] at hp
    cases hp
    cases hd.symm.trans hd'
    rcases exec_next hexec with ⟨op, load, hst, -, -, rfl⟩ | ⟨hst, -⟩
    · cases hst
      refine runOp_keeps (fun _ hs => hs.tick) _ _ ⟨rfl, rfl, rfl, ⟨rfl, rfl⟩, fun b hb => ?_⟩
      cases List.getLast?_concat.symm.trans hb
    · cases hst
  · exact absurd hi hne

end

/-- A run of several steps that answers a next state is a step and then the rest of it. -/
theorem step_of_run_succ {M : Host.Core} {s t : M.State} {k : Nat} (h : M.run (k + 1) s = .next t) :
    ∃ u, M.step s = .next u ∧ M.run k u = .next t := by
  unfold Host.Core.run at h
  split at h
  · exact ⟨_, ‹_›, h⟩
  · cases h
  · cases h

/-- What every step keeps, a run keeps. -/
theorem core_run_keeps {M : Host.Core} {P : M.State → Prop} (hP : ∀ s t, P s → M.step s = .next t → P t) {k : Nat}
    {s t : M.State} (hs : P s) (h : M.run k s = .next t) : P t := by
  induction k generalizing s with
  | zero => cases h; exact hs
  | succ k ih =>
    obtain ⟨u, hu, hrun⟩ := step_of_run_succ h
    exact ih (hP s u hs hu) hrun

/-- The byte that GET_SERIAL_NUMBER returns, however long it waits, is the buffer's at the location (R143, R144). -/
theorem returned_of_serial_call {s t : State} {c : HostCall} {l b : Byte} {k : Nat} (hi : s.pIdle) (hh : s.host = [.call c])
    (hd : decode c.word = .ok (.getSerialNumber l)) (hrun : Sys2Proof.core.run (k + 1) s = .next t)
    (hb : t.trace.getLast? = some (.ret (.serial b))) :
    (serialBuffer s.params.snMap s.readAnswer)[l.toNat]? = some (some b) := by
  obtain ⟨u, hu, hrest⟩ := step_of_run_succ hrun
  have hrun := core_run_keeps (M := Sys2Proof.core) (fun _ _ => State.SerialRun.step) (serialRun_of_call hi hh hd hu) hrest
  exact hrun.returned b hb

/-- Settles O36: the byte is the buffer's at the location, and the buffer is a function of the stored bytes. -/
theorem discardedSerialBytesDoNotMatter : Obligations.DiscardedSerialBytesDoNotMatter := by
  intro s s' t t' c c' l b b' k k' hi hi' hh hh' hd hd' hmap h1 h2 hrun hrun' hb hb'
  have hbyte := returned_of_serial_call hi hh hd hrun hb
  have hbyte' := returned_of_serial_call hi' hh' hd' hrun' hb'
  rw [serialBuffer, placeSn_snDests_congr h1 h2, hmap] at hbyte
  exact Option.some.inj (Option.some.inj (hbyte.symm.trans hbyte'))

end Sys2Proof.Machine

/-! Device commands and address sequences (spec/45_device_commands.md): what each word runs at the phase that emits it, and that it
is refused at every other phase. -/

namespace Sys2Proof.Machine

section
variable {s : State} {c : Byte} {p : Phase}

/-! ## Where a device word runs and where it is refused (R189) -/

/-- A command byte that READ_HM holds in CMD runs steps 1 to 4 (R123 to R126). -/
theorem commandSegment_eq (hp : s.phase = .rdSelect) (hc : s.cmd = some c) : commandSegment c s = .next (ticks 4 s) :=
  if_pos ⟨hp, hc⟩

/-- A command byte that the present phase does not emit is refused. -/
theorem commandSegment_refused (h : s.commandWord ≠ some (.cmd8 c)) : commandSegment c s = .refused .notEmitted :=
  if_neg fun ⟨hp, hc⟩ => h (by simp [State.commandWord, hp, hc])

/-- An address sequence runs the one visit of its phase. -/
theorem addressSegment_eq (hp : s.phase = p) : addressSegment p s = .next (tick s) := if_pos hp

theorem addressSegment_refused (hp : s.phase ≠ p) : addressSegment p s = .refused .notEmitted := if_neg hp

/-- SOFT_RESET at RST_SEND is the sending and the wait of the operation RESET (R111). -/
theorem exec_softReset_rstSend (hp : s.phase = .rstSend) : exec .softReset s = .next (ticks 2 s) := if_pos hp

/-- SOFT_RESET at RD_RECOVER is the recovery action (R129). -/
theorem exec_softReset_rdRecover (hp : s.phase = .rdRecover) : exec .softReset s = .next (tick s) :=
  (if_neg (by rw [hp]; decide)).trans (if_pos hp)

/-- SOFT_RESET at any other phase is a command byte like the rest. -/
theorem exec_softReset_command (h1 : s.phase ≠ .rstSend) (h2 : s.phase ≠ .rdRecover) :
    exec .softReset s = commandSegment 0xFE s :=
  (if_neg h1).trans (if_neg h2)

/-! ## The recovery action and its two continuations (R129, R46) -/

/-- The recovery action sends the soft reset, waits, and ends READ_HM with 1. -/
theorem recover_eq (s : State) : recover s = finishReadHm 1 (s.emits softResetEvents) := by
  simp only [recover, doTx_eq, doWait_eq, State.emits, softResetEvents, List.append_assoc]
  rfl

theorem finishReadHm_readHm (v : RawCode) (s : State) (ho : s.opsel = some .readHm) :
    finishReadHm v s = { s with phase := .idle, ret16 := some v, trace := s.trace ++ [.ret (.raw v)] } := by
  simp only [finishReadHm, ho, readReg_some, endOp_eq]

theorem finishReadHm_get (v : RawCode) (s : State) (ho : s.opsel = some .getTemperature ∨ s.opsel = some .getHumidity) :
    finishReadHm v s = { s with phase := .convert, ret16 := some v } := by
  rcases ho with ho | ho <;> simp only [finishReadHm, ho, readReg_some, State.goto]

end

/-! ## The statements -/

/-- Settles O52: each trigger is a command byte of a delay set, so READ_HM's steps 1 to 4 run to their end. -/
theorem triggersSelectSendWaitRequest : Obligations.TriggersSelectSendWaitRequest := by
  intro i c d s hmem hp hc
  have htrigger : exec i s = commandSegment c s ∧ selectDelay c = some d := by
    simp only [List.mem_cons, Prod.mk.injEq, List.not_mem_nil, or_false] at hmem
    rcases hmem with ⟨rfl, rfl, rfl⟩ | ⟨rfl, rfl, rfl⟩ | ⟨rfl, rfl, rfl⟩ | ⟨rfl, rfl, rfl⟩ <;> exact ⟨rfl, rfl⟩
  obtain ⟨hexec, hd⟩ := htrigger
  rw [hexec, commandSegment_eq hp hc, ticks_select s c d hp hc hd]

/-- Settles O53: a command byte of neither delay set is sent and found without a delay at step 3. -/
theorem otherCommandsFaultAsOperands : Obligations.OtherCommandsFaultAsOperands := by
  intro i c s hmem hp hc
  have hother : exec i s = commandSegment c s ∧ selectDelay c = none := by
    simp only [List.mem_cons, Prod.mk.injEq, List.not_mem_nil, or_false] at hmem
    rcases hmem with ⟨rfl, rfl⟩ | ⟨rfl, rfl⟩ | ⟨rfl, rfl⟩
    · exact ⟨rfl, rfl⟩
    · exact ⟨rfl, rfl⟩
    · exact ⟨exec_softReset_command (by rw [hp]; decide) (by rw [hp]; decide), rfl⟩
  obtain ⟨hexec, hd⟩ := hother
  rw [hexec, commandSegment_eq hp hc, ticks_unknown s c hp hc hd]

/-- Settles O54: the two visits of RESET, and the recovery action with the continuation that OPSEL names. -/
theorem softResetSendsAndWaits : Obligations.SoftResetSendsAndWaits := by
  refine ⟨fun s hp => ?_, fun s hp ho => ?_, fun s hp ho => ?_⟩
  · rw [exec_softReset_rstSend hp, ticks_succ, tick_rstSend hp, ticks_succ, tick_rstWait rfl, phaseRstWait_phaseRstSend]
    rfl
  · rw [exec_softReset_rdRecover hp, tick_rdRecover hp, phaseRdRecover, recover_eq]
    exact congrArg _ (finishReadHm_readHm 1 (s.emits softResetEvents) ho)
  · rw [exec_softReset_rdRecover hp, tick_rdRecover hp, phaseRdRecover, recover_eq]
    exact congrArg _ (finishReadHm_get 1 (s.emits softResetEvents) ho)

/-- Settles O55: the one visit of the phase that emits the sequence. -/
theorem addressSequencesSendAndRequest : Obligations.AddressSequencesSendAndRequest := by
  refine ⟨fun s hp => ?_, fun s hp => ?_⟩
  · exact (addressSegment_eq hp).trans (congrArg _ ((tick_snAddr1 hp).trans (phaseSnAddr1_eq s)))
  · exact (addressSegment_eq hp).trans (congrArg _ ((tick_snAddr2 hp).trans (phaseSnAddr2_eq s)))

/-- Settles O56: a word runs only where it is the phase's own, and a host operation is no device word. -/
theorem deviceWordsOnlyWhereEmitted : Obligations.DeviceWordsOnlyWhereEmitted := by
  intro i s hw hdev
  have hphase : ∀ p, ({ s with phase := p } : State).commandWord = some (encode i) → s.phase ≠ p := by
    rintro _ h rfl
    exact hw h
  cases i
  case trigTHm | trigRhHm | trigTNhm | trigRhNhm | writeUserReg | readUserReg => exact commandSegment_refused hw
  case softReset =>
    rw [exec_softReset_command (hphase .rstSend rfl) (hphase .rdRecover rfl)]
    exact commandSegment_refused hw
  case snAddr1 => exact addressSegment_refused (hphase .snAddr1 rfl)
  case snAddr2 => exact addressSegment_refused (hphase .snAddr2 rfl)
  all_goals exact absurd rfl (hdev _ _)

end Sys2Proof.Machine

/-! Exceptions (spec/60_exceptions.md): which calls are refused, what FAULTED leaves possible, the faults of an unknown command and
of an unwritten register, and the errors that the host receives as data. -/

namespace Sys2Proof.Machine

/-! ## Refused calls (R207, R208, R210) -/

section
variable {s : State} {i : Instr} {op : HostOp} {load : State → State}

/-- A host operation is the acceptance of its `Call` (R46 a). -/
theorem exec_of_hostStart (h : hostStart i = some (op, load)) : exec i s = invoke op i load s := by
  cases i
  case beginOp | resetOp | getTemperature | getHumidity | getSerialNumber | readHm | calcRh | calcT | crcCheck => cases h; rfl
  all_goals cases h

/-- Only the host operations are encoded as `HOSTOP` words (R81). -/
theorem hostStart_of_encode {c : BitVec 4} {p : Ports} (h : encode i = .hostop c p) :
    ∃ op load, hostStart i = some (op, load) := by
  cases hst : hostStart i with
  | none => exact absurd h (encode_ne_hostop hst c p)
  | some start => exact ⟨start.1, start.2, rfl⟩

/-- U_BUSY, tested before anything else (R207, R210). -/
theorem invoke_busy (hni : s.phase ≠ .idle) : invoke op i load s = .refused .uBusy := if_pos hni

/-- U_NOTBEGUN (R208). -/
theorem invoke_notBegun (hu : op.usesBus = true) (hi : s.pIdle) (hb : s.begun = false) :
    invoke op i load s = .refused .uNotBegun := by
  unfold invoke
  rw [if_neg (not_not.2 hi), if_pos (by rw [hu, hb]; rfl)]

theorem exec_hostop_busy {c : BitVec 4} {p : Ports} (h : encode i = .hostop c p) (hni : s.phase ≠ .idle) :
    exec i s = .refused .uBusy := by
  obtain ⟨op, load, hst⟩ := hostStart_of_encode h
  exact (exec_of_hostStart hst).trans (invoke_busy hni)

/-- A `Call` whose caller did not wait is refused in any phase (R236 b; log 15). -/
theorem step_early_call {c : HostCall} {rest : List HostInput} (hh : s.host = .call c :: rest) (he : c.early = true) :
    step s = .refused .uBusy := by
  simp [step, hh, he]

end

/-- Settles O18: the phase is the first test of an accepted `Call`, the caller's mark that of a step. -/
theorem busyBlockRefusesCalls : Obligations.BusyBlockRefusesCalls :=
  ⟨fun _ _ _ _ henc hni => exec_hostop_busy henc hni, fun _ _ _ hh he => step_early_call hh he⟩

/-- Settles O19: each of the five starts an operation that uses the bus. -/
theorem busOperationsNeedBegin : Obligations.BusOperationsNeedBegin := by
  intro i s hop hi hb
  have hstart : ∃ op load, hostStart i = some (op, load) ∧ op.usesBus = true := by
    rcases hop with rfl | rfl | rfl | ⟨c, rfl⟩ | ⟨l, rfl⟩ <;> exact ⟨_, _, rfl, rfl⟩
  obtain ⟨op, load, hst, hu⟩ := hstart
  exact (exec_of_hostStart hst).trans (invoke_notBegun hu hi hb)

/-! ## FAULTED (R213) -/

/-- A step that no input pre-empts answers the recorded cause (log 1). -/
theorem step_faulted {s : State} (hf : s.phase = .faulted) (hq : s.quiet = true) :
    step s = .fault (s.cause.getD .unrecorded) :=
  (step_busy (by rw [hf]; exact Phase.noConfusion) hq).trans (if_pos hf)

/-- Settles O20: of the four things a step can do, power-on reset alone is possible in FAULTED. -/
theorem faultedBlockStops : Obligations.FaultedBlockStops := by
  intro s hf
  have hni : s.phase ≠ .idle := by rw [hf]; exact Phase.noConfusion
  refine ⟨fun i op p henc => exec_hostop_busy henc hni, fun f hc hq => ?_, fun hpow t hstep => ?_⟩
  · rw [step_faulted hf hq, hc]
    rfl
  · rcases step_next hstep with ⟨rest, hh, -⟩ | ⟨hi, -⟩ | ⟨_, _, _, hi, -⟩ | ⟨-, hnf, -⟩
    · exact hpow (by rw [hh]; rfl)
    · exact hni hi
    · exact hni hi
    · exact hnf hf

/-! ## U_CMD (R204) -/

/-- Every byte but the four of the delay sets selects no delay (R123). -/
theorem selectDelay_unlisted {c : Byte} (h : c ∉ [0xE5, 0xF5, 0xE3, 0xF3]) : selectDelay c = none := by
  simp only [List.mem_cons, List.not_mem_nil, or_false, not_or] at h
  obtain ⟨hE5, hF5, hE3, hF3⟩ := h
  exact selectDelay_none (Bool.or_eq_false_iff.2 ⟨beq_eq_false_iff_ne.2 hE5, beq_eq_false_iff_ne.2 hF5⟩)
    (Bool.or_eq_false_iff.2 ⟨beq_eq_false_iff_ne.2 hE3, beq_eq_false_iff_ne.2 hF3⟩)

/-- Settles O26: step 1 selects no delay, so the run rests in FAULTED after READ_HM's first visits. -/
theorem readHmOfAnUnknownCommandFaults : Obligations.ReadHmOfAnUnknownCommandFaults := by
  intro s c hi hb hc
  have hd := selectDelay_unlisted hc
  change invoke .readHm (.readHm c) (loadCommand c) s = _
  rw [invoke_eq _ _ hi fun _ => hb, opFuel, runOp_select 2396 _ c rfl rfl, ticks_unknown _ c rfl rfl hd, runOp_settled rfl]
  simp [State.emit, loadCommand]

/-! ## Errors as data (R131, R222) -/

/-- The oracle's answers that the host cannot tell from the lowest measurement: no frame in time, a bad one, or a good one of a raw
value up to 3. -/
def State.readsAsError (s : State) : Prop :=
  (∀ k ≤ 10, s.availAnswer k < 3) ∨
    ∃ j ≤ 10, s.oReady 3 j ∧ (crc8 s.params.crcInit [s.readAnswer 0, s.readAnswer 1] ≠ s.readAnswer 2 ∨
      (s.readAnswer 0 ++ s.readAnswer 1 : RawCode).toNat ≤ 3)

/-- On each of them READ_HM ends with a value up to 3, whoever called it: the sentinel of its exit, or RAW. -/
theorem invoke_readHm_of_readsAsError {s : State} (h : s.readsAsError) (hi : s.pIdle) (hb : s.pBegun) (i : Instr) {op : HostOp}
    (hop : op.measures = true) {c d : Byte} (hd : selectDelay c = some d) :
    ∃ (k : Nat) (v : RawCode) (x : State), v.toNat ≤ 3 ∧ x.opsel = some op ∧
      invoke op i (loadCommand c) s = .next (runOp (k + 1) (finishReadHm v x)) := by
  rcases h with hlow | ⟨j, hj, hr, herr⟩
  · exact ⟨2394, sentinelTimeout, _, by decide, rfl, invoke_readHm_timeout i hi hb hd hlow⟩
  · by_cases hk : crc8 s.params.crcInit [s.readAnswer 0, s.readAnswer 1] = s.readAnswer 2
    · exact ⟨2373, _, _, herr.resolve_left (not_not.2 hk), rfl, invoke_readHm_good i hi hb hop hd hj hr hk⟩
    · exact ⟨2372, sentinelCrc, _, by decide, rfl, invoke_readHm_bad i hi hb hop hd hj hr hk⟩

theorem tNum_of_toNat_le {raw : RawCode} (h : raw.toNat ≤ 3) : tNum raw = BitVec.ofInt 32 (-307036160) := by
  rw [tNum, tNumerator, maskRaw_eq_zero h]
  rfl

theorem rhNum_of_toNat_le {raw : RawCode} (h : raw.toNat ≤ 3) : rhNum raw = BitVec.ofInt 32 (-393216) := by
  rw [rhNum, rhNumerator, maskRaw_eq_zero h]
  rfl

/-- Settles O31: READ_HM ends with a value up to 3 on each of the oracles, and the status bits are masked off. -/
theorem errorsLookLikeData : Obligations.ErrorsLookLikeData := by
  intro s d0 d1 ck j hi hb h
  have herr : s.readsAsError := by
    rcases h with hlow | ⟨hj, hr, ⟨rfl, rfl, rfl⟩, herr⟩
    · exact .inl hlow
    · exact .inr ⟨j, hj, hr, herr⟩
  constructor
  · obtain ⟨k, v, x, hv, ho, hinv⟩ :=
      invoke_readHm_of_readsAsError herr hi hb .getTemperature (op := .getTemperature) rfl (c := cmdTHm) rfl
    refine ⟨_, hinv.trans (congrArg _ (finish_getTemperature k x v ho)), rfl, ?_⟩
    rw [List.getLast?_concat, tNum_of_toNat_le hv]
  · obtain ⟨k, v, x, hv, ho, hinv⟩ :=
      invoke_readHm_of_readsAsError herr hi hb .getHumidity (op := .getHumidity) rfl (c := cmdRhHm) rfl
    refine ⟨_, hinv.trans (congrArg _ (finish_getHumidity k x v ho)), rfl, ?_⟩
    rw [List.getLast?_concat, rhNum_of_toNat_le hv]

/-! ## U_UNWRITTEN (R206) -/

section
variable {s : State}

/-- A read of a written register goes on. -/
theorem readReg_written {α : Type} {r : Option α} {name : RegName} {k : α → State} {t : State} (h : r.isSome = true)
    (hk : ∀ v, k v = t) : readReg r name s k = t := by
  obtain ⟨v, rfl⟩ := Option.isSome_iff_exists.1 h
  exact hk v

/-- A read of an unwritten register faults. -/
theorem readReg_unwritten {α : Type} {r : Option α} {name : RegName} {k : α → State} (h : r = none) :
    readReg r name s k = s.raise (.uUnwritten name) := by
  rw [h, readReg_none]

/-- An operation in progress whose next visit takes a fault rests there: the visit is the whole step. -/
theorem step_of_tick_raise {f : Fault} (hq : s.quiet = true) (hset : s.phase.settled = false)
    (hwait : s.phase.waitsForBytes = false) (hw : s.commandWord = none) (ht : tick s = s.raise f) :
    step s = .next (s.raise f) := by
  have hni : s.phase ≠ .idle := fun hp => by rw [hp] at hset; cases hset
  have hnf : s.phase ≠ .faulted := fun hp => by rw [hp] at hset; cases hset
  rw [step_busy hni hq, stepBusy_no_word hnf hw, opFuel, runOp_tick hset hwait, ht, runOp_settled rfl]

/-- The phases that emit no word and read a register before they write one. -/
def Phase.readsFirst : Phase → Bool
  | .rdSend | .rdCheck | .convert | .snSelect | .crcXor | .crcShift | .crcCompare => true
  | _ => false

/-- There the fault of the visit's first reads is the step. -/
theorem step_of_readsFirst {p : Phase} {f : Fault} (hq : s.quiet = true) (hp : s.phase = p) (hread : p.readsFirst = true)
    (ht : tick s = s.raise f) : step s = .next (s.raise f) := by
  subst hp
  have hphase : s.phase.settled = false ∧ s.phase.waitsForBytes = false ∧ s.commandWord = none := by
    unfold State.commandWord
    cases hp : s.phase
    case rdSend | rdCheck | convert | snSelect | crcXor | crcShift | crcCompare => exact ⟨rfl, rfl, rfl⟩
    all_goals rw [hp] at hread; cases hread
  obtain ⟨hset, hwait, hw⟩ := hphase
  exact step_of_tick_raise hq hset hwait hw ht

end

/-- The reads of a conversion after that of OPSEL: RET16 when it is nested, the operand port when the host called it (R46). -/
theorem phaseConvert_unwritten {s : State} {r : RegName}
    (h : (s.opsel = some .getTemperature ∨ s.opsel = some .getHumidity) ∧ r = .ret16 ∧ s.ret16 = none ∨
      (s.opsel = some .calcT ∨ s.opsel = some .calcRh) ∧ r = .rawPort ∧ s.rawPort = none) :
    phaseConvert s = s.raise (.uUnwritten r) := by
  unfold phaseConvert
  rcases h with ⟨ho | ho, rfl, hr⟩ | ⟨ho | ho, rfl, hr⟩ <;> rw [ho] <;> exact readReg_unwritten hr

/-- The read of the byte at LOC. -/
theorem phaseSnSelect_unwritten {s : State} {i : Fin 8} (hl : s.loc = some (BitVec.ofNat 8 i)) (hi : s.sn[i] = none) :
    phaseSnSelect s = s.raise (.uUnwritten (.sn i)) := by
  have hlt := i.isLt
  have hn : (BitVec.ofNat 8 i).toNat = i := by rw [BitVec.toNat_ofNat]; omega
  simp only [phaseSnSelect, hl, readReg_some, hn, hlt, dite_true]
  exact readReg_unwritten hi

/-- Settles O44: line by line, the reads of the phase up to the unwritten one. -/
theorem unwrittenRegisterReadFaults : Obligations.UnwrittenRegisterReadFaults := by
  intro s r hq h
  change step s = .next (s.raise (.uUnwritten r))
  rcases h with ⟨hp | hp, rfl, h⟩ | ⟨hp, rfl, h⟩ | ⟨hp, h0, rfl, h⟩ | ⟨hp, h0, h1, rfl, h⟩ | ⟨hp, rfl, h⟩ | ⟨hp, h⟩ | ⟨hp, h⟩ |
    ⟨hp, rfl, h⟩ | ⟨i, hp, hl, rfl, h⟩ | ⟨hp | hp | hp, rfl, h⟩ | ⟨hp, ha, rfl, h⟩ | ⟨i, hp, ha, hi, rfl, h⟩ | ⟨hp, ha, rfl, h⟩ |
    ⟨hp, ha, hk, rfl, h⟩ | ⟨hp, ha, hk, hi, rfl, h⟩ | ⟨hp, ha, rfl, h⟩
  · exact step_of_tick_raise hq (by rw [hp]; rfl) (by rw [hp]; rfl) (by simp [State.commandWord, hp, h])
      ((tick_rdSelect hp).trans (readReg_unwritten h))
  · exact step_of_readsFirst hq hp rfl ((tick_rdSend hp).trans (readReg_unwritten h))
  · exact step_of_readsFirst hq hp rfl ((tick_rdCheck hp).trans (readReg_unwritten h))
  · exact step_of_readsFirst hq hp rfl ((tick_rdCheck hp).trans (readReg_written h0 fun _ => readReg_unwritten h))
  · exact step_of_readsFirst hq hp rfl
      ((tick_rdCheck hp).trans (readReg_written h0 fun _ => readReg_written h1 fun _ => readReg_unwritten h))
  · exact step_of_readsFirst hq hp rfl ((tick_convert hp).trans (readReg_unwritten h))
  · exact step_of_readsFirst hq hp rfl ((tick_convert hp).trans (phaseConvert_unwritten (.inl h)))
  · exact step_of_readsFirst hq hp rfl ((tick_convert hp).trans (phaseConvert_unwritten (.inr h)))
  · exact step_of_readsFirst hq hp rfl ((tick_snSelect hp).trans (readReg_unwritten h))
  · exact step_of_readsFirst hq hp rfl ((tick_snSelect hp).trans (phaseSnSelect_unwritten hl h))
  · exact step_of_readsFirst hq hp rfl ((tick_crcXor hp).trans (readReg_unwritten h))
  · exact step_of_readsFirst hq hp rfl ((tick_crcShift hp).trans (readReg_unwritten h))
  · exact step_of_readsFirst hq hp rfl ((tick_crcCompare hp).trans (readReg_unwritten h))
  · exact step_of_readsFirst hq hp rfl ((tick_crcXor hp).trans (readReg_written ha fun _ => readReg_unwritten h))
  · refine step_of_readsFirst hq hp rfl ((tick_crcXor hp).trans (readReg_written ha fun _ => ?_))
    rw [hi, readReg_some]
    exact readReg_unwritten (List.getElem?_eq_none h)
  · exact step_of_readsFirst hq hp rfl ((tick_crcShift hp).trans (readReg_written ha fun _ => readReg_unwritten h))
  · exact step_of_readsFirst hq hp rfl
      ((tick_crcShift hp).trans (readReg_written ha fun _ => readReg_written hk fun _ => readReg_unwritten h))
  · exact step_of_readsFirst hq hp rfl ((tick_crcShift hp).trans
      (readReg_written ha fun _ => readReg_written hk fun _ => readReg_written hi fun _ => readReg_unwritten h))
  · exact step_of_readsFirst hq hp rfl ((tick_crcCompare hp).trans (readReg_written ha fun _ => readReg_unwritten h))

end Sys2Proof.Machine

/-! Reset and hazards (spec/70_reset_and_hazards.md): power-on reset of a running block, and READ_HM over a receive buffer in which
bytes of an earlier exchange may wait. -/

namespace Sys2Proof.Machine

/-! ## Power-on reset (R230, R231) -/

/-- Settles O2: the step tests for power-on reset before it looks at the phase. -/
theorem powerOnResetStep : Obligations.PowerOnResetStep := by
  intro s rest hh
  simp [step, hh, powerOnReset, State.popHost]

/-! ## What a first-in first-out buffer answers (R61, R62, R238) -/

section
variable {s : State} {c : HostCall} {fresh : List Byte}

/-- The frame is the first three bytes, the waiting ones before the fresh ones. -/
theorem State.oBuffer.oFrame (h : s.oBuffer c fresh) {a b ck : Byte} {more : List Byte}
    (hbytes : c.waiting ++ fresh = a :: b :: ck :: more) : s.oFrame a b ck := by
  have hread : ∀ (i : Nat) (x : Byte), (c.waiting ++ fresh)[i]? = some x → s.readAnswer i = x := fun i x hx => by
    obtain ⟨hi, hget⟩ := List.getElem?_eq_some_iff.1 hx
    exact (h.returned i hi).trans hget
  exact ⟨hread 0 a (by rw [hbytes]; rfl), hread 1 b (by rw [hbytes]; rfl), hread 2 ck (by rw [hbytes]; rfl)⟩

/-- Three waiting bytes are counted at the first check. -/
theorem State.oBuffer.oReady_zero (h : s.oBuffer c fresh) (hw : 3 ≤ c.waiting.length) : s.oReady 3 0 := by
  have hnone : ∀ i < 0, s.availAnswer i < 3 := fun _ hi => absurd hi (Nat.not_lt_zero _)
  exact ⟨hnone, hw.trans (h.counted 0 (Nat.zero_le _) hnone).1⟩

/-- A buffer that never holds three bytes is found short at every check: the count is bounded as long as the checks before it were
short too. -/
theorem State.oBuffer.availAnswer_lt_three (h : s.oBuffer c fresh) (hshort : c.waiting.length + fresh.length < 3) (k : Nat)
    (hk : k ≤ 10) : s.availAnswer k < 3 := by
  induction k using Nat.strong_induction_on with
  | _ k ih => exact (h.counted k hk fun i hi => ih i hi (hi.le.trans hk)).2.trans_lt hshort

end

/-! ## READ_HM called by the host over such a buffer (R122, R238) -/

section
variable {s : State} {c : HostCall} {rest : List HostInput} {cmd d : Byte} {fresh : List Byte}

/-- The frame that stands first in the buffer is returned, be its bytes waiting or fresh. -/
theorem step_readHm_of_buffered_frame (hi : s.pIdle) (hb : s.pBegun)
    (hstep : step s = exec (.readHm cmd) { s with host := rest })
    (hcd : (cmd = 0xE5 ∨ cmd = 0xF5) ∧ d = 30 ∨ (cmd = 0xE3 ∨ cmd = 0xF3) ∧ d = 85) (hbuf : s.oBuffer c fresh)
    {a b ck : Byte} {more : List Byte} (hcrc : crc8 s.params.crcInit [a, b] = ck) {j : Nat} (hj : j ≤ 10)
    (hready : s.oReady 3 j) (hbytes : c.waiting ++ fresh = a :: b :: ck :: more) :
    ∃ t, step s = .next t ∧ t.phase = .idle ∧ t.ret16 = some (a ++ b) ∧
      t.trace = s.trace ++ [.call (.readHm cmd)] ++ frameEvents cmd d.toNat s j ++
        [.read a, .read b, .read ck, .ret (.raw (a ++ b))] := by
  have hframe := hbuf.oFrame hbytes
  have hexec := readHmReturnsAGoodFrame { s with host := rest } cmd d a b ck j hi hb hcd hj hready hframe hcrc
  refine ⟨_, hstep.trans hexec, hi, rfl, ?_⟩
  obtain ⟨rfl, rfl, rfl⟩ := hframe
  exact List.append_assoc ..

end

/-- Settles O60: three waiting bytes are there at the first check, and in each clause on a frame its bytes stand first in the buffer,
so the good frame's exit is taken. A clean buffer of fewer than three fresh bytes ends in the timeout. -/
theorem staleBytesAreReadFirst : Obligations.StaleBytesAreReadFirst := by
  intro s c rest cmd d fresh hi hb hh he hdec hcd hbuf
  have hstep := stepRunsTheDecodedInstruction.1 s c rest _ hi hh he hdec
  refine ⟨fun a b ck more hcrc => ⟨fun hw => ?_, fun j hj hready hbytes => ?_, fun j hj hready hclean hfresh => ?_⟩,
    fun hclean hshort => ?_⟩
  · exact step_readHm_of_buffered_frame hi hb hstep hcd hbuf hcrc (Nat.zero_le _) (hbuf.oReady_zero (by simp [hw]))
      (more := more ++ fresh) (by rw [hw]; rfl)
  · exact step_readHm_of_buffered_frame hi hb hstep hcd hbuf hcrc hj hready hbytes
  · exact step_readHm_of_buffered_frame hi hb hstep hcd hbuf hcrc hj hready (more := more) (by rw [hclean, hfresh]; rfl)
  · have hlow := hbuf.availAnswer_lt_three (by simpa [hclean] using hshort)
    exact ⟨_, hstep.trans (readHmTimesOut _ cmd d hi hb hcd hlow), hi, rfl, rfl⟩

end Sys2Proof.Machine
